-- ==== Sys2Proof/Word.lean ====
section
/-! DEFINITION. The word types of the pulse codec block: the 32-bit controller-state word, the byte, the
16-bit request word (spec/00_scope.md R23: bit 0 is the least significant). The block computes on nothing else. -/

namespace Sys2Proof

/-- The CSW32 raw word of a controller state (30_encoding.md R100). -/
abbrev Word := BitVec 32

/-- One element of a byte buffer (00_scope.md R26), and the wire command CMD8 (30_encoding.md R99). -/
abbrev Byte := BitVec 8

/-- The request word REQ16 (30_encoding.md R108). -/
abbrev ReqWord := BitVec 16

end Sys2Proof
end

