-- ==== Sys2Proof/Syntax.lean ====
section
/-! DEFINITION. What the block is asked to do: pulse symbols, the operand names of a request word, and `Instr`, one
constructor per row of spec/opcode_table.json (twelve REQ16 operations, two CMD8 wire commands, four SYM32
canonical symbols). -/

namespace Sys2Proof

/-- A logic level (00_scope.md R22: 0 is low, 1 is high). -/
inductive Level where
  | low
  | high
  deriving DecidableEq, Repr

/-- A PulseSymbol, "two (duration, logic-level) half-pulse pairs" (30_encoding.md R85). A duration is a count of
ticks of `DUR_W` bits, a parameter: what comes in from outside is cut to that width, and `Symbol.fits` says that a symbol
keeps to it. R86 lets a model keep the four components as a record. -/
structure Symbol where
  d0 : Nat
  l0 : Level
  d1 : Nat
  l1 : Level
  deriving DecidableEq, Repr

/-- A StatePacket, format PKT: a raw word and a timestamp (30_encoding.md R101). -/
structure Packet where
  state : Word
  ts    : Nat
  deriving DecidableEq, Repr

/-- Which controller-state register a request names, `REQ[11]` (30_encoding.md R108; 00_scope.md R17). -/
inductive CsId where
  | cs0
  | cs1
  deriving DecidableEq, Repr

/-- The timeout class of a take or a receive (30_encoding.md R102; 0, 1, 2 of `REQ[10:9]`). -/
inductive Timeout where
  | zero
  | bounded
  | forever
  deriving DecidableEq, Repr

/-- One constructor per row of spec/opcode_table.json. The operands that are not in the word travel beside it, on the
operation port (30_encoding.md R108, R109). -/
inductive Instr where
  | encBit
  | encBuf
  | classify
  | decBits
  | parseCmd
  | parseState (r : CsId)
  | csRdWord (r : CsId)
  | csRdField (r : CsId) (f : BitVec 5)
  | csRdBytes (r : CsId)
  | csLdWord (r : CsId)
  | mbxPublish
  | mbxTake (tmo : Timeout) (c : BitVec 4)
  | status
  | poll
  | symZero
  | symOne
  | symStop
  | symEnd
  deriving DecidableEq, Repr

/-- The three encoded forms: a request word, a wire command byte, a pulse symbol (30_encoding.md R85, R99, R108). -/
inductive Code where
  | req (w : ReqWord)
  | cmd (b : Byte)
  | sym (s : Symbol)
  deriving DecidableEq, Repr

/-- Why the decoder reads no instruction (30_encoding.md R111, R112). -/
inductive Reject where
  /-- `op` in 0xC .. 0xF (R111). -/
  | reservedOp (op : BitVec 4)
  /-- A non-zero value in a field the operation does not use (R111). -/
  | unusedFieldSet
  /-- `tmo = 3` (R111). -/
  | reservedTimeout
  /-- `f` greater than 17 in `CS_RD_FIELD` (R111). -/
  | fieldOutOfRange (f : BitVec 5)
  /-- `c` not less than `NCONS` in `MBX_TAKE` (R111). -/
  | consumerOutOfRange (c : BitVec 4)
  /-- A command byte 0x02 .. 0xFF: not a fault, no reply (R112). -/
  | unrecognizedCommand (b : Byte)
  /-- A symbol that is none of ZERO, ONE, STOP, END (R92: captured symbols are not canonical). -/
  | notCanonical (s : Symbol)
  deriving DecidableEq, Repr

/-- What the decoder answers. -/
inductive Decoded where
  | ok (i : Instr)
  | reject (why : Reject)
  deriving DecidableEq, Repr

end Sys2Proof
end

