-- ==== Sys2Proof/Config.lean ====
section
/-! DEFINITION. The implementation parameters (spec/00_scope.md section 3) as one record, and the machine's default
configuration: the source's or the spec's default where there is one, a free value with no body where the
spec says OPEN. A record of parameters stands in State and no step changes it (R56, R259), so a statement over all
states is a statement over all configurations (notes/assumptions/1.md). -/

namespace Sys2Proof

/-- The three bytes of the identification reply (00_scope.md R15). -/
structure IdReply where
  b0 : Byte
  b1 : Byte
  b2 : Byte
  deriving DecidableEq, Repr

/-- The parameters of 00_scope.md R5 to R20 that a rule of the model reads, and K of R8. -/
structure Config where
  /-- `T_SHORT`, transmit ticks (R5). -/
  tShort : Nat
  /-- `T_LONG`, transmit ticks (R6). -/
  tLong : Nat
  /-- `THRESH`, capture duration-ticks (R7). -/
  thresh : Nat
  /-- `TICK_RATIO`, K: read by no operation, only by the loop-back laws (R8, R131). -/
  tickRatio : Nat
  /-- `DUR_W` (R10). -/
  durW : Nat
  /-- `STOP_SYMBOL` (R11). -/
  stopSymbol : Symbol
  /-- `POLL_MIN` (R14). -/
  pollMin : Nat
  /-- `ID_REPLY` (R15). -/
  idReply : IdReply
  /-- `TS_W` (R16). -/
  tsW : Nat
  /-- `NCONS` (R18). -/
  ncons : Nat
  /-- `PERIOD`, in the unit of `now` (R20, R206). -/
  period : Nat
  deriving DecidableEq, Repr

/-- `ID_REPLY[0]` of the default configuration: OPEN (R15), a free value. -/
opaque Config.freeIdByte0 : Byte
/-- `ID_REPLY[1]` of the default configuration: OPEN (R15), a free value. -/
opaque Config.freeIdByte1 : Byte
/-- `ID_REPLY[2]` of the default configuration: OPEN (R15), a free value. -/
opaque Config.freeIdByte2 : Byte
/-- `TICK_RATIO` of the default configuration: OPEN (R8), a free value. -/
opaque Config.freeTickRatio : Nat
/-- `PERIOD` of the default configuration: its unit is not given (R20), a free value. -/
opaque Config.freePeriod : Nat

/-- `now - ANCHOR` where `now` is below `ANCHOR`: no rule states that difference (44_sequencers.md R206; `now` is "not assumed
monotone", R196), a free value of the two. -/
opaque Config.freeElapsed : Nat → Nat → Nat
/-- `ANCHOR + PERIOD` where the sum does not fit the `TS_W` bits of a time: no rule states it (44_sequencers.md R206; 10_state.md
R48), a free value of the two. -/
opaque Config.freeDeadline : Nat → Nat → Nat

/-- The configuration at the defaults of 00_scope.md section 3 and of 92_eei_decisions.md's parameter table. -/
def Config.default : Config :=
  { tShort := 1, tLong := 3, thresh := 100, tickRatio := Config.freeTickRatio, durW := 15,
    stopSymbol := { d0 := 2, l0 := .low, d1 := 1, l1 := .high }, pollMin := 42,
    idReply := { b0 := Config.freeIdByte0, b1 := Config.freeIdByte1, b2 := Config.freeIdByte2 },
    tsW := 32, ncons := 1, period := Config.freePeriod }

end Sys2Proof
end

