-- ==== Sys2Proof/WellFormed.lean ====
section
/-! DEFINITION. Well-formedness: of a configuration (WF1, WF2 and the parameters' constraints), of a symbol and a packet
(their widths), and of an instruction under a configuration (the fields R111 limits). -/

namespace Sys2Proof

/-- WF1: `0 < T_SHORT < T_LONG < 2^DUR_W` (00_scope.md R9). -/
abbrev Config.wf1 (c : Config) : Prop :=
  0 < c.tShort ∧ c.tShort < c.tLong ∧ c.tLong < 2 ^ c.durW

/-- WF2, needed only where the loop-back is used, for a tick ratio `k` (00_scope.md R9). -/
abbrev Config.wf2 (c : Config) (k : Nat) : Prop :=
  c.tShort * k < c.thresh ∧ c.thresh ≤ c.tLong * k ∧ c.tLong * k < 2 ^ c.durW

/-- A symbol whose durations fit `DUR_W` bits (30_encoding.md R85). -/
abbrev Symbol.fits (c : Config) (s : Symbol) : Prop :=
  s.d0 < 2 ^ c.durW ∧ s.d1 < 2 ^ c.durW

/-- A packet whose timestamp fits `TS_W` bits (30_encoding.md R101). -/
abbrev Packet.fits (c : Config) (p : Packet) : Prop :=
  p.ts < 2 ^ c.tsW

/-- The constraint on `STOP_SYMBOL`: durations non-zero and of `DUR_W` bits, first half low, second half high
(00_scope.md R11). -/
abbrev Config.stopOk (c : Config) : Prop :=
  0 < c.stopSymbol.d0 ∧ 0 < c.stopSymbol.d1 ∧ c.stopSymbol.fits c ∧ c.stopSymbol.l0 = .low ∧ c.stopSymbol.l1 = .high

/-- The constraints of 92_eei_decisions.md's parameter table: WF1 (R9), STOP (R11), `POLL_MIN >= 41` (R14),
`1 <= NCONS <= 16` (R18). -/
abbrev Config.wf (c : Config) : Prop :=
  c.wf1 ∧ c.stopOk ∧ 41 ≤ c.pollMin ∧ 1 ≤ c.ncons ∧ c.ncons ≤ 16

/-- `STOP_SYMBOL` is neither ZERO nor ONE, so that a STOP can be told from a data bit (30_encoding.md R91: "whether they
differ from STOP depends on `STOP_SYMBOL`; at the default they do"). -/
abbrev Config.stopDistinct (c : Config) : Prop :=
  ¬ (c.stopSymbol.d0 = c.tLong ∧ c.stopSymbol.d1 = c.tShort) ∧ ¬ (c.stopSymbol.d0 = c.tShort ∧ c.stopSymbol.d1 = c.tLong)

/-- The instructions a request word, a command byte or a symbol can encode under `c` (30_encoding.md R111: `f <= 17`,
`c < NCONS`; R91 for STOP). -/
abbrev Instr.wf (c : Config) : Instr → Prop
  | .encBit => True
  | .encBuf => True
  | .classify => True
  | .decBits => True
  | .parseCmd => True
  | .parseState _ => True
  | .csRdWord _ => True
  | .csRdField _ f => f.toNat ≤ 17
  | .csRdBytes _ => True
  | .csLdWord _ => True
  | .mbxPublish => True
  | .mbxTake _ k => k.toNat < c.ncons
  | .status => True
  | .poll => True
  | .symZero => True
  | .symOne => True
  | .symStop => c.stopDistinct
  | .symEnd => True

end Sys2Proof
end

