-- ==== Sys2Proof/Decode.lean ====
section
/-! DEFINITION. The four canonical symbols and their packed form SYM32 (spec/30_encoding.md R86 to R90), the decoder of
request words, command bytes and symbols (R99, R108, R111, R112), total and rejecting by name, and the encoder,
written from the same tables. -/

namespace Sys2Proof

/-! ## The canonical symbols -/

/-- ZERO, "long-low/short-high" (R87). -/
def zeroSymbol (c : Config) : Symbol :=
  { d0 := c.tLong, l0 := .low, d1 := c.tShort, l1 := .high }

/-- ONE, "short-low/long-high" (R88). -/
def oneSymbol (c : Config) : Symbol :=
  { d0 := c.tShort, l0 := .low, d1 := c.tLong, l1 := .high }

/-- STOP, the parameter `STOP_SYMBOL` (R89). -/
def stopSymbol (c : Config) : Symbol :=
  c.stopSymbol

/-- END-OF-SEQUENCE, the "zero-duration sentinel" (R90; 00_scope.md R12). -/
def endSymbol : Symbol :=
  { d0 := 0, l0 := .low, d1 := 0, l1 := .low }

/-! ## SYM32 (R86), at `DUR_W = 15` -/

/-- A level as one bit (00_scope.md R22). -/
def Level.bit : Level → Bool
  | .low => false
  | .high => true

/-- The level a bit stands for (00_scope.md R22). -/
def Level.ofBit : Bool → Level
  | false => .low
  | true => .high

/-- SYM32: `l1` at bit 31, `d1` at 30:16, `l0` at 15, `d0` at 14:0 (R86). -/
def packSym32 (s : Symbol) : BitVec 32 :=
  BitVec.ofBool s.l1.bit ++ BitVec.ofNat 15 s.d1 ++ BitVec.ofBool s.l0.bit ++ BitVec.ofNat 15 s.d0

/-- The symbol a SYM32 word packs (R86). -/
def unpackSym32 (w : BitVec 32) : Symbol :=
  { d0 := (w.extractLsb' 0 15).toNat, l0 := .ofBit (w.getLsbD 15),
    d1 := (w.extractLsb' 16 15).toNat, l1 := .ofBit (w.getLsbD 31) }

/-! ## REQ16 (R108): `op` 15:12, `r` 11, `tmo` 10:9, `f` 8:4, `c` 3:0 -/

def reqOp (w : ReqWord) : BitVec 4 := w.extractLsb' 12 4
def reqR (w : ReqWord) : CsId := if w.getLsbD 11 then .cs1 else .cs0
def reqTmo (w : ReqWord) : BitVec 2 := w.extractLsb' 9 2
def reqF (w : ReqWord) : BitVec 5 := w.extractLsb' 4 5
def reqC (w : ReqWord) : BitVec 4 := w.extractLsb' 0 4

/-- One row of R108's table: the word has the row's `match` under its `mask`, or an unused field is not zero (R111). -/
def tableRow (mask pattern w : ReqWord) (found : Decoded) : Decoded :=
  if w &&& mask = pattern then found else .reject .unusedFieldSet

/-- `CS_RD_FIELD` names a field of 10_state.md R34, 0 to 17 (R111). -/
def fieldChecked (r : CsId) (f : BitVec 5) : Decoded :=
  if f.toNat ≤ 17 then .ok (.csRdField r f) else .reject (.fieldOutOfRange f)

/-- `MBX_TAKE` names a consumer below `NCONS` (R111). -/
def consumerChecked (ncons : Nat) (tmo : Timeout) (k : BitVec 4) : Decoded :=
  if k.toNat < ncons then .ok (.mbxTake tmo k) else .reject (.consumerOutOfRange k)

/-- The timeout class and the consumer of `MBX_TAKE`: `tmo = 3` selects nothing (R111). -/
def takeChecked (ncons : Nat) (tmo : BitVec 2) (k : BitVec 4) : Decoded :=
  match tmo.toNat with
  | 0 => consumerChecked ncons .zero k
  | 1 => consumerChecked ncons .bounded k
  | 2 => consumerChecked ncons .forever k
  | _ => .reject .reservedTimeout

/-- The decoder of request words, row by row as in R108's table; `op` 0xC to 0xF selects nothing (R111). -/
def decodeReq (c : Config) (w : ReqWord) : Decoded :=
  match (reqOp w).toNat with
  | 0x0 => tableRow 0xFFFF 0x0000 w (.ok .encBit)
  | 0x1 => tableRow 0xFFFF 0x1000 w (.ok .encBuf)
  | 0x2 => tableRow 0xFFFF 0x2000 w (.ok .classify)
  | 0x3 => tableRow 0xFFFF 0x3000 w (.ok .decBits)
  | 0x4 => tableRow 0xFFFF 0x4000 w (.ok .parseCmd)
  | 0x5 => tableRow 0xF7FF 0x5000 w (.ok (.parseState (reqR w)))
  | 0x6 => tableRow 0xF7FF 0x6000 w (.ok (.csRdWord (reqR w)))
  | 0x7 => tableRow 0xF60F 0x7000 w (fieldChecked (reqR w) (reqF w))
  | 0x8 => tableRow 0xF7FF 0x8000 w (.ok (.csRdBytes (reqR w)))
  | 0x9 => tableRow 0xF7FF 0x9000 w (.ok (.csLdWord (reqR w)))
  | 0xA => tableRow 0xFFFF 0xA000 w (.ok .mbxPublish)
  | 0xB => tableRow 0xF9F0 0xB000 w (takeChecked c.ncons (reqTmo w) (reqC w))
  | _ => .reject (.reservedOp (reqOp w))

/-! ## CMD8 (R99) and symbols -/

/-- `CMD_STATUS` (00_scope.md R13). -/
def cmdStatus : Byte := 0x00

/-- `CMD_POLL` (00_scope.md R13). -/
def cmdPoll : Byte := 0x01

/-- A command byte, compared on all eight bits (R99; 44_sequencers.md R213). -/
def decodeCmd (b : Byte) : Decoded :=
  if b = cmdStatus then .ok .status
  else if b = cmdPoll then .ok .poll
  else .reject (.unrecognizedCommand b)

/-- The canonical symbol `s` is under `c`, if any (R87 to R90). Where `STOP_SYMBOL` equals ZERO or ONE the data symbol is
answered: the two put the same pulse on the line. -/
def decodeSym (c : Config) (s : Symbol) : Decoded :=
  if s = zeroSymbol c then .ok .symZero
  else if s = oneSymbol c then .ok .symOne
  else if s = stopSymbol c then .ok .symStop
  else if s = endSymbol then .ok .symEnd
  else .reject (.notCanonical s)

/-- The decoder, total on every code. -/
def decode (c : Config) : Code → Decoded
  | .req w => decodeReq c w
  | .cmd b => decodeCmd b
  | .sym s => decodeSym c s

/-! ## The encoder -/

/-- REQ16 assembled from its five fields (R108). -/
def reqWord (op : BitVec 4) (r : BitVec 1) (tmo : BitVec 2) (f : BitVec 5) (k : BitVec 4) : ReqWord :=
  op ++ r ++ tmo ++ f ++ k

/-- `REQ[11]` of a register name (R108). -/
def CsId.bits : CsId → BitVec 1
  | .cs0 => 0
  | .cs1 => 1

/-- `REQ[10:9]` of a timeout class (R108). -/
def Timeout.bits : Timeout → BitVec 2
  | .zero => 0
  | .bounded => 1
  | .forever => 2

/-- The code of an instruction (R99, R108; R87 to R90 for the symbols). -/
def encode (c : Config) : Instr → Code
  | .encBit => .req (reqWord 0x0 0 0 0 0)
  | .encBuf => .req (reqWord 0x1 0 0 0 0)
  | .classify => .req (reqWord 0x2 0 0 0 0)
  | .decBits => .req (reqWord 0x3 0 0 0 0)
  | .parseCmd => .req (reqWord 0x4 0 0 0 0)
  | .parseState r => .req (reqWord 0x5 r.bits 0 0 0)
  | .csRdWord r => .req (reqWord 0x6 r.bits 0 0 0)
  | .csRdField r f => .req (reqWord 0x7 r.bits 0 f 0)
  | .csRdBytes r => .req (reqWord 0x8 r.bits 0 0 0)
  | .csLdWord r => .req (reqWord 0x9 r.bits 0 0 0)
  | .mbxPublish => .req (reqWord 0xA 0 0 0 0)
  | .mbxTake tmo k => .req (reqWord 0xB 0 tmo.bits 0 k)
  | .status => .cmd cmdStatus
  | .poll => .cmd cmdPoll
  | .symZero => .sym (zeroSymbol c)
  | .symOne => .sym (oneSymbol c)
  | .symStop => .sym (stopSymbol c)
  | .symEnd => .sym endSymbol

/-! ## The table's own numbering -/

/-- The code whose bits are `w`, by the width the opcode table gives the row: 16 bits are a request word, 8 a command
byte, 32 a symbol in SYM32. -/
def codeOfTableWord (nbits w : Nat) : Option Code :=
  match nbits with
  | 8 => some (.cmd (BitVec.ofNat 8 w))
  | 16 => some (.req (BitVec.ofNat 16 w))
  | 32 => some (.sym (unpackSym32 (BitVec.ofNat 32 w)))
  | _ => none

/-- The instruction the decoder reads from a table word, at the default parameters (spec/opcode_table.json). -/
def decodeTableWord (nbits w : Nat) : Option Instr :=
  match codeOfTableWord nbits w with
  | none => none
  | some code =>
    match decode Config.default code with
    | .ok i => some i
    | .reject _ => none

end Sys2Proof
end

