-- ==== Sys2Proof/Machine/State.lean ====
section
/-! DEFINITION. The machine's state (spec/10_state.md R30 to R57), plain data: the two controller-state registers, the
mailbox, the two surrounding agents with their place in the cycle, one peripheral per agent, the operation port,
and the queue of what the outside world does next. Also the reasons a step can stop, and reset
(spec/70_reset_and_hazards.md R255 to R260). -/

namespace Sys2Proof.Machine

/-! ## The operation port (R30, R31; 30_encoding.md R109, R110) -/

/-- Status codes (30_encoding.md R110). Code 7 is reserved and never returned, so it has no constructor. -/
inductive Status where
  | ok
  | changed
  | unchanged
  | malformed
  | capacity
  | timeout
  | illegalOp
  deriving DecidableEq, Repr

/-- The value an operation returns beside its status (30_encoding.md R109). -/
inductive Value where
  | none
  | bit (b : Bool)
  | symbol (s : Symbol)
  | symbols (t : List Symbol)
  | decoded (bits : List Bool) (bytes : List Byte)
  | byte (b : Byte)
  | word (w : Word)
  | flag (b : Bool)
  | axis (v : Int)
  | bytes (b : List Byte)
  | packet (p : Packet)
  deriving DecidableEq, Repr

/-- The operands that travel beside a request word (30_encoding.md R108, R109). A buffer is a list whose length is its
`count` (20_memory.md R66). -/
structure Operands where
  bit    : Bool
  sym    : Symbol
  bytes  : List Byte
  cap    : Nat
  syms   : List Symbol
  word   : Word
  packet : Packet
  deriving DecidableEq, Repr

/-- What the port answers: nothing yet, a take that is held (R55), or the status and value of the last operation. -/
inductive PortOut where
  | idle
  | held
  | done (st : Status) (v : Value)
  deriving DecidableEq, Repr

/-! ## The mailbox (R37 to R40) -/

/-- `MBX`: the slot, the ever-published flag, one freshness flag per consumer. -/
structure Mailbox where
  slot  : Packet
  full  : Bool
  fresh : List Bool
  deriving DecidableEq, Repr

/-- A take that waits for the first publish (R55; 43_mailbox.md R175, R176). -/
structure HeldTake where
  consumer : BitVec 4
  tmo      : Timeout
  deriving DecidableEq, Repr

/-! ## The peripheral (44_sequencers.md R190 to R196; R45, R52 to R54) -/

/-- Which role a peripheral or an agent belongs to (00_scope.md R29): the Poll Scheduler's, or the Command Responder's. -/
inductive Role where
  | host
  | device
  deriving DecidableEq, Repr

/-- Who issues a request: one of the two modelled agents, or a further consumer by the `c` it puts in its requests (60_exceptions.md
R246, R252). The block does not see it; only the mark of R229 uses it (notes/assumptions/11.md). -/
inductive Issuer where
  | agent (who : Role)
  | consumer (c : BitVec 4)
  deriving DecidableEq, Repr

/-- One pulse peripheral. Each running agent has its own (70_reset_and_hazards.md R277). -/
structure Peripheral where
  /-- `RXEN` (R45). -/
  rxen       : Bool
  /-- The capture in progress, "at most one" (R54). -/
  inProgress : Option (List Symbol)
  /-- Finished captures not yet received (R54). -/
  pending    : List (List Symbol)
  /-- Captures lent to the agent and not yet released (R52). -/
  lent       : List (List Symbol)
  /-- The symbols still to be sent (R53). -/
  tx         : List Symbol
  /-- The frame being put on the line. -/
  line       : List Symbol
  /-- The frames put on the line, oldest first: the block's output. -/
  sent       : List (List Symbol)
  deriving DecidableEq, Repr

/-! ## The agents (R46 to R49; 44_sequencers.md R198 to R217) -/

/-- The phase of an agent (R46, R47). -/
inductive Phase where
  | init
  | running
  | aborted
  deriving DecidableEq, Repr

/-- The Poll Scheduler's place in its cycle, with the values it carries (R49; 44_sequencers.md R200). -/
inductive PollPos where
  /-- Step 1: `T <- ENC_BUF([01], 10)`. -/
  | encode
  /-- Step 1: `transmit(T, wait=false)`. -/
  | transmit (t : List Symbol)
  /-- Step 2: `receive(BOUNDED)`. -/
  | receive
  /-- Step 3: the length gate and `CONN`. -/
  | gate (cap : Option (List Symbol))
  /-- Step 3: `PARSE_POLL(0, ...)`. -/
  | parse (cap : List Symbol)
  /-- Step 4: `CS_RD_WORD(0)`. -/
  | readWord (cap : List Symbol)
  /-- Step 4: `MBX_PUBLISH((w, now))`. -/
  | publish (cap : List Symbol) (w : Word)
  /-- Step 5: `release`. -/
  | release (cap : Option (List Symbol))
  /-- Step 6: the overrun test. -/
  | periodCheck
  /-- Step 6: the resynchronisation after an overrun. -/
  | resync
  /-- Step 6: the suspension until the period boundary. -/
  | periodWait
  deriving DecidableEq, Repr

/-- The Command Responder's place in its cycle, with the values it carries (R49; 44_sequencers.md R210). -/
inductive RespPos where
  /-- Step 1: `receive(FOREVER)`. -/
  | receive
  /-- Step 2: `PARSE_CMD`. -/
  | parse (cap : List Symbol)
  /-- Step 2: `release`, with the parsed command or none on `MALFORMED`. -/
  | release (cap : List Symbol) (cmd : Option Byte)
  /-- Step 3: `MBX_TAKE(0, ZERO)`. -/
  | peek (cmd : Byte)
  /-- Step 3: `CS_LD_WORD(1, p.state)`. -/
  | load (cmd : Byte) (w : Word)
  /-- Step 4: the dispatch on the command byte. -/
  | dispatch (cmd : Byte)
  /-- Step 4, `POLL`: `T <- ENC_BUF(b, 34)`, with the bytes `b` that `CS_RD_BYTES(1)` returned. -/
  | encode (b : List Byte)
  /-- Step 5: `stop_capture()`. -/
  | stopCapture (t : List Symbol)
  /-- Step 5: `transmit(T, wait=true)`. -/
  | transmit (t : List Symbol)
  /-- Step 5: the transmit has not yet returned. -/
  | awaitSent
  /-- Step 5: `start_capture()`. -/
  | startCapture
  deriving DecidableEq, Repr

/-! ## What the outside world does -/

/-- The environment's choice in a `receive` (44_sequencers.md R194): which finished capture, giving up, or waiting on. -/
inductive RecvDraw where
  | capture (k : Nat)
  | giveUp
  | wait
  deriving DecidableEq, Repr

/-- One entry of the total order of everything that happens (20_memory.md R72), with the environment's draws. -/
inductive Event where
  /-- Any agent presents a request word and its operands (60_exceptions.md R246). -/
  | request (who : Issuer) (w : ReqWord) (ops : Operands)
  /-- The `k`-th held take is looked at again, its bound expired or not (43_mailbox.md R175, R176). -/
  | wake (k : Nat) (expired : Bool)
  /-- `run_poll_scheduler` is called; whether the peripheral's configuration succeeds (44_sequencers.md R197, R199). -/
  | startPoll (configured : Bool) (now : Nat)
  /-- `run_command_responder` is called (44_sequencers.md R197, R209). -/
  | startResp (configured : Bool)
  /-- The Poll Scheduler's turn, with the draws `now` (R196) and `receive` (R194). -/
  | pollTick (now : Nat) (draw : RecvDraw)
  /-- The Command Responder's turn, with the draw of `receive` (R194). -/
  | respTick (draw : RecvDraw)
  /-- A peripheral sends the next symbol of its transmission (44_sequencers.md R191). -/
  | txTick (who : Role)
  /-- Symbols appear on a line, whoever drives it, as the peripheral would measure them (R192, R193). -/
  | activity (who : Role) (s : List Symbol)
  /-- A line has been idle past the threshold: the capture in progress ends (R194). -/
  | lineIdle (who : Role)
  deriving DecidableEq, Repr

/-! ## The state -/

/-- The machine. `cfg` never changes (R56). `port`, `out`, `txSel`, `posP`, `posR` and `inbox` are the model's own: the
operation port (R30), the transmitter whose symbol is being sent, the agents' places (R49), and the inputs. -/
structure State where
  /-- The parameters (00_scope.md R5 to R20). -/
  cfg    : Config
  /-- `CS[0]` (R32). -/
  cs0    : Word
  /-- `CS[1]` (R32). -/
  cs1    : Word
  /-- `MBX` (R37 to R39). -/
  mbx    : Mailbox
  /-- `CONN` (R44). -/
  conn   : Bool
  /-- The Poll Scheduler's peripheral, its `RXEN` among it (R45). -/
  perH   : Peripheral
  /-- The Command Responder's peripheral, its `RXEN` among it (R45). -/
  perD   : Peripheral
  /-- `phase_P` (R46). -/
  phaseP : Phase
  /-- `phase_R` (R47). -/
  phaseR : Phase
  /-- `ANCHOR` (R48). -/
  anchor : Nat
  /-- The Poll Scheduler's place in its cycle (R49). -/
  posP   : PollPos
  /-- The Command Responder's place in its cycle (R49). -/
  posR   : RespPos
  /-- The held takes, oldest first (R55). -/
  held   : List HeldTake
  /-- The agents marked faulted, in the order they were (60_exceptions.md R229; 93_implementation_defined.md U6; notes/assumptions/11.md). -/
  faulted : List Issuer
  /-- The operands of the last request. -/
  port   : Operands
  /-- What the port answers. -/
  out    : PortOut
  /-- The peripheral whose transmitter the current symbol belongs to. -/
  txSel  : Role
  /-- What happens next, in order. -/
  inbox  : List Event
  deriving DecidableEq, Repr

/-! ## Why a step stops -/

/-- The reasons the machine stops with a fault. -/
inductive Fault where
  /-- One of the two modelled agents received `CAPACITY` from `ENC_BUF`, which the design calls a bug (60_exceptions.md R229;
  93_implementation_defined.md U6: `fault`). Raised by the Poll Scheduler's step 1 and by the encoding of the wire
  commands' replies, whose capacities always suffice. Safe: the spec itself marks the agent faulted. -/
  | capacityBug (who : Role)
  deriving DecidableEq, Repr

/-- The reasons the model refuses a step. -/
inductive Refusal where
  /-- An instruction that has no meaning yet, by its mnemonic. No arm of this model raises it. Safe. -/
  | notModelled (mnemonic : String)
  /-- `transmit` was given a buffer that does not end in STOP, END (93_implementation_defined.md U19: `refuse`; 44_sequencers.md R191).
  Raised by the agents' transmit steps in states no run reaches. Safe: the spec gives such a transmit no effect. -/
  | unterminatedTransmit (who : Role)
  deriving DecidableEq, Repr

/-- The outcome of a step of this machine. -/
abbrev Result := Host.Outcome State Fault Refusal

/-! ## Reset (70_reset_and_hazards.md R255 to R260) -/

/-- The operands on an unused port: all zero (notes/assumptions/4.md). -/
def Operands.zero : Operands :=
  { bit := false, sym := { d0 := 0, l0 := .low, d1 := 0, l1 := .low }, bytes := [], cap := 0, syms := [], word := 0,
    packet := { state := 0, ts := 0 } }

/-- A peripheral at reset: capture off, "no transmit is in flight, no capture is lent" (R258). That no capture is in progress
and none is finished is the model's choice: no rule gives them a value at reset (R54; notes/assumptions/29.md). -/
def Peripheral.reset : Peripheral :=
  { rxen := false, inProgress := none, pending := [], lent := [], tx := [], line := [], sent := [] }

/-- The machine right after reset, under a configuration: `CS[0] = CS[1] = 0` (R256), the mailbox empty (R257), the agents
in INIT (R258). `MBX.slot` and `ANCHOR` are unspecified there and zero here (notes/assumptions/3.md). No rule gives the agents a
place in their cycles before RUNNING; that both stand at the start is the model's choice (notes/assumptions/31.md). -/
def State.ofConfig (c : Config) : State :=
  { cfg := c, cs0 := 0, cs1 := 0,
    mbx := { slot := { state := 0, ts := 0 }, full := false, fresh := List.replicate c.ncons false },
    conn := false, perH := Peripheral.reset, perD := Peripheral.reset, phaseP := .init, phaseR := .init, anchor := 0,
    posP := .encode, posR := .receive, held := [], faulted := [], port := Operands.zero, out := .idle, txSel := .host, inbox := [] }

/-- Reset under a configuration, refused where WF1 or another constraint fails (93_implementation_defined.md U16). -/
def State.ofConfig? (c : Config) : Option State :=
  if c.wf then some (State.ofConfig c) else none

/-- Reset at the default configuration. -/
def State.reset : State :=
  State.ofConfig Config.default

end Sys2Proof.Machine
end

