-- ==== Sys2Proof/Machine/Operands.lean ====
section
/-! DEFINITION. Operand assembly: bits of a byte and bytes of bits (spec/20_memory.md R60 to R63), fields of a captured
buffer (spec/30_encoding.md R105 to R107), and the byte and field views of a controller-state word
(spec/10_state.md R33 to R35). -/

namespace Sys2Proof.Machine

/-! ## The protocol constants (00_scope.md R13) -/

def cmdMin : Nat := 8
def stateMin : Nat := 32
def hdrSkip : Nat := 9

/-! ## Widths (00_scope.md R10, R16) -/

/-- A symbol's durations as the `DUR_W`-bit counts they are (30_encoding.md R85; notes/assumptions/14.md). -/
def cutSymbol (c : Config) (s : Symbol) : Symbol :=
  { s with d0 := s.d0 % 2 ^ c.durW, d1 := s.d1 % 2 ^ c.durW }

/-- A drawn time in `TS_W` bits (44_sequencers.md R196; notes/assumptions/14.md). -/
def timestamp (c : Config) (now : Nat) : Nat :=
  now % 2 ^ c.tsW

/-- A packet's timestamp as the `TS_W`-bit number it is (30_encoding.md R101). -/
def cutPacket (c : Config) (p : Packet) : Packet :=
  { p with ts := timestamp c p.ts }

/-- The operands a request brings, each in its width (30_encoding.md R85, R101; notes/assumptions/14.md). -/
def cutOperands (c : Config) (ops : Operands) : Operands :=
  { ops with sym := cutSymbol c ops.sym, syms := ops.syms.map (cutSymbol c), packet := cutPacket c ops.packet }

/-! ## The Poll Scheduler's times (44_sequencers.md R206) -/

/-- `now - ANCHOR`; where `now` is below `ANCHOR` a free value (notes/assumptions/14.md). -/
def elapsed (now anchor : Nat) : Nat :=
  if anchor ≤ now then now - anchor else Config.freeElapsed now anchor

/-- `ANCHOR + PERIOD`; where the sum does not fit `TS_W` bits a free value of that width (notes/assumptions/14.md). -/
def deadline (c : Config) (anchor : Nat) : Nat :=
  if anchor + c.period < 2 ^ c.tsW then anchor + c.period else timestamp c (Config.freeDeadline anchor c.period)

/-! ## Bits and bytes -/

/-- The eight bits of a byte, most significant first (20_memory.md R60). -/
def bitsOfByte (b : Byte) : List Bool :=
  [b.getLsbD 7, b.getLsbD 6, b.getLsbD 5, b.getLsbD 4, b.getLsbD 3, b.getLsbD 2, b.getLsbD 1, b.getLsbD 0]

/-- A byte shifted in most significant bit first: of eight bits the first is bit 7 (20_memory.md R60). -/
def byteOfBits (bits : List Bool) : Byte :=
  bits.foldl BitVec.shiftConcat 0

/-- The complete groups of eight bits, as bytes in order; leftover bits belong to no byte (40_codec.md R129, R130). -/
def bytesOfBits (bits : List Bool) : List Byte :=
  (List.range (bits.length / 8)).map fun j => byteOfBits ((bits.drop (8 * j)).take 8)

/-! ## Symbols -/

/-- The symbol of one bit (40_codec.md R121). -/
def symbolOfBit (c : Config) (v : Bool) : Symbol :=
  if v then oneSymbol c else zeroSymbol c

/-- The bit a captured symbol stands for: below the threshold 1, at or above it 0; only `d0` is read (40_codec.md R127). -/
def classifyBit (c : Config) (s : Symbol) : Bool :=
  decide (s.d0 < c.thresh)

/-- `byte_at(S, k)` (30_encoding.md R105). -/
def byteAt (c : Config) (syms : List Symbol) (k : Nat) : Byte :=
  byteOfBits (((syms.drop k).take 8).map (classifyBit c))

/-- `word_at(S, k)` (30_encoding.md R107). -/
def wordAt (c : Config) (syms : List Symbol) (k : Nat) : Word :=
  byteAt c syms k ++ byteAt c syms (k + 8) ++ byteAt c syms (k + 16) ++ byteAt c syms (k + 24)

/-- The data symbols of a byte buffer, in buffer order, each byte most significant bit first (40_codec.md R123). -/
def dataSymbols (c : Config) (bytes : List Byte) : List Symbol :=
  bytes.flatMap fun b => (bitsOfByte b).map (symbolOfBit c)

/-- The transmit buffer of a byte buffer: data, STOP, END (40_codec.md R123; 30_encoding.md R91). -/
def encodedBuffer (c : Config) (bytes : List Byte) : List Symbol :=
  dataSymbols c bytes ++ [stopSymbol c, endSymbol]

/-- `loop_K(s)`: a symbol as an ideal capture would hold it (40_codec.md R131). Not an operation of the block. -/
def loopSymbol (k : Nat) (s : Symbol) : Symbol :=
  { s with d0 := s.d0 * k, d1 := s.d1 * k }

/-- `loop_K(T)` (40_codec.md R131). -/
def loopBuffer (k : Nat) (t : List Symbol) : List Symbol :=
  t.map (loopSymbol k)

/-! ## The views of a controller-state word -/

/-- The byte view `b0, b1, b2, b3`: the big-endian reading (10_state.md R35). -/
def wordBytes (w : Word) : List Byte :=
  [w.extractLsb' 24 8, w.extractLsb' 16 8, w.extractLsb' 8 8, w.extractLsb' 0 8]

/-- The flag of field number `f <= 15`: word bit `31 - f` (10_state.md R34). -/
def wordFlag (w : Word) (f : Nat) : Bool :=
  w.getLsbD (31 - f)

/-- `AXIS_X`, signed (10_state.md R34; 00_scope.md R24). -/
def wordAxisX (w : Word) : Int :=
  (w.extractLsb' 8 8).toInt

/-- `AXIS_Y`, signed (10_state.md R34; 00_scope.md R24). -/
def wordAxisY (w : Word) : Int :=
  (w.extractLsb' 0 8).toInt

/-- The value of field `f` (42_state_register.md R158): a flag up to 15, `AXIS_X` at 16, `AXIS_Y` at 17, nothing above. -/
def wordField (w : Word) (f : BitVec 5) : Option Value :=
  if f.toNat ≤ 15 then some (.flag (wordFlag w f.toNat))
  else if f.toNat = 16 then some (.axis (wordAxisX w))
  else if f.toNat = 17 then some (.axis (wordAxisY w))
  else none

end Sys2Proof.Machine
end

