-- ==== Sys2Proof/Machine/Flags.lean ====
section
/-! DEFINITION. What stands in for flags (spec/10_state.md R41: there is no condition-code register): the status codes, the
change detector's verdict, and the tests a take makes on `MBX.full` and `MBX.fresh[c]`. -/

namespace Sys2Proof.Machine

/-- The three-bit code of a status (30_encoding.md R110). -/
def Status.code : Status → BitVec 3
  | .ok => 0
  | .changed => 1
  | .unchanged => 2
  | .malformed => 3
  | .capacity => 4
  | .timeout => 5
  | .illegalOp => 6

/-- The change detector: exact whole-word comparison (41_framer.md R146). -/
def changeStatus (old new : Word) : Status :=
  if new = old then .unchanged else .changed

/-- `MBX.fresh[c]` (10_state.md R39). -/
def Mailbox.freshOf (m : Mailbox) (k : BitVec 4) : Bool :=
  m.fresh.getD k.toNat false

/-- What a take meets when it is issued. -/
inductive TakeCase where
  /-- It completes at once. -/
  | now
  /-- It raises `TIMEOUT`. -/
  | timeout
  /-- It is held. -/
  | hold
  deriving DecidableEq, Repr

/-- `ZERO` asks for freshness and never waits (43_mailbox.md R174); `BOUNDED` and `FOREVER` ask only that something was ever
published, and wait otherwise (R175, R176, R177). -/
def Mailbox.takeCase (m : Mailbox) (tmo : Timeout) (k : BitVec 4) : TakeCase :=
  match tmo with
  | .zero => if m.freshOf k then .now else .timeout
  | .bounded => if m.full then .now else .hold
  | .forever => if m.full then .now else .hold

/-- What a held take meets when it is looked at again: the first publish lifts it; a bounded one may expire before
(43_mailbox.md R175, R176). -/
def Mailbox.wakeCase (m : Mailbox) (tmo : Timeout) (expired : Bool) : TakeCase :=
  match tmo with
  | .forever => if m.full then .now else .hold
  | _ => if m.full then .now else if expired then .timeout else .hold

end Sys2Proof.Machine
end

