-- ==== Sys2Proof/Machine/Ops.lean ====
section
/-! DEFINITION. The named operations over the state: returning a result and raising an error (spec/00_scope.md R27,
spec/60_exceptions.md R241), the controller-state registers, the mailbox, the peripheral's primitives
(spec/44_sequencers.md R190 to R196), and issuing one operation from an agent. -/

namespace Sys2Proof.Machine

/-! ## Ending an operation -/

/-- `return v` with its status (00_scope.md R27): the port answers, nothing else changes. -/
def State.respond (s : State) (st : Status) (v : Value) : State :=
  { s with out := .done st v }

/-- `raise X`: in place of an exception's entry, the status goes back to the issuer and "the state of the block is exactly
what it was before" (60_exceptions.md R241). There is nothing to return from (R244). -/
def raise (st : Status) (s : State) : Result :=
  .next (s.respond st .none)

/-! ## The mark of a faulted agent -/

/-- "the model marks that agent faulted" (60_exceptions.md R229): a mark, set once. It is no stop: 93_implementation_defined.md tells
`fault` from `stuck`. -/
def State.markFaulted (s : State) (who : Issuer) : State :=
  if who ∈ s.faulted then s else { s with faulted := s.faulted ++ [who] }

/-- An issuer receives the answer on the port: with `CAPACITY` it is marked faulted (60_exceptions.md R229). -/
def State.received (s : State) (who : Issuer) : State :=
  if s.out = .done .capacity .none then s.markFaulted who else s

/-! ## The controller-state registers -/

/-- `CS[r]` (10_state.md R32). -/
def State.getCs (s : State) : CsId → Word
  | .cs0 => s.cs0
  | .cs1 => s.cs1

/-- `CS[r] <- w` (00_scope.md R25). -/
def State.setCs (s : State) (r : CsId) (w : Word) : State :=
  match r with
  | .cs0 => { s with cs0 := w }
  | .cs1 => { s with cs1 := w }

/-! ## The mailbox -/

/-- The atomic replace of `MBX_PUBLISH` (43_mailbox.md R171). -/
def Mailbox.published (m : Mailbox) (ncons : Nat) (p : Packet) : Mailbox :=
  { m with slot := p, full := true, fresh := List.replicate ncons true }

/-- `fresh[c] <- 0`, all a successful take writes (43_mailbox.md R173). -/
def Mailbox.taken (m : Mailbox) (k : BitVec 4) : Mailbox :=
  { m with fresh := m.fresh.set k.toNat false }

/-- `complete_take(c)` (43_mailbox.md R173). -/
def completeTake (k : BitVec 4) (s : State) : State :=
  { s with mbx := s.mbx.taken k, out := .done .ok (.packet s.mbx.slot) }

/-! ## The peripheral -/

/-- An agent's own peripheral (70_reset_and_hazards.md R277). -/
def State.getPer (s : State) : Role → Peripheral
  | .host => s.perH
  | .device => s.perD

/-- The state with an agent's peripheral replaced. -/
def State.setPer (s : State) (who : Role) (p : Peripheral) : State :=
  match who with
  | .host => { s with perH := p }
  | .device => { s with perD := p }

/-- `start_capture()` (44_sequencers.md R192). -/
def Peripheral.startCapture (p : Peripheral) : Peripheral :=
  { p with rxen := true }

/-- `stop_capture()` (44_sequencers.md R193). -/
def Peripheral.stopCapture (p : Peripheral) : Peripheral :=
  { p with rxen := false }

/-- Activity on the line: it adds to the capture in progress while `RXEN = 1` (44_sequencers.md R192) and "produces no capture"
while `RXEN = 0` (R193). That the rest of a burst which began while `RXEN = 0` is captured from the start of capture on is the
model's choice (notes/assumptions/17.md). -/
def Peripheral.activity (p : Peripheral) (syms : List Symbol) : Peripheral :=
  if p.rxen then { p with inProgress := some (p.inProgress.getD [] ++ syms) } else p

/-- "a capture 'ends' when the line is idle past a configured threshold, yielding one buffer per burst of activity"
(44_sequencers.md R194; 10_state.md R54). A burst that ends while `RXEN = 0` becomes no pending capture (60_exceptions.md R238;
notes/assumptions/17.md). -/
def Peripheral.lineIdle (p : Peripheral) : Peripheral :=
  match p.inProgress with
  | some cap => if p.rxen then { p with inProgress := none, pending := p.pending ++ [cap] } else { p with inProgress := none }
  | none => p

/-- What a `receive` comes to. -/
inductive Received where
  | got (cap : List Symbol) (p : Peripheral)
  | nothing
  | hold
  deriving DecidableEq, Repr

/-- What a `receive` that draws no capture comes to: `none` is never returned with `FOREVER`, and `ZERO` never holds
(44_sequencers.md R194). -/
def noCapture (tmo : Timeout) (giveUp : Bool) : Received :=
  match tmo with
  | .zero => .nothing
  | .bounded => if giveUp then .nothing else .hold
  | .forever => .hold

/-- `receive(tmo)` with the environment's draw (44_sequencers.md R194): a finished capture is removed from the pending ones
and lent. -/
def Peripheral.receive (p : Peripheral) (tmo : Timeout) : RecvDraw → Received
  | .capture k =>
    match p.pending[k]? with
    | some cap => .got cap { p with pending := p.pending.eraseIdx k, lent := p.lent ++ [cap] }
    | none => noCapture tmo false
  | .giveUp => noCapture tmo true
  | .wait => noCapture tmo false

/-- `release(S)` (44_sequencers.md R195). -/
def Peripheral.release (p : Peripheral) (cap : List Symbol) : Peripheral :=
  { p with lent := p.lent.erase cap }

/-- `transmit(T, wait)` begins: the symbols are queued to be sent in index order (44_sequencers.md R191). -/
def Peripheral.queue (p : Peripheral) (t : List Symbol) : Peripheral :=
  { p with tx := p.tx ++ t }

/-- A symbol is put on the line (44_sequencers.md R191). -/
def Peripheral.putOnLine (p : Peripheral) (s : Symbol) : Peripheral :=
  { p with line := p.line ++ [s] }

/-- END tells the transmitter where the sequence ends and puts no pulse on the line (30_encoding.md R90): the frame is
complete. -/
def Peripheral.endFrame (p : Peripheral) : Peripheral :=
  { p with line := [], sent := p.sent ++ [p.line] }

/-- A buffer that `transmit` accepts ends in STOP, END (44_sequencers.md R191). -/
def endsInStopEnd (c : Config) (t : List Symbol) : Bool :=
  decide ([stopSymbol c, endSymbol] <:+ t)

/-- `transmit(T, wait)` by an agent; a buffer that does not end in STOP, END is refused (93_implementation_defined.md U19). -/
def transmit (who : Role) (t : List Symbol) (s : State) : Result :=
  if endsInStopEnd s.cfg t then .next (s.setPer who ((s.getPer who).queue t)) else .refused (.unterminatedTransmit who)

/-- Putting one symbol on the line of the selected transmitter. -/
def emit (sym : Symbol) (s : State) : State :=
  s.setPer s.txSel ((s.getPer s.txSel).putOnLine sym)

/-- Ending the frame of the selected transmitter. -/
def emitEnd (s : State) : State :=
  s.setPer s.txSel ((s.getPer s.txSel).endFrame)

/-! ## Issuing an operation -/

/-- A result carried on: an agent that issues an operation goes on with the status and value it gets back
(20_memory.md R79); a stop stops. -/
def andThen (r : Result) (k : PortOut → State → Result) : Result :=
  match r with
  | .next s => k s.out s
  | .fault f => .fault f
  | .refused f => .refused f

end Sys2Proof.Machine
end

