-- ==== Sys2Proof/Machine/Codec.lean ====
section
/-! DEFINITION. The Pulse Codec (spec/40_codec.md): pure functions of the operands on the port and of the configuration
(R120). -/

namespace Sys2Proof.Machine

/-- `ENC_BIT(value)` (40_codec.md R121). -/
def execEncBit (s : State) : Result :=
  .next (s.respond .ok (.symbol (symbolOfBit s.cfg s.port.bit)))

/-- `ENC_BUF(B, cap)` (40_codec.md R123): `CAPACITY` when `cap < 8n + 2` (R124), with zero symbols written. -/
def execEncBuf (s : State) : Result :=
  if s.port.cap < 8 * s.port.bytes.length + 2 then raise .capacity s
  else .next (s.respond .ok (.symbols (encodedBuffer s.cfg s.port.bytes)))

/-- `CLASSIFY(s)` (40_codec.md R127). -/
def execClassify (s : State) : Result :=
  .next (s.respond .ok (.bit (classifyBit s.cfg s.port.sym)))

/-- `DEC_BITS(S, count)` (40_codec.md R129): every symbol of the buffer is classified, the framing too. -/
def execDecBits (s : State) : Result :=
  .next (s.respond .ok (.decoded (s.port.syms.map (classifyBit s.cfg)) (bytesOfBits (s.port.syms.map (classifyBit s.cfg)))))

end Sys2Proof.Machine
end

