-- ==== Sys2Proof/Machine/Framer.lean ====
section
/-! DEFINITION. The Packet Framer (spec/41_framer.md): fields found by position, through `CLASSIFY` only (R140). -/

namespace Sys2Proof.Machine

/-- `PARSE_CMD(S, count)` (41_framer.md R141). -/
def execParseCmd (s : State) : Result :=
  if s.port.syms.length < cmdMin then raise .malformed s
  else .next (s.respond .ok (.byte (byteAt s.cfg s.port.syms 0)))

/-- `PARSE_STATE(r, S, count)` (41_framer.md R144): decoding fused with change detection (R146); too few symbols write
nothing (R145). -/
def execParseState (r : CsId) (s : State) : Result :=
  if s.port.syms.length < stateMin then raise .malformed s
  else
    let new := wordAt s.cfg s.port.syms 0
    .next ((s.setCs r new).respond (changeStatus (s.getCs r) new) .none)

/-- The pseudo-operation `PARSE_POLL(r, S, count)` (41_framer.md R149): the length gate, the skip of the nine echoed symbols,
then `PARSE_STATE`. It has no request word (30_encoding.md R116). -/
def parsePoll (r : CsId) (cap : List Symbol) (s : State) : Result :=
  if cap.length < s.cfg.pollMin then raise .malformed s
  else execParseState r { s with port := { s.port with syms := cap.drop hdrSkip } }

end Sys2Proof.Machine
end

