-- ==== Sys2Proof/Machine/MailboxUnit.lean ====
section
/-! DEFINITION. The Mailbox operations (spec/43_mailbox.md R170 to R182). -/

namespace Sys2Proof.Machine

/-- `MBX_PUBLISH(p)`: "overwrites the slot unconditionally; never blocks; never fails" (43_mailbox.md R171). -/
def execMbxPublish (s : State) : Result :=
  .next ({ s with mbx := s.mbx.published s.cfg.ncons s.port.packet }.respond .ok .none)

/-- `MBX_TAKE(c, tmo)` (43_mailbox.md R173 to R176): completes, raises `TIMEOUT`, or is held (10_state.md R55). A consumer not below
`NCONS` is an illegal request word (30_encoding.md R111). That a further take with the `c` of one still held runs like any other
is the model's choice (notes/assumptions/32.md). -/
def execMbxTake (tmo : Timeout) (k : BitVec 4) (s : State) : Result :=
  if k.toNat < s.cfg.ncons then
    match s.mbx.takeCase tmo k with
    | .now => .next (completeTake k s)
    | .timeout => raise .timeout s
    | .hold => .next { s with held := s.held ++ [{ consumer := k, tmo := tmo }], out := .held }
  else raise .illegalOp s

/-- The `n`-th held take is looked at again (43_mailbox.md R175, R176): it completes once `MBX.full = 1`; a bounded one may
expire while `MBX.full = 0`; otherwise it is held on. -/
def wakeTake (n : Nat) (expired : Bool) (s : State) : Result :=
  match s.held[n]? with
  | none => .next s
  | some h =>
    match s.mbx.wakeCase h.tmo expired with
    | .now => .next (completeTake h.consumer { s with held := s.held.eraseIdx n })
    | .timeout => raise .timeout { s with held := s.held.eraseIdx n }
    | .hold => .next s

end Sys2Proof.Machine
end

