-- ==== Sys2Proof/Machine/StateRegister.lean ====
section
/-! DEFINITION. The controller-state register operations (spec/42_state_register.md R155 to R162): three reads and one word
write over one 32-bit storage. -/

namespace Sys2Proof.Machine

/-- `CS_RD_WORD(r)` (42_state_register.md R156). -/
def execCsRdWord (r : CsId) (s : State) : Result :=
  .next (s.respond .ok (.word (s.getCs r)))

/-- `CS_RD_FIELD(r, f)` (42_state_register.md R158); `f > 17` is an illegal request word (30_encoding.md R111). -/
def execCsRdField (r : CsId) (f : BitVec 5) (s : State) : Result :=
  match wordField (s.getCs r) f with
  | some v => .next (s.respond .ok v)
  | none => raise .illegalOp s

/-- `CS_RD_BYTES(r)` (42_state_register.md R159). -/
def execCsRdBytes (r : CsId) (s : State) : Result :=
  .next (s.respond .ok (.bytes (wordBytes (s.getCs r))))

/-- `CS_LD_WORD(r, w)` (42_state_register.md R160). -/
def execCsLdWord (r : CsId) (s : State) : Result :=
  .next ((s.setCs r s.port.word).respond .ok .none)

end Sys2Proof.Machine
end

