-- ==== Sys2Proof/Machine/Symbols.lean ====
section
/-! DEFINITION. The canonical symbols as the transmitter meets them (spec/44_sequencers.md R191: "puts the symbols before END
on the line in index order"; spec/30_encoding.md R87 to R90). -/

namespace Sys2Proof.Machine

/-- ZERO goes on the line (30_encoding.md R87). -/
def execSymZero (s : State) : Result :=
  .next (emit (zeroSymbol s.cfg) s)

/-- ONE goes on the line (30_encoding.md R88). -/
def execSymOne (s : State) : Result :=
  .next (emit (oneSymbol s.cfg) s)

/-- STOP goes on the line and closes the frame's pulses (30_encoding.md R89, R93). -/
def execSymStop (s : State) : Result :=
  .next (emit (stopSymbol s.cfg) s)

/-- END "puts no pulse on the line" and ends the sequence (30_encoding.md R90). -/
def execSymEnd (s : State) : Result :=
  .next (emitEnd s)

end Sys2Proof.Machine
end

