-- ==== Sys2Proof/Machine/WireCommands.lean ====
section
/-! DEFINITION. The wire commands (spec/44_sequencers.md R213 to R217): what the Command Responder's dispatch does for
`STATUS` and `POLL`. `STATUS` builds its reply buffer `T` at once; `POLL` reads the register's bytes, and the responder's next turn
encodes them, so that an operation of another agent may fall between the two (spec/20_memory.md R72). Step 5 of the
responder's cycle then sends `T`. -/

namespace Sys2Proof.Machine

/-- `T <- ENC_BUF(bytes, cap)` in step 4: the responder goes on to step 5 with `T` (44_sequencers.md R210). An agent
that receives `CAPACITY` has met a bug (60_exceptions.md R229). -/
def buildReply (bytes : List Byte) (cap : Nat) (s : State) : Result :=
  andThen (execEncBuf { s with port := { s.port with bytes := bytes, cap := cap } }) fun out t =>
    match out with
    | .done .ok (.symbols reply) => .next { t with posR := .stopCapture reply }
    | _ => .fault (.capacityBug .device)

/-- The bytes of `ID_REPLY` (00_scope.md R15). -/
def idBytes (c : Config) : List Byte :=
  [c.idReply.b0, c.idReply.b1, c.idReply.b2]

/-- `STATUS`: `T <- ENC_BUF(ID_REPLY, 26)` (44_sequencers.md R214). -/
def execStatus (s : State) : Result :=
  buildReply (idBytes s.cfg) 26 s

/-- `POLL`, `T <- ENC_BUF(CS_RD_BYTES(1), 34)` (44_sequencers.md R215), its first operation: `CS_RD_BYTES(1)`. The responder goes on to
encode the bytes it got. -/
def execPoll (s : State) : Result :=
  andThen (execCsRdBytes .cs1 s) fun out t =>
    match out with
    | .done .ok (.bytes b) => .next { t with posR := .encode b }
    | _ => .next { t with posR := .receive }

/-- `POLL`'s second operation: `T <- ENC_BUF(b, 34)` (44_sequencers.md R215). -/
def encodePollReply (b : List Byte) (s : State) : Result :=
  buildReply b 34 s

end Sys2Proof.Machine
end

