-- ==== Sys2Proof/Machine/Dispatch.lean ====
section
/-! DEFINITION. One arm per instruction. -/

namespace Sys2Proof.Machine

/-- What an instruction does. -/
def exec (i : Instr) (s : State) : Host.Outcome State Fault Refusal :=
  match i with
  | .encBit => Sys2Proof.Machine.execEncBit s
  | .encBuf => Sys2Proof.Machine.execEncBuf s
  | .classify => Sys2Proof.Machine.execClassify s
  | .decBits => Sys2Proof.Machine.execDecBits s
  | .parseCmd => Sys2Proof.Machine.execParseCmd s
  | .parseState r => Sys2Proof.Machine.execParseState r s
  | .csRdWord r => Sys2Proof.Machine.execCsRdWord r s
  | .csRdField r f => Sys2Proof.Machine.execCsRdField r f s
  | .csRdBytes r => Sys2Proof.Machine.execCsRdBytes r s
  | .csLdWord r => Sys2Proof.Machine.execCsLdWord r s
  | .mbxPublish => Sys2Proof.Machine.execMbxPublish s
  | .mbxTake tmo k => Sys2Proof.Machine.execMbxTake tmo k s
  | .status => Sys2Proof.Machine.execStatus s
  | .poll => Sys2Proof.Machine.execPoll s
  | .symZero => Sys2Proof.Machine.execSymZero s
  | .symOne => Sys2Proof.Machine.execSymOne s
  | .symStop => Sys2Proof.Machine.execSymStop s
  | .symEnd => Sys2Proof.Machine.execSymEnd s

end Sys2Proof.Machine
end

