-- ==== Sys2Proof/Machine/CommandResponder.lean ====
section
/-! DEFINITION. The Command Responder (spec/44_sequencers.md R208 to R218), the device role's agent: INIT, and one cycle cut
into its operations and primitives. Its dispatch runs the wire command the decoder reads (R213). -/

namespace Sys2Proof.Machine

/-- INIT of the Command Responder (44_sequencers.md R209). `CS[1]` keeps its reset value. -/
def startResp (configured : Bool) (s : State) : State :=
  if s.phaseR = .init then
    if configured then { s with perD := s.perD.startCapture, phaseR := .running, posR := .receive }
    else { s with phaseR := .aborted }
  else s

/-- Step 1, `receive(FOREVER)` (44_sequencers.md R210). -/
def respReceive (draw : RecvDraw) (s : State) : State :=
  match s.perD.receive .forever draw with
  | .got cap p => { s with perD := p, posR := .parse cap }
  | .nothing => s
  | .hold => s

/-- Step 2, `PARSE_CMD(cap.S, cap.count)` (44_sequencers.md R210). -/
def respParse (cap : List Symbol) (s : State) : Result :=
  andThen (exec .parseCmd { s with port := { s.port with syms := cap } }) fun out t =>
    match out with
    | .done .ok (.byte b) => .next { t with posR := .release cap (some b) }
    | _ => .next { t with posR := .release cap none }

/-- Step 2, `release`; on `MALFORMED` the agent drops the capture and goes to the next cycle (44_sequencers.md R211). -/
def respRelease (cap : List Symbol) (cmd : Option Byte) (s : State) : State :=
  match cmd with
  | none => { s with perD := s.perD.release cap, posR := .receive }
  | some b => { s with perD := s.perD.release cap, posR := .peek b }

/-- Step 3, the peek `MBX_TAKE(0, ZERO)`: a packet leads to the load, anything else keeps `CS[1]` (44_sequencers.md R212). -/
def respPeek (cmd : Byte) (s : State) : Result :=
  andThen (exec (.mbxTake .zero 0) s) fun out t =>
    match out with
    | .done .ok (.packet p) => .next { t with posR := .load cmd p.state }
    | _ => .next { t with posR := .dispatch cmd }

/-- Step 3, `CS_LD_WORD(1, p.state)` (44_sequencers.md R212). -/
def respLoad (cmd : Byte) (w : Word) (s : State) : Result :=
  andThen (exec (.csLdWord .cs1) { s with port := { s.port with word := w } }) fun _ t =>
    .next { t with posR := .dispatch cmd }

/-- Step 4, the dispatch (44_sequencers.md R213): the decoded wire command runs; "any other value → no reply is built or transmitted"
(R216), and the cycle ends. -/
def respDispatch (cmd : Byte) (s : State) : Result :=
  match decode s.cfg (.cmd cmd) with
  | .ok i => exec i s
  | .reject _ => .next { s with posR := .receive }

/-- Step 5, `stop_capture()` (44_sequencers.md R217). -/
def respStopCapture (reply : List Symbol) (s : State) : State :=
  { s with perD := s.perD.stopCapture, posR := .transmit reply }

/-- Step 5, `transmit(T, wait=true)` begins (44_sequencers.md R217). -/
def respTransmit (reply : List Symbol) (s : State) : Result :=
  andThen (transmit .device reply s) fun _ t => .next { t with posR := .awaitSent }

/-- Step 5, the transmit "returns when the last symbol has been sent" (44_sequencers.md R191). -/
def respAwaitSent (s : State) : State :=
  if s.perD.tx = [] then { s with posR := .startCapture } else s

/-- Step 5, `start_capture()`, and the cycle ends (44_sequencers.md R217). -/
def respStartCapture (s : State) : State :=
  { s with perD := s.perD.startCapture, posR := .receive }

/-- The Command Responder's next step in `RUNNING` (44_sequencers.md R210). -/
def respStep (draw : RecvDraw) (s : State) : Result :=
  match s.posR with
  | .receive => .next (respReceive draw s)
  | .parse cap => respParse cap s
  | .release cap cmd => .next (respRelease cap cmd s)
  | .peek cmd => respPeek cmd s
  | .load cmd w => respLoad cmd w s
  | .dispatch cmd => respDispatch cmd s
  | .encode b => encodePollReply b s
  | .stopCapture reply => .next (respStopCapture reply s)
  | .transmit reply => respTransmit reply s
  | .awaitSent => .next (respAwaitSent s)
  | .startCapture => .next (respStartCapture s)

/-- The Command Responder's turn: it acts in `RUNNING` only (44_sequencers.md R208; 60_exceptions.md R231). -/
def respTick (draw : RecvDraw) (s : State) : Result :=
  if s.phaseR = .running then respStep draw s else .next s

end Sys2Proof.Machine
end

