-- ==== Sys2Proof/Machine/PollScheduler.lean ====
section
/-! DEFINITION. The Poll Scheduler (spec/44_sequencers.md R198 to R207), the host role's agent: INIT, and one cycle cut into
its operations and primitives, so that any operation of another agent may fall between two of them
(spec/20_memory.md R72). -/

namespace Sys2Proof.Machine

/-- `poll_init` (44_sequencers.md R199): a configuration failure aborts the task (60_exceptions.md R231). An agent that is no longer
in INIT has started already. -/
def startPoll (configured : Bool) (now : Nat) (s : State) : State :=
  if s.phaseP = .init then
    if configured then { s with perH := s.perH.startCapture, anchor := timestamp s.cfg now, phaseP := .running, posP := .encode }
    else { s with phaseP := .aborted }
  else s

/-- Step 1, `POLL_TX`'s encoding: `T <- ENC_BUF([01], 10)` (44_sequencers.md R201). An agent that receives `CAPACITY` has met a bug
(60_exceptions.md R229). -/
def pollEncode (s : State) : Result :=
  andThen (exec .encBuf { s with port := { s.port with bytes := [cmdPoll], cap := 10 } }) fun out t =>
    match out with
    | .done .ok (.symbols cmd) => .next { t with posP := .transmit cmd }
    | _ => .fault (.capacityBug .host)

/-- Step 1, `transmit(T, wait=false)`: the agent goes on at once (44_sequencers.md R201). -/
def pollTransmit (cmd : List Symbol) (s : State) : Result :=
  andThen (transmit .host cmd s) fun _ t => .next { t with posP := .receive }

/-- Step 2, `receive(BOUNDED)` (44_sequencers.md R202). -/
def pollReceive (draw : RecvDraw) (s : State) : State :=
  match s.perH.receive .bounded draw with
  | .got cap p => { s with perH := p, posP := .gate (some cap) }
  | .nothing => { s with posP := .gate none }
  | .hold => s

/-- Step 3, the length gate and the indicator (44_sequencers.md R203). -/
def pollGate (cap : Option (List Symbol)) (s : State) : State :=
  match cap with
  | none => { s with conn := false, posP := .release none }
  | some c =>
    if c.length < s.cfg.pollMin then { s with conn := false, posP := .release (some c) }
    else { s with conn := true, posP := .parse c }

/-- Step 3, `PARSE_POLL(0, cap.S, cap.count)`; only `CHANGED` leads to a publish (44_sequencers.md R200, R204). -/
def pollParse (cap : List Symbol) (s : State) : Result :=
  andThen (parsePoll .cs0 cap s) fun out t =>
    match out with
    | .done .changed _ => .next { t with posP := .readWord cap }
    | _ => .next { t with posP := .release (some cap) }

/-- Step 4, `CS_RD_WORD(0)` (44_sequencers.md R204). -/
def pollReadWord (cap : List Symbol) (s : State) : Result :=
  andThen (exec (.csRdWord .cs0) s) fun out t =>
    match out with
    | .done .ok (.word w) => .next { t with posP := .publish cap w }
    | _ => .next { t with posP := .release (some cap) }

/-- Step 4, `MBX_PUBLISH((w, now))` (44_sequencers.md R204). -/
def pollPublish (now : Nat) (cap : List Symbol) (w : Word) (s : State) : Result :=
  andThen (exec .mbxPublish { s with port := { s.port with packet := { state := w, ts := timestamp s.cfg now } } }) fun _ t =>
    .next { t with posP := .release (some cap) }

/-- Step 5, `release` of a capture that was lent (44_sequencers.md R195, R200). -/
def pollRelease (cap : Option (List Symbol)) (s : State) : State :=
  match cap with
  | none => { s with posP := .periodCheck }
  | some c => { s with perH := s.perH.release c, posP := .periodCheck }

/-- Step 6, the overrun test `now - ANCHOR > PERIOD` (44_sequencers.md R206). -/
def pollPeriodCheck (now : Nat) (s : State) : State :=
  if s.cfg.period < elapsed (timestamp s.cfg now) s.anchor then { s with posP := .resync } else { s with posP := .periodWait }

/-- Step 6, the resynchronisation `ANCHOR <- now`, with a draw of its own: "`now` is `draw now : TS_W bits` at each use"
(44_sequencers.md R196, R206). -/
def pollResync (now : Nat) (s : State) : State :=
  { s with anchor := timestamp s.cfg now, posP := .periodWait }

/-- Step 6, the suspension until `now >= ANCHOR + PERIOD`, and the anchor's advance (44_sequencers.md R206). -/
def pollPeriodWait (now : Nat) (s : State) : State :=
  if deadline s.cfg s.anchor ≤ timestamp s.cfg now then { s with anchor := deadline s.cfg s.anchor, posP := .encode } else s

/-- The Poll Scheduler's next step in `RUNNING` (44_sequencers.md R200). -/
def pollStep (now : Nat) (draw : RecvDraw) (s : State) : Result :=
  match s.posP with
  | .encode => pollEncode s
  | .transmit cmd => pollTransmit cmd s
  | .receive => .next (pollReceive draw s)
  | .gate cap => .next (pollGate cap s)
  | .parse cap => pollParse cap s
  | .readWord cap => pollReadWord cap s
  | .publish cap w => pollPublish now cap w s
  | .release cap => .next (pollRelease cap s)
  | .periodCheck => .next (pollPeriodCheck now s)
  | .resync => .next (pollResync now s)
  | .periodWait => .next (pollPeriodWait now s)

/-- The Poll Scheduler's turn: it acts in `RUNNING` only (44_sequencers.md R198; 60_exceptions.md R231). -/
def pollTick (now : Nat) (draw : RecvDraw) (s : State) : Result :=
  if s.phaseP = .running then pollStep now draw s else .next s

end Sys2Proof.Machine
end

