-- ==== Sys2Proof/Machine/Events.lean ====
section
/-! DEFINITION. What one entry of the total order does (spec/20_memory.md R72): a request on the port, a held take, an agent's
start or turn, a symbol leaving a transmitter, activity or idleness on a line. The three that run an
instruction fetch it here: a request word, the symbol a transmitter sends, and (in the responder's dispatch) a
command byte. -/

namespace Sys2Proof.Machine

/-- An issuer presents a request word and its operands, each in its width (30_encoding.md R108), and receives the answer: with
`CAPACITY` it is marked faulted (60_exceptions.md R229; notes/assumptions/11.md). A word that selects nothing returns `ILLEGAL_OP`
and changes nothing else (R111). -/
def handleRequest (who : Issuer) (w : ReqWord) (ops : Operands) (s : State) : Result :=
  match decode s.cfg (.req w) with
  | .ok i => andThen (exec i { s with port := cutOperands s.cfg ops }) fun _ t => .next (t.received who)
  | .reject _ => raise .illegalOp { s with port := cutOperands s.cfg ops }

/-- The state in which a transmitter has handed over its next symbol. -/
def popSymbol (who : Role) (rest : List Symbol) (s : State) : State :=
  { (s.setPer who { s.getPer who with tx := rest }) with txSel := who }

/-- A transmitter sends its next symbol (44_sequencers.md R191): a canonical one is run as the decoder reads it, any other
goes on the line as it is. -/
def handleTx (who : Role) (s : State) : Result :=
  match (s.getPer who).tx with
  | [] => .next s
  | sym :: rest =>
    match decode s.cfg (.sym sym) with
    | .ok i => exec i (popSymbol who rest s)
    | .reject _ => .next (emit sym (popSymbol who rest s))

/-- What one event does. -/
def handle (e : Event) (s : State) : Result :=
  match e with
  | .request who w ops => handleRequest who w ops s
  | .wake n expired => wakeTake n expired s
  | .startPoll configured now => .next (startPoll configured now s)
  | .startResp configured => .next (startResp configured s)
  | .pollTick now draw => pollTick now draw s
  | .respTick draw => respTick draw s
  | .txTick who => handleTx who s
  | .activity who syms => .next (s.setPer who ((s.getPer who).activity (syms.map (cutSymbol s.cfg))))
  | .lineIdle who => .next (s.setPer who (s.getPer who).lineIdle)

/-- One step: the next entry of the total order happens; with nothing to happen the machine waits. -/
def stepInbox (s : State) : Result :=
  match s.inbox with
  | [] => .next s
  | e :: rest => handle e { s with inbox := rest }

/-- The state in which the very next step runs the instruction a code encodes: a request word is presented next by the
host's agent, with the operands now on the port; a command byte stands at the responder's dispatch and the responder's turn is next; a
symbol is the next one the host's transmitter sends. -/
def withCode (code : Code) (s : State) : State :=
  match code with
  | .req w => { s with inbox := .request (.agent .host) w s.port :: s.inbox }
  | .cmd b => { s with phaseR := .running, posR := .dispatch b, inbox := .respTick .wait :: s.inbox }
  | .sym y => { s with perH := { s.perH with tx := y :: s.perH.tx }, inbox := .txTick .host :: s.inbox }

end Sys2Proof.Machine
end

