-- ==== Sys2Proof/Machine/Step.lean ====
section
/-! DEFINITION. One step of the machine, and where the step fetches its next instruction from. -/

namespace Sys2Proof.Machine

/-- One step (spec/70_reset_and_hazards.md R284: an operation is one step). -/
def step (s : State) : Host.Outcome State Fault Refusal :=
  stepInbox s

/-- `s` with the instruction whose table bits are `w` placed where the next step fetches. -/
def State.withFetchWord (s : State) (nbits w : Nat) : State :=
  match codeOfTableWord nbits w with
  | some code => withCode code s
  | none => s

end Sys2Proof.Machine
end

