-- ==== Sys2Proof/Safety.lean ====
section
/-! DEFINITION. What counts as a safe state: the invariants of the block and its agents, in the terms the statements use, each
with the rule of the spec it comes from. -/

namespace Sys2Proof.Safety

open Sys2Proof.Machine

/-- One freshness flag per consumer (spec/10_state.md R39), and `fresh[c] = 1` implies `full = 1` (R40). -/
structure MailboxInv (s : State) : Prop where
  perConsumer : s.mbx.fresh.length = s.cfg.ncons
  freshFull : ∀ b ∈ s.mbx.fresh, b = true → s.mbx.full = true

/-- The capture the Poll Scheduler has been lent at a place of its cycle (spec/44_sequencers.md R195, R200). -/
def pollHolds : PollPos → List (List Symbol)
  | .encode => []
  | .transmit _ => []
  | .receive => []
  | .gate cap => cap.toList
  | .parse cap => [cap]
  | .readWord cap => [cap]
  | .publish cap _ => [cap]
  | .release cap => cap.toList
  | .periodCheck => []
  | .resync => []
  | .periodWait => []

/-- The capture the Command Responder has been lent at a place of its cycle (spec/44_sequencers.md R195, R210). -/
def respHolds : RespPos → List (List Symbol)
  | .receive => []
  | .parse cap => [cap]
  | .release cap _ => [cap]
  | .peek _ => []
  | .load _ _ => []
  | .dispatch _ => []
  | .encode _ => []
  | .stopCapture _ => []
  | .transmit _ => []
  | .awaitSent => []
  | .startCapture => []

/-- Each lent capture is the one its agent holds: lent by `receive`, released exactly once (spec/44_sequencers.md R195). -/
structure LendingInv (s : State) : Prop where
  host : s.perH.lent = pollHolds s.posP
  device : s.perD.lent = respHolds s.posR

/-- An agent that is not RUNNING, in INIT or ABORTED, stands at the start of its cycle. No rule gives it a place there; this one is the
model's choice (notes/assumptions/31.md). -/
structure PhaseInv (s : State) : Prop where
  poll : s.phaseP ≠ .running → s.posP = .encode
  resp : s.phaseR ≠ .running → s.posR = .receive

/-- The transmit buffer the Poll Scheduler is about to send. -/
def pollSends : PollPos → Option (List Symbol)
  | .transmit t => some t
  | _ => none

/-- The transmit buffer the Command Responder is about to send. -/
def respSends : RespPos → Option (List Symbol)
  | .stopCapture t => some t
  | .transmit t => some t
  | _ => none

/-- The bytes the Command Responder is about to encode. -/
def respEncodes : RespPos → Option (List Byte)
  | .encode b => some b
  | _ => none

/-- Every buffer an agent sends ends in STOP, END (spec/30_encoding.md R91; spec/44_sequencers.md R191), and the bytes of a `POLL` reply are
four (spec/30_encoding.md R96). -/
structure BufferInv (s : State) : Prop where
  poll : ∀ t, pollSends s.posP = some t → [s.cfg.stopSymbol, endSymbol] <:+ t
  resp : ∀ t, respSends s.posR = some t → [s.cfg.stopSymbol, endSymbol] <:+ t
  reply : ∀ b, respEncodes s.posR = some b → b.length = 4

/-- The places of the Command Responder inside the self-echo suppression window (spec/44_sequencers.md R217). -/
def inWindow : RespPos → Bool
  | .transmit _ => true
  | .awaitSent => true
  | .startCapture => true
  | _ => false

/-- The self-echo suppression window (spec/44_sequencers.md R217; spec/70_reset_and_hazards.md R273): a running responder captures exactly
outside the window, and a reply is on its way only inside it. -/
structure EchoInv (s : State) : Prop where
  capture : s.phaseR = .running → s.perD.rxen = !inWindow s.posR
  sending : s.perD.tx ≠ [] → s.posR = .awaitSent

/-- The host role leaves its capture running (spec/70_reset_and_hazards.md R274). -/
def HostCaptureInv (s : State) : Prop :=
  s.phaseP = .running → s.perH.rxen = true

/-- A held take names a consumer and may wait (spec/43_mailbox.md R174 to R176: the class `ZERO` never waits). -/
def HeldInv (s : State) : Prop :=
  ∀ h ∈ s.held, h.consumer.toNat < s.cfg.ncons ∧ h.tmo ≠ .zero

/-- The invariant of the whole machine: a legal configuration (spec/70_reset_and_hazards.md R269) and all of the above. -/
structure Inv (s : State) : Prop where
  config : s.cfg.wf
  mailbox : MailboxInv s
  lending : LendingInv s
  phases : PhaseInv s
  buffers : BufferInv s
  echo : EchoInv s
  hostCapture : HostCaptureInv s
  heldTakes : HeldInv s

/-! ## Widths -/

/-- Every symbol of a list fits `DUR_W` bits (spec/30_encoding.md R85). -/
def AllFit (c : Config) (syms : List Symbol) : Prop :=
  ∀ y ∈ syms, y.fits c

/-- The captures a peripheral holds fit `DUR_W` bits: in progress, finished, lent. -/
structure CapturesFit (c : Config) (p : Peripheral) : Prop where
  inProgress : ∀ cap, p.inProgress = some cap → AllFit c cap
  pending : ∀ cap ∈ p.pending, AllFit c cap
  lent : ∀ cap ∈ p.lent, AllFit c cap

/-- What the block has taken in from outside keeps to its width: timestamps and the anchor to `TS_W` bits (spec/00_scope.md R16,
spec/44_sequencers.md R196), durations on the port, in the captures and in the agents' hands to `DUR_W` bits (spec/00_scope.md R10). -/
structure WidthInv (s : State) : Prop where
  slot : s.mbx.slot.fits s.cfg
  packet : s.port.packet.fits s.cfg
  anchor : s.anchor < 2 ^ s.cfg.tsW
  sym : s.port.sym.fits s.cfg
  syms : AllFit s.cfg s.port.syms
  host : CapturesFit s.cfg s.perH
  device : CapturesFit s.cfg s.perD
  poll : ∀ cap ∈ pollHolds s.posP, AllFit s.cfg cap
  resp : ∀ cap ∈ respHolds s.posR, AllFit s.cfg cap

/-! ## Ownership -/

/-- The controller-state register an operation names, if it names one (spec/30_encoding.md R108). -/
def registerNamed : Instr → Option CsId
  | .encBit => none
  | .encBuf => none
  | .classify => none
  | .decBits => none
  | .parseCmd => none
  | .parseState r => some r
  | .csRdWord r => some r
  | .csRdField r _ => some r
  | .csRdBytes r => some r
  | .csLdWord r => some r
  | .mbxPublish => none
  | .mbxTake _ _ => none
  | .status => none
  | .poll => none
  | .symZero => none
  | .symOne => none
  | .symStop => none
  | .symEnd => none

/-- The one owner of a controller-state register (spec/10_state.md R32): the Poll Scheduler of `CS[0]`, the Command Responder of
`CS[1]`. -/
def owner : CsId → Issuer
  | .cs0 => .agent .host
  | .cs1 => .agent .device

/-- A request that names a register is its owner's. -/
def eventOwned (c : Config) : Event → Prop
  | .request who w _ => ∀ i r, decode c (.req w) = .ok i → registerNamed i = some r → who = owner r
  | _ => True

/-- The premise "Only the Poll Scheduler issues operations with `r = 0` and only the Command Responder with `r = 1`"
(spec/70_reset_and_hazards.md R276). The two agents issue theirs in their own turns, so it says that a request on the port that names a
register comes from the register's owner. The block does not enforce it. -/
def Owned (s : State) : Prop :=
  ∀ e ∈ s.inbox, eventOwned s.cfg e

/-! ## Faulted agents -/

/-- No agent is marked faulted: what a state that a claim ends in must meet, since "a fault is never a final state a claim may end in"
(spec/60_exceptions.md R229; spec/92_eei_decisions.md D36). -/
def Faultless (s : State) : Prop :=
  s.faulted = []

/-! ## The terms of the statements -/

/-- A state from which the next step neither faults nor is refused. -/
def Goes (s : State) : Prop :=
  ∃ t, step s = .next t

/-- The bit a symbol stands for under a threshold, written out: below it 1, at or above it 0 (spec/40_codec.md R127). -/
def bitAt (c : Config) (syms : List Symbol) (i : Nat) (b : Bool) : Prop :=
  ∃ y, syms[i]? = some y ∧ b = decide (y.d0 < c.thresh)

/-- The symbol of a bit, written out from the parameters (spec/30_encoding.md R87, R88). -/
def wireSymbol (c : Config) (v : Bool) : Symbol :=
  match v with
  | true => ⟨c.tShort, .low, c.tLong, .high⟩
  | false => ⟨c.tLong, .low, c.tShort, .high⟩

/-- `T` is a transmit buffer of `n` data bits `bit 0 .. bit (n - 1)`, then STOP, END (spec/30_encoding.md R91). -/
structure Frame (c : Config) (n : Nat) (bit : Nat → Bool) (t : List Symbol) : Prop where
  length : t.length = n + 2
  data : ∀ i < n, t[i]? = some (wireSymbol c (bit i))
  stop : t[n]? = some c.stopSymbol
  endOfSequence : t[n + 1]? = some ⟨0, .low, 0, .low⟩

end Sys2Proof.Safety
end

