-- ==== Sys2Proof/Certificates/Slice0/Obligations.lean ====
section
/-! DEFINITION. What is to be proved of the model: one `def Obligations.<Name> : Prop` per statement, each citing the rule of
spec/ it formalises. A next state is written out as the state before with the fields the operation writes; every
field not named is unchanged, so each such statement is also the instruction's frame. -/

open Sys2Proof Sys2Proof.Machine Sys2Proof.Safety

/-! ## The Pulse Codec -/

/-- 40_codec.md R121: value 1 is short-low/long-high, value 0 is long-low/short-high; always `OK`, nothing else changes. -/
def Obligations.EncBitAnswersTheSymbolOfTheBit : Prop :=
  ∀ s : State, encode s.cfg .encBit = .req 0x0000 ∧
    exec .encBit s = .next { s with out := .done .ok (.symbol (wireSymbol s.cfg s.port.bit)) }

/-- 40_codec.md R123, R124 (and 20_memory.md R60, R61 for the order): with enough capacity, the `8n + 2` symbols of the bytes in buffer
order, each most significant bit first, then STOP, then END; with less, `CAPACITY` and no symbol. -/
def Obligations.EncBufWritesDataStopEnd : Prop :=
  ∀ s : State, encode s.cfg .encBuf = .req 0x1000 ∧
    (8 * s.port.bytes.length + 2 ≤ s.port.cap →
      ∃ t, exec .encBuf s = .next { s with out := .done .ok (.symbols t) } ∧
        Frame s.cfg (8 * s.port.bytes.length) (fun i => (s.port.bytes.getD (i / 8) 0).getLsbD (7 - i % 8)) t) ∧
    (s.port.cap < 8 * s.port.bytes.length + 2 → exec .encBuf s = .next { s with out := .done .capacity .none })

/-- 60_exceptions.md R229 with 40_codec.md R124: a capacity below `8n + 2` returns `CAPACITY` with no symbol, and changes nothing; the
issuer of such a request is marked faulted, once, and goes on; and an agent is marked by nothing else, and unmarked by
nothing. That a mark is data in State and stops nobody is the model's choice (notes/assumptions/11.md). -/
def Obligations.EncBufRefusesSmallCapacity : Prop :=
  (∀ s : State, s.port.cap < 8 * s.port.bytes.length + 2 → exec .encBuf s = .next { s with out := .done .capacity .none }) ∧
  (∀ (s : State) (who : Issuer) (ops : Operands) (rest : List Event), s.inbox = .request who 0x1000 ops :: rest →
    ops.cap < 8 * ops.bytes.length + 2 →
    step s = .next { s with inbox := rest, port := cutOperands s.cfg ops, out := .done .capacity .none,
                            faulted := if who ∈ s.faulted then s.faulted else s.faulted ++ [who] }) ∧
  ∀ s t : State, step s = .next t → t.faulted ≠ s.faulted →
    ∃ who ops rest, s.inbox = .request who 0x1000 ops :: rest ∧ ops.cap < 8 * ops.bytes.length + 2 ∧ who ∉ s.faulted ∧
      t.faulted = s.faulted ++ [who]

/-- 40_codec.md R127: below the threshold 1, at or above it 0; only the first duration is read. And R135's two extremes: a threshold
of 0 makes every symbol a 0, and one beyond every `DUR_W`-bit duration makes every symbol of that width a 1. -/
def Obligations.ClassifyComparesTheFirstDuration : Prop :=
  ∀ s : State, encode s.cfg .classify = .req 0x2000 ∧
    exec .classify s = .next { s with out := .done .ok (.bit (decide (s.port.sym.d0 < s.cfg.thresh))) } ∧
    (s.cfg.thresh = 0 → exec .classify s = .next { s with out := .done .ok (.bit false) }) ∧
    (2 ^ s.cfg.durW ≤ s.cfg.thresh → s.port.sym.fits s.cfg →
      exec .classify s = .next { s with out := .done .ok (.bit true) })

/-- 40_codec.md R134: under WF2 every duration up to the nominal short one is a 1 and every duration from the nominal long one
on is a 0, and the band between them reaches up to the threshold from both sides. -/
def Obligations.ClassifyToleratesTheBandUnderWF2 : Prop :=
  ∀ (s : State) (k : Nat), s.cfg.wf2 k →
    (s.port.sym.d0 ≤ s.cfg.tShort * k → exec .classify s = .next { s with out := .done .ok (.bit true) }) ∧
    (s.cfg.tLong * k ≤ s.port.sym.d0 → exec .classify s = .next { s with out := .done .ok (.bit false) }) ∧
    (s.port.sym.d0 ≤ s.cfg.thresh - 1 → exec .classify s = .next { s with out := .done .ok (.bit true) }) ∧
    (s.cfg.thresh ≤ s.port.sym.d0 → exec .classify s = .next { s with out := .done .ok (.bit false) })

/-- 40_codec.md R129: one bit per symbol by the threshold, and one byte per complete group of eight, the first bit of a group
being bit 7. -/
def Obligations.DecBitsClassifiesAndPacks : Prop :=
  ∀ s : State, encode s.cfg .decBits = .req 0x3000 ∧
    ∃ bits bytes, exec .decBits s = .next { s with out := .done .ok (.decoded bits bytes) } ∧
    bits.length = s.port.syms.length ∧
    (∀ i < s.port.syms.length, bitAt s.cfg s.port.syms i (bits.getD i false)) ∧
    bytes.length = s.port.syms.length / 8 ∧
    ∀ j < s.port.syms.length / 8, ∀ k < 8, (bytes.getD j 0).getLsbD (7 - k) = bits.getD (8 * j + k) false

/-- 40_codec.md R132: under WF2 at the tick ratio `k`, what the encoder wrote, looped back and decoded without its framing,
gives the bytes back. -/
def Obligations.RoundTripThroughTheLoopback : Prop :=
  ∀ (s t : State) (k : Nat) (y : List Symbol), s.cfg.wf2 k → exec .encBuf s = .next t → t.out = .done .ok (.symbols y) →
    ∃ u bits,
      exec .decBits
        { t with port :=
          { t.port with
            syms := (y.map fun z => ⟨z.d0 * k, z.l0, z.d1 * k, z.l1⟩).take (8 * s.port.bytes.length) } } = .next u ∧
      u.out = .done .ok (.decoded bits s.port.bytes)

/-- 40_codec.md R133: with both nominal durations below the threshold and no scaling, the decoded bytes are all ones whatever
was encoded, so the round trip fails for every buffer that is not all ones; the source defaults are such a configuration. -/
def Obligations.NoRoundTripWithoutTheLoopback : Prop :=
  (Config.default.tShort < Config.default.thresh ∧ Config.default.tLong < Config.default.thresh) ∧
  ∀ (s t : State) (y : List Symbol), s.cfg.tShort < s.cfg.thresh → s.cfg.tLong < s.cfg.thresh →
    exec .encBuf s = .next t → t.out = .done .ok (.symbols y) →
    ∃ u bits bytes,
      exec .decBits { t with port := { t.port with syms := y.take (8 * s.port.bytes.length) } } = .next u ∧
      u.out = .done .ok (.decoded bits bytes) ∧ bytes = List.replicate s.port.bytes.length 0xFF ∧
      (s.port.bytes ≠ List.replicate s.port.bytes.length 0xFF → bytes ≠ s.port.bytes)

/-- 40_codec.md R120, 10_state.md R31 and 41_framer.md R140: the codec operations and `PARSE_CMD` write nothing but the port's answer, and that answer
depends on the operands and the configuration alone. -/
def Obligations.CodecAndCommandParseArePure : Prop :=
  ∀ i ∈ [Instr.encBit, .encBuf, .classify, .decBits, .parseCmd], ∀ s u : State, u.port = s.port → u.cfg = s.cfg →
    ∃ v, exec i s = .next { s with out := v } ∧ exec i u = .next { u with out := v }

/-! ## The Packet Framer -/

/-- 41_framer.md R141: with at least eight symbols, the byte whose bit `7 - k` is the class of symbol `k`; with fewer,
`MALFORMED`. -/
def Obligations.ParseCmdReadsEightSymbols : Prop :=
  ∀ s : State, encode s.cfg .parseCmd = .req 0x4000 ∧
    (8 ≤ s.port.syms.length →
      ∃ b : Byte, exec .parseCmd s = .next { s with out := .done .ok (.byte b) } ∧
        ∀ k < 8, bitAt s.cfg s.port.syms k (b.getLsbD (7 - k))) ∧
    (s.port.syms.length < 8 → exec .parseCmd s = .next { s with out := .done .malformed .none })

/-- 60_exceptions.md R226: `MALFORMED` is raised by `PARSE_CMD` below 8 symbols, by `PARSE_STATE` below 32, by `PARSE_POLL` below
`POLL_MIN`, and by nothing else; it records no value and changes nothing. -/
def Obligations.MalformedIsForTooFewSymbolsOnly : Prop :=
  (∀ s : State, s.port.syms.length < 8 → exec .parseCmd s = .next { s with out := .done .malformed .none }) ∧
  (∀ (r : CsId) (s : State), s.port.syms.length < 32 →
    exec (.parseState r) s = .next { s with out := .done .malformed .none }) ∧
  (∀ (r : CsId) (s : State) (cap : List Symbol), cap.length < s.cfg.pollMin →
    parsePoll r cap s = .next { s with out := .done .malformed .none }) ∧
  ∀ (i : Instr) (w : ReqWord) (s t : State) (v : Value), encode s.cfg i = .req w → exec i s = .next t →
    t.out = .done .malformed v →
      v = .none ∧
      (i = .parseCmd ∧ s.port.syms.length < 8 ∨ ∃ r, i = .parseState r ∧ s.port.syms.length < 32)

/-- 41_framer.md R144 (with 10_state.md R34): with at least 32 symbols, `CS[r]` takes the word whose bit `31 - i` is the class of
symbol `i`, and the status says whether it differs from the old one; with fewer, `MALFORMED` and no write. -/
def Obligations.ParseStateWritesTheDecodedWord : Prop :=
  ∀ s : State, encode s.cfg (.parseState .cs0) = .req 0x5000 ∧ encode s.cfg (.parseState .cs1) = .req 0x5800 ∧
    (32 ≤ s.port.syms.length →
      ∃ w : Word, (∀ i < 32, bitAt s.cfg s.port.syms i (w.getLsbD (31 - i))) ∧
        exec (.parseState .cs0) s =
          .next { s with cs0 := w, out := .done (if w ≠ s.cs0 then .changed else .unchanged) .none } ∧
        exec (.parseState .cs1) s =
          .next { s with cs1 := w, out := .done (if w ≠ s.cs1 then .changed else .unchanged) .none }) ∧
    (s.port.syms.length < 32 → ∀ r, exec (.parseState r) s = .next { s with out := .done .malformed .none })

/-- 41_framer.md R151: a second parse of the same buffer, with no other write to the register between, returns `UNCHANGED`; the
first returns `CHANGED` exactly when the decoded word differs from the held one. -/
def Obligations.ParsingTwiceIsUnchanged : Prop :=
  ∀ (r : CsId) (s : State), 32 ≤ s.port.syms.length →
    ∃ (t : State) (w : Word), exec (.parseState r) s = .next t ∧
      (∀ i < 32, bitAt s.cfg s.port.syms i (w.getLsbD (31 - i))) ∧ t.getCs r = w ∧
      (t.out = .done .changed .none ↔ w ≠ s.getCs r) ∧
      ∀ u : State, u.cfg = s.cfg → u.port.syms = s.port.syms → u.getCs r = t.getCs r →
        exec (.parseState r) u = .next { u with out := .done .unchanged .none }

/-- 41_framer.md R150: at `POLL_MIN = 42` a capture of 41 symbols is rejected by the gate and leaves the register alone, though the
32 symbols after the skip would parse; one of 42 or more is accepted and its symbols 9 to 40 become the state. -/
def Obligations.PollPathRejects41Accepts42 : Prop :=
  ∀ (r : CsId) (s : State) (cap : List Symbol), s.cfg.pollMin = 42 →
    (cap.length = 41 →
      parsePoll r cap s = .next { s with out := .done .malformed .none } ∧
      ∃ t, exec (.parseState r) { s with port := { s.port with syms := cap.drop 9 } } = .next t ∧
        (t.out = .done .changed .none ∨ t.out = .done .unchanged .none)) ∧
    (42 ≤ cap.length →
      ∃ (t : State) (w : Word), parsePoll r cap s = .next t ∧
        (∀ i < 32, bitAt s.cfg cap (9 + i) (w.getLsbD (31 - i))) ∧ t.getCs r = w ∧
        (t.out = .done .changed .none ∨ t.out = .done .unchanged .none))

/-- 41_framer.md R149: below `POLL_MIN` nothing but `MALFORMED`; from `POLL_MIN` on, `PARSE_STATE` on the capture without its first nine
symbols, which in a legal configuration never lacks symbols. -/
def Obligations.PollPathGatesSkipsAndParses : Prop :=
  ∀ (r : CsId) (s : State) (cap : List Symbol),
    (cap.length < s.cfg.pollMin → parsePoll r cap s = .next { s with out := .done .malformed .none }) ∧
    (s.cfg.pollMin ≤ cap.length →
      parsePoll r cap s = exec (.parseState r) { s with port := { s.port with syms := cap.drop 9 } } ∧
      (s.cfg.wf → ∃ t, parsePoll r cap s = .next t ∧
        (t.out = .done .changed .none ∨ t.out = .done .unchanged .none)))

/-- 41_framer.md R148: after a successful parse, encoding the register's four bytes replays the 32 decoded bits in the same order,
then STOP, END. -/
def Obligations.ParsedStateIsReplayedBitForBit : Prop :=
  ∀ (r : CsId) (s t : State), 32 ≤ s.port.syms.length → exec (.parseState r) s = .next t →
    ∃ u b v y, exec (.csRdBytes r) t = .next u ∧ u.out = .done .ok (.bytes b) ∧
      exec .encBuf { u with port := { u.port with bytes := b, cap := 34 } } = .next v ∧
      v.out = .done .ok (.symbols y) ∧
      Frame s.cfg 32 (fun i => decide ((s.port.syms.getD i ⟨0, .low, 0, .low⟩).d0 < s.cfg.thresh)) y

/-! ## The controller-state registers -/

/-- 42_state_register.md R156 and R159: the word read returns `CS[r]`, the byte read its four bytes, most significant first. -/
def Obligations.WordAndByteReadsReturnTheRegister : Prop :=
  ∀ s : State,
    encode s.cfg (.csRdWord .cs0) = .req 0x6000 ∧ encode s.cfg (.csRdWord .cs1) = .req 0x6800 ∧
    encode s.cfg (.csRdBytes .cs0) = .req 0x8000 ∧ encode s.cfg (.csRdBytes .cs1) = .req 0x8800 ∧
    exec (.csRdWord .cs0) s = .next { s with out := .done .ok (.word s.cs0) } ∧
    exec (.csRdWord .cs1) s = .next { s with out := .done .ok (.word s.cs1) } ∧
    exec (.csRdBytes .cs0) s = .next { s with out := .done .ok (.bytes
      [s.cs0.extractLsb' 24 8, s.cs0.extractLsb' 16 8, s.cs0.extractLsb' 8 8, s.cs0.extractLsb' 0 8]) } ∧
    exec (.csRdBytes .cs1) s = .next { s with out := .done .ok (.bytes
      [s.cs1.extractLsb' 24 8, s.cs1.extractLsb' 16 8, s.cs1.extractLsb' 8 8, s.cs1.extractLsb' 0 8]) }

/-- 42_state_register.md R158: field `f <= 15` is bit `31 - f`; 16 and 17 are the second lowest and the lowest byte as signed numbers;
a field above 17 is an illegal request. -/
def Obligations.FieldReadsSliceTheRegister : Prop :=
  ∀ (r : CsId) (f : BitVec 5) (s : State),
    encode s.cfg (.csRdField r f) = .req (0x7000 ||| (if r = .cs1 then 0x0800 else 0) ||| f.zeroExtend 16 <<< 4) ∧
    (f.toNat ≤ 15 →
      exec (.csRdField r f) s = .next { s with out := .done .ok (.flag ((s.getCs r).getLsbD (31 - f.toNat))) }) ∧
    (f.toNat = 16 →
      exec (.csRdField r f) s = .next { s with out := .done .ok (.axis
        (if (s.getCs r).toNat / 256 % 256 < 128 then ((s.getCs r).toNat / 256 % 256 : Int)
          else ((s.getCs r).toNat / 256 % 256 : Int) - 256)) }) ∧
    (f.toNat = 17 →
      exec (.csRdField r f) s = .next { s with out := .done .ok (.axis
        (if (s.getCs r).toNat % 256 < 128 then ((s.getCs r).toNat % 256 : Int)
          else ((s.getCs r).toNat % 256 : Int) - 256)) }) ∧
    (17 < f.toNat → exec (.csRdField r f) s = .next { s with out := .done .illegalOp .none })

/-- 42_state_register.md R160: all 32 bits of `CS[r]` take the operand; no change result is produced. -/
def Obligations.LoadWordReplacesTheRegister : Prop :=
  ∀ s : State,
    encode s.cfg (.csLdWord .cs0) = .req 0x9000 ∧ encode s.cfg (.csLdWord .cs1) = .req 0x9800 ∧
    exec (.csLdWord .cs0) s = .next { s with cs0 := s.port.word, out := .done .ok .none } ∧
    exec (.csLdWord .cs1) s = .next { s with cs1 := s.port.word, out := .done .ok .none }

/-- 42_state_register.md R157 (with 10_state.md R33, R34): two controller states are the same word exactly when all 18 fields read the same. -/
def Obligations.EqualWordsAreEqualFields : Prop :=
  ∀ (r q : CsId) (s t : State),
    s.getCs r = t.getCs q ↔
      ∀ f : BitVec 5, f.toNat ≤ 17 →
        ∃ u v, exec (.csRdField r f) s = .next u ∧ exec (.csRdField q f) t = .next v ∧ u.out = v.out

/-- 10_state.md R36: a controller-state register is written by `PARSE_STATE` on that register and `CS_LD_WORD` on that register, and by
no other operation, wire command or symbol. -/
def Obligations.OnlyParseAndLoadWriteARegister : Prop :=
  ∀ (r : CsId) (i : Instr) (s t : State), exec i s = .next t → t.getCs r ≠ s.getCs r →
    (i = .parseState r ∧ 32 ≤ s.port.syms.length) ∨ i = .csLdWord r

/-! ## The Mailbox -/

/-- 43_mailbox.md R171: the slot is overwritten, `full` and every `fresh[c]` are set; nothing else changes. -/
def Obligations.PublishReplacesTheSlot : Prop :=
  ∀ s : State, encode s.cfg .mbxPublish = .req 0xA000 ∧ ∃ flags : List Bool,
    exec .mbxPublish s =
      .next { s with mbx := { slot := s.port.packet, full := true, fresh := flags }, out := .done .ok .none } ∧
    flags.length = s.cfg.ncons ∧ ∀ k < s.cfg.ncons, flags[k]? = some true

/-- 43_mailbox.md R174 (with R173): a peek returns the slot and clears its own flag when that flag is set, else `TIMEOUT` at once. -/
def Obligations.PeekAsksForFreshness : Prop :=
  ∀ (k : BitVec 4) (s : State), k.toNat < s.cfg.ncons →
    (s.mbx.fresh.getD k.toNat false = true →
      exec (.mbxTake .zero k) s =
        .next { s with mbx := { s.mbx with fresh := s.mbx.fresh.set k.toNat false },
                       out := .done .ok (.packet s.mbx.slot) }) ∧
    (s.mbx.fresh.getD k.toNat false = false →
      exec (.mbxTake .zero k) s = .next { s with out := .done .timeout .none })

/-- 43_mailbox.md R175, R176: once `full`, a bounded or unbounded take completes at once, fresh or not; before, it is held, and
a held take completes when it is looked at after a publish; only a bounded one whose bound has expired gives
`TIMEOUT`, and only before a publish. That a bounded take of an empty mailbox is always held first, where R175 also allows
`TIMEOUT` at once, and that the entry `wake` completes or expires it, is the model's choice (notes/assumptions/20.md), and so is that a further take
with the `c` of one still held runs like any other (notes/assumptions/32.md). -/
def Obligations.WaitingTakesNeedOnePublish : Prop :=
  (∀ (tmo : Timeout) (k : BitVec 4) (s : State), tmo ≠ .zero → k.toNat < s.cfg.ncons →
    (s.mbx.full = true →
      exec (.mbxTake tmo k) s =
        .next { s with mbx := { s.mbx with fresh := s.mbx.fresh.set k.toNat false },
                       out := .done .ok (.packet s.mbx.slot) }) ∧
    (s.mbx.full = false →
      exec (.mbxTake tmo k) s = .next { s with held := s.held ++ [{ consumer := k, tmo := tmo }], out := .held })) ∧
  ∀ (n : Nat) (expired : Bool) (h : HeldTake) (rest : List Event) (s : State), s.inbox = .wake n expired :: rest →
    s.held[n]? = some h → h.tmo ≠ .zero →
    (s.mbx.full = true →
      step s = .next { s with inbox := rest, held := s.held.eraseIdx n,
                              mbx := { s.mbx with fresh := s.mbx.fresh.set h.consumer.toNat false },
                              out := .done .ok (.packet s.mbx.slot) }) ∧
    (s.mbx.full = false → h.tmo = .bounded → expired = true →
      step s = .next { s with inbox := rest, held := s.held.eraseIdx n, out := .done .timeout .none }) ∧
    (s.mbx.full = false → (h.tmo = .forever ∨ expired = false) → step s = .next { s with inbox := rest })

/-- 43_mailbox.md R178: after two publishes with no take between, a take of any class returns the second packet and a peek after it
`TIMEOUT`; and as long as the second packet is in the slot, every take of any class by any consumer returns it or
`TIMEOUT` and leaves it there, so no take ever returns the first. -/
def Obligations.SecondPublishOverwritesTheFirst : Prop :=
  ∀ (s : State) (p q : Packet) (k : BitVec 4), k.toNat < s.cfg.ncons →
    ∃ a b, exec .mbxPublish { s with port := { s.port with packet := p } } = .next a ∧
      exec .mbxPublish { a with port := { a.port with packet := q } } = .next b ∧
      ∀ tmo : Timeout, ∃ u, exec (.mbxTake tmo k) b = .next u ∧ u.out = .done .ok (.packet q) ∧
        exec (.mbxTake .zero k) u = .next { u with out := .done .timeout .none } ∧
        u.mbx.slot = q ∧ u.mbx.full = true ∧
        ∀ (tmo2 : Timeout) (d : BitVec 4) (x : State), x.mbx.slot = q → x.mbx.full = true → d.toNat < x.cfg.ncons →
          ∃ v, exec (.mbxTake tmo2 d) x = .next v ∧ v.mbx.slot = q ∧ v.mbx.full = true ∧
            (v.out = .done .ok (.packet q) ∨ v.out = .done .timeout .none)

/-- 43_mailbox.md R180 (with 20_memory.md R70): a take changes no flag but its own consumer's and nothing else of the state (but the
answer on the port and, where it is held, its own entry behind the other held takes), and does not affect what another
consumer's take returns. -/
def Obligations.ConsumersAreIndependent : Prop :=
  ∀ (tmo : Timeout) (k d : BitVec 4) (s t : State), k ≠ d → exec (.mbxTake tmo k) s = .next t →
    t = { s with mbx := { s.mbx with fresh := t.mbx.fresh }, out := t.out, held := t.held } ∧
    (t.held = s.held ∨ t.held = s.held ++ [{ consumer := k, tmo := tmo }]) ∧
    t.mbx.fresh.getD d.toNat false = s.mbx.fresh.getD d.toNat false ∧
    ∀ tmo2 : Timeout, ∃ u v, exec (.mbxTake tmo2 d) s = .next u ∧ exec (.mbxTake tmo2 d) t = .next v ∧ u.out = v.out

/-- 10_state.md R38: `full` is set by `MBX_PUBLISH`, requested on the port or issued by the Poll Scheduler, and cleared by no step. -/
def Obligations.FullIsSetByPublishAndNeverCleared : Prop :=
  ∀ s t : State, step s = .next t →
    (s.mbx.full = true → t.mbx.full = true) ∧
    (s.mbx.full = false → t.mbx.full = true →
      (∃ who w ops rest, s.inbox = .request who w ops :: rest ∧ decode s.cfg (.req w) = .ok .mbxPublish) ∨
      ∃ now draw rest cap w, s.inbox = .pollTick now draw :: rest ∧ s.posP = .publish cap w)

/-- 10_state.md R40: `fresh[c] = 1` implies `full = 1`, with one flag per consumer; it holds at reset and every step preserves it. -/
def Obligations.StepKeepsTheMailboxInvariant : Prop :=
  MailboxInv State.reset ∧ (∀ c : Config, MailboxInv (State.ofConfig c)) ∧
  ∀ s t : State, MailboxInv s → step s = .next t → MailboxInv t

/-- 10_state.md R37: while nothing has been published the slot is read by no rule: two machines that differ in the slot alone answer
alike and still differ in the slot alone, or not at all once a publish has overwritten it. -/
def Obligations.SlotIsUnreadWhileEmpty : Prop :=
  ∀ (s t : State) (p : Packet), MailboxInv s → s.mbx.full = false → step s = .next t →
    ∃ u, step { s with mbx := { s.mbx with slot := p } } = .next u ∧
      (t.mbx.full = false → u = { t with mbx := { t.mbx with slot := p } }) ∧ (t.mbx.full = true → u = t)

/-! ## The wire commands and the transmitter -/

/-- 44_sequencers.md R214: `STATUS` builds the 26 symbols of the three `ID_REPLY` bytes, whatever `CS[1]` and the mailbox hold, and the
responder goes on to send them. -/
def Obligations.StatusBuildsTheIdentificationReply : Prop :=
  ∀ s : State, encode s.cfg .status = .cmd 0x00 ∧ ∃ t,
    exec .status s =
      .next { s with port := { s.port with bytes := [s.cfg.idReply.b0, s.cfg.idReply.b1, s.cfg.idReply.b2], cap := 26 },
                     out := .done .ok (.symbols t), posR := .stopCapture t } ∧
    Frame s.cfg 24
      (fun i => ([s.cfg.idReply.b0, s.cfg.idReply.b1, s.cfg.idReply.b2].getD (i / 8) 0).getLsbD (7 - i % 8)) t

/-- 44_sequencers.md R215: `POLL` reads the four bytes of `CS[1]`, and the responder's next turn, whatever happened between the two,
builds 34 symbols from them: bit-symbol `i` carries bit `31 - i` of the word read, then STOP, END; the responder goes on
to send them. That the two operations are two turns is how the model cuts the cycle (notes/assumptions/7.md, 9.md). -/
def Obligations.PollBuildsTheStateReply : Prop :=
  ∀ s : State, encode s.cfg .poll = .cmd 0x01 ∧ ∃ b : List Byte,
    b = [s.cs1.extractLsb' 24 8, s.cs1.extractLsb' 16 8, s.cs1.extractLsb' 8 8, s.cs1.extractLsb' 0 8] ∧
    exec .poll s = .next { s with out := .done .ok (.bytes b), posR := .encode b } ∧
    ∀ (u : State) (d : RecvDraw) (rest : List Event), u.phaseR = .running → u.posR = .encode b →
      u.inbox = .respTick d :: rest →
      ∃ t, step u =
          .next { u with inbox := rest, port := { u.port with bytes := b, cap := 34 },
                         out := .done .ok (.symbols t), posR := .stopCapture t } ∧
        Frame u.cfg 32 (fun i => s.cs1.getLsbD (31 - i)) t

/-- 44_sequencers.md R216: any other command byte builds and transmits nothing, and the cycle ends. -/
def Obligations.UnrecognizedCommandGetsNoReply : Prop :=
  ∀ (s : State) (b : Byte) (draw : RecvDraw) (rest : List Event), s.phaseR = .running → s.posR = .dispatch b →
    s.inbox = .respTick draw :: rest → b ≠ 0x00 → b ≠ 0x01 → step s = .next { s with inbox := rest, posR := .receive }

/-- 30_encoding.md R87, R88, R89 and R90 with 44_sequencers.md R191, as the transmitter meets them: ZERO, ONE and STOP go on the line of the
transmitter that sends, END puts no pulse on it and completes the frame. That the symbol rows of the opcode table act
so is the model's reading (notes/assumptions/8.md). -/
def Obligations.SymbolsGoOnTheLine : Prop :=
  ∀ s : State,
    (s.txSel = .host →
      exec .symZero s = .next { s with perH := { s.perH with line := s.perH.line ++ [wireSymbol s.cfg false] } } ∧
      exec .symOne s = .next { s with perH := { s.perH with line := s.perH.line ++ [wireSymbol s.cfg true] } } ∧
      exec .symStop s = .next { s with perH := { s.perH with line := s.perH.line ++ [s.cfg.stopSymbol] } } ∧
      exec .symEnd s = .next { s with perH := { s.perH with line := [], sent := s.perH.sent ++ [s.perH.line] } }) ∧
    (s.txSel = .device →
      exec .symZero s = .next { s with perD := { s.perD with line := s.perD.line ++ [wireSymbol s.cfg false] } } ∧
      exec .symOne s = .next { s with perD := { s.perD with line := s.perD.line ++ [wireSymbol s.cfg true] } } ∧
      exec .symStop s = .next { s with perD := { s.perD with line := s.perD.line ++ [s.cfg.stopSymbol] } } ∧
      exec .symEnd s = .next { s with perD := { s.perD with line := [], sent := s.perD.sent ++ [s.perD.line] } })

/-- 44_sequencers.md R191: a transmitter puts the symbols before END on the line in index order, one a turn; END ends the frame.
That what stands behind END is still to be sent is the model's choice (notes/assumptions/15.md), and so is the record of what
was sent (notes/assumptions/16.md). -/
def Obligations.TransmitterSendsUpToEndInOrder : Prop :=
  ∀ (s : State) (who : Role) (front back : List Symbol) (rest : List Event), s.cfg.wf →
    (∀ y ∈ front, y ≠ ⟨0, .low, 0, .low⟩) → (s.getPer who).tx = front ++ ⟨0, .low, 0, .low⟩ :: back →
    s.inbox = List.replicate (front.length + 1) (.txTick who) ++ rest →
    Host.Core.run Sys2Proof.core (front.length + 1) s =
      .next { s.setPer who { s.getPer who with
                tx := back, line := [], sent := (s.getPer who).sent ++ [(s.getPer who).line ++ front] } with
              txSel := who, inbox := rest }

/-! ## The agents -/

/-- 44_sequencers.md R199 and R209 with 60_exceptions.md R231: starting an agent starts its capture and sets it running, or aborts it when the
peripheral's configuration fails; an aborted agent issues no operation. The anchor takes `now` in `TS_W` bits (R196): the cut of a wider one is the model's
choice and the width of `ANCHOR` its reading (notes/assumptions/14.md). R199: "That `INIT` starts capture and sets the anchor is
not said in the source." -/
def Obligations.StartingAnAgent : Prop :=
  ∀ (s : State) (now : Nat) (rest : List Event),
    (s.inbox = .startPoll true now :: rest → s.phaseP = .init →
      step s = .next { s with inbox := rest, perH := { s.perH with rxen := true }, anchor := now % 2 ^ s.cfg.tsW,
                              phaseP := .running, posP := .encode }) ∧
    (s.inbox = .startPoll false now :: rest → s.phaseP = .init →
      step s = .next { s with inbox := rest, phaseP := .aborted }) ∧
    (s.inbox = .startResp true :: rest → s.phaseR = .init →
      step s = .next { s with inbox := rest, perD := { s.perD with rxen := true }, phaseR := .running, posR := .receive }) ∧
    (s.inbox = .startResp false :: rest → s.phaseR = .init →
      step s = .next { s with inbox := rest, phaseR := .aborted }) ∧
    ∀ draw, (s.inbox = .pollTick now draw :: rest → s.phaseP = .aborted → step s = .next { s with inbox := rest }) ∧
      (s.inbox = .respTick draw :: rest → s.phaseR = .aborted → step s = .next { s with inbox := rest })

/-- 44_sequencers.md R201: the Poll Scheduler's first two steps encode the byte 0x01 into ten symbols and hand them to its transmitter,
which it does not wait for. That the new symbols stand behind those a transmitter is still sending is the model's choice
(notes/assumptions/15.md; R191 is silent), and the turns are counted as the model cuts the cycle (notes/assumptions/7.md). -/
def Obligations.PollCommandIsTransmitted : Prop :=
  ∀ (s : State) (n m : Nat) (d e : RecvDraw) (rest : List Event), s.phaseP = .running → s.posP = .encode →
    s.inbox = .pollTick n d :: .pollTick m e :: rest →
    ∃ t y, Host.Core.run Sys2Proof.core 2 s = .next t ∧ t.posP = .receive ∧ t.inbox = rest ∧
      Frame s.cfg 8 (fun i => decide (i = 7)) y ∧ t.perH = { s.perH with tx := s.perH.tx ++ y } ∧
      t.cs0 = s.cs0 ∧ t.cs1 = s.cs1 ∧ t.mbx = s.mbx ∧ t.conn = s.conn ∧ t.perD = s.perD

/-- 44_sequencers.md R203: without a capture, or with one below `POLL_MIN`, the indicator goes off, neither `CS[0]` nor the mailbox is
touched, and the cycle goes on to the release; otherwise the indicator goes on and the capture is parsed. -/
def Obligations.GateSetsTheIndicator : Prop :=
  ∀ (s : State) (cap : Option (List Symbol)) (now : Nat) (draw : RecvDraw) (rest : List Event), s.phaseP = .running →
    s.posP = .gate cap → s.inbox = .pollTick now draw :: rest →
    ((∀ c, cap = some c → c.length < s.cfg.pollMin) →
      step s = .next { s with inbox := rest, conn := false, posP := .release cap }) ∧
    ∀ c, cap = some c → s.cfg.pollMin ≤ c.length →
      step s = .next { s with inbox := rest, conn := true, posP := .parse c }

/-- 44_sequencers.md R204 (with R200, R203): a capture that passes the gate turns the indicator on and is decoded from its tenth symbol on
into `CS[0]`; exactly when the word changed, `(CS[0], now)` is published, `now` in `TS_W` bits (00_scope.md R16, 44_sequencers.md R196). The turns
are counted as the model cuts the cycle (notes/assumptions/7.md), and the cut of `now` is notes/assumptions/14.md. -/
def Obligations.PollCyclePublishesExactlyOnChange : Prop :=
  ∀ (s : State) (cap : List Symbol) (w : Word), s.cfg.wf → s.phaseP = .running → s.posP = .gate (some cap) →
    s.cfg.pollMin ≤ cap.length → (∀ i < 32, bitAt s.cfg cap (9 + i) (w.getLsbD (31 - i))) →
    (∀ n1 n2 d1 d2 rest, w = s.cs0 → s.inbox = .pollTick n1 d1 :: .pollTick n2 d2 :: rest →
      ∃ t, Host.Core.run Sys2Proof.core 2 s = .next t ∧ t.conn = true ∧ t.cs0 = w ∧ t.cs1 = s.cs1 ∧ t.mbx = s.mbx ∧
        t.posP = .release (some cap) ∧ t.inbox = rest) ∧
    (∀ n1 n2 n3 n4 d1 d2 d3 d4 rest, w ≠ s.cs0 →
      s.inbox = .pollTick n1 d1 :: .pollTick n2 d2 :: .pollTick n3 d3 :: .pollTick n4 d4 :: rest →
      ∃ t, Host.Core.run Sys2Proof.core 4 s = .next t ∧ t.conn = true ∧ t.cs0 = w ∧ t.cs1 = s.cs1 ∧
        t.mbx = { slot := { state := w, ts := n4 % 2 ^ s.cfg.tsW }, full := true, fresh := List.replicate s.cfg.ncons true } ∧
        t.posP = .release (some cap) ∧ t.inbox = rest)

/-- 44_sequencers.md R206, with `now` in `TS_W` bits and drawn at each use (R196): past the period the anchor moves to now, else it
stays; the agent waits until `now >= ANCHOR + PERIOD` and then advances the anchor by one period. Where `now` is below the anchor,
or the sum does not fit `TS_W` bits, the rule states no value and the model has a free one (notes/assumptions/14.md), so
only the alternatives are stated. "The comparison (`>` against `>=`) and the advance of the anchor after the wait are the
spec's reading". -/
def Obligations.PeriodWaitKeepsTheAnchor : Prop :=
  ∀ r : State, r.phaseP = .running → ∃ d < 2 ^ r.cfg.tsW,
    (r.anchor + r.cfg.period < 2 ^ r.cfg.tsW → d = r.anchor + r.cfg.period) ∧
    ∀ (now n : Nat) (draw : RecvDraw) (rest : List Event) (s : State), n = now % 2 ^ r.cfg.tsW →
      s = { r with inbox := .pollTick now draw :: rest } →
      (s.posP = .periodCheck → s.anchor ≤ n →
        step s = .next { s with inbox := rest, posP := if s.cfg.period < n - s.anchor then .resync else .periodWait }) ∧
      (s.posP = .periodCheck → n < s.anchor →
        step s = .next { s with inbox := rest, posP := .resync } ∨ step s = .next { s with inbox := rest, posP := .periodWait }) ∧
      (s.posP = .resync → step s = .next { s with inbox := rest, anchor := n, posP := .periodWait }) ∧
      (s.posP = .periodWait → d ≤ n → step s = .next { s with inbox := rest, anchor := d, posP := .encode }) ∧
      (s.posP = .periodWait → n < d → step s = .next { s with inbox := rest })

/-- 44_sequencers.md R194 with R202, R210: `receive` lends the drawn capture and removes it from the pending ones; with `BOUNDED` it may
give up or hold; with `FOREVER` it holds and never returns without a capture. A draw that names no pending capture holds. The
form of the draw is the model's (notes/assumptions/5.md, 18.md, 19.md). -/
def Obligations.ReceiveLendsGivesUpOrHolds : Prop :=
  (∀ (s : State) (now : Nat) (rest : List Event), s.phaseP = .running → s.posP = .receive →
    (∀ k cap, s.inbox = .pollTick now (.capture k) :: rest → s.perH.pending[k]? = some cap →
      step s = .next { s with inbox := rest, posP := .gate (some cap),
                              perH := { s.perH with pending := s.perH.pending.eraseIdx k, lent := s.perH.lent ++ [cap] } }) ∧
    (s.inbox = .pollTick now .giveUp :: rest → step s = .next { s with inbox := rest, posP := .gate none }) ∧
    (s.inbox = .pollTick now .wait :: rest → step s = .next { s with inbox := rest }) ∧
    (∀ k, s.inbox = .pollTick now (.capture k) :: rest → s.perH.pending[k]? = none → step s = .next { s with inbox := rest })) ∧
  ∀ (s : State) (rest : List Event), s.phaseR = .running → s.posR = .receive →
    (∀ k cap, s.inbox = .respTick (.capture k) :: rest → s.perD.pending[k]? = some cap →
      step s = .next { s with inbox := rest, posR := .parse cap,
                              perD := { s.perD with pending := s.perD.pending.eraseIdx k, lent := s.perD.lent ++ [cap] } }) ∧
    (∀ draw, (∀ k cap, draw = .capture k → s.perD.pending[k]? ≠ some cap) → s.inbox = .respTick draw :: rest →
      step s = .next { s with inbox := rest })

/-- 44_sequencers.md R211 with R210: the responder parses the capture it was lent and releases it; below eight symbols it goes to the
next cycle with no peek and no change, from eight on it goes to the peek with the decoded byte. The turns are counted as the model
cuts the cycle (notes/assumptions/7.md). -/
def Obligations.ResponderParsesAndReleases : Prop :=
  ∀ (s : State) (cap : List Symbol) (d e : RecvDraw) (rest : List Event), s.phaseR = .running → s.posR = .parse cap →
    s.inbox = .respTick d :: .respTick e :: rest →
    ∃ t, Host.Core.run Sys2Proof.core 2 s = .next t ∧ t.inbox = rest ∧ t.cs0 = s.cs0 ∧ t.cs1 = s.cs1 ∧ t.mbx = s.mbx ∧
      t.perD = { s.perD with lent := s.perD.lent.erase cap } ∧
      (cap.length < 8 → t.posR = .receive) ∧
      (8 ≤ cap.length → ∃ b : Byte, t.posR = .peek b ∧ ∀ k < 8, bitAt s.cfg cap k (b.getLsbD (7 - k)))

/-- 44_sequencers.md R212: the peek is made whatever the command is; a packet's state word goes into `CS[1]`, and without one `CS[1]`
keeps its value; then the dispatch follows. That the refresh is two turns, and the peek that finds nothing one, is how the model
cuts the cycle (notes/assumptions/7.md). -/
def Obligations.RefreshLoadsTheFreshPacket : Prop :=
  ∀ (s : State) (cmd : Byte) (d e : RecvDraw) (rest : List Event), 1 ≤ s.cfg.ncons → s.phaseR = .running →
    s.posR = .peek cmd →
    (s.mbx.fresh.getD 0 false = true → s.inbox = .respTick d :: .respTick e :: rest →
      ∃ t, Host.Core.run Sys2Proof.core 2 s = .next t ∧ t.inbox = rest ∧ t.cs1 = s.mbx.slot.state ∧ t.cs0 = s.cs0 ∧
        t.mbx = { s.mbx with fresh := s.mbx.fresh.set 0 false } ∧ t.posR = .dispatch cmd ∧ t.perD = s.perD) ∧
    (s.mbx.fresh.getD 0 false = false → s.inbox = .respTick d :: rest →
      step s = .next { s with inbox := rest, out := .done .timeout .none, posR := .dispatch cmd })

/-- 44_sequencers.md R220 (with R212, R215): a `POLL` command that meets a fresh packet is answered with the encoding of that packet's
state word, and one that meets none with the encoding of what `CS[1]` already holds. That `CS[1]` is then the word published last, which holds
where the responder itself took that packet, is not stated. The turns are counted as the model cuts the cycle
(notes/assumptions/7.md). -/
def Obligations.PollIsAnsweredWithThePublishedState : Prop :=
  ∀ (s : State) (rest : List Event), 1 ≤ s.cfg.ncons → s.phaseR = .running → s.posR = .peek 0x01 →
    (∀ d1 d2 d3 d4, s.mbx.fresh.getD 0 false = true →
      s.inbox = .respTick d1 :: .respTick d2 :: .respTick d3 :: .respTick d4 :: rest →
      ∃ t y, Host.Core.run Sys2Proof.core 4 s = .next t ∧ t.posR = .stopCapture y ∧ t.inbox = rest ∧
        Frame s.cfg 32 (fun i => s.mbx.slot.state.getLsbD (31 - i)) y) ∧
    (∀ d1 d2 d3, s.mbx.fresh.getD 0 false = false → s.inbox = .respTick d1 :: .respTick d2 :: .respTick d3 :: rest →
      ∃ t y, Host.Core.run Sys2Proof.core 3 s = .next t ∧ t.posR = .stopCapture y ∧ t.inbox = rest ∧
        Frame s.cfg 32 (fun i => s.cs1.getLsbD (31 - i)) y)

/-- 44_sequencers.md R192, R193, R194 with 60_exceptions.md R238: activity on a line adds to the capture in progress while `RXEN = 1`,
each duration in `DUR_W` bits (00_scope.md R10), and produces nothing while `RXEN = 0`; at the end of the burst the capture in
progress becomes the last pending one while `RXEN = 1` and none while `RXEN = 0`, and without one nothing happens. One `RXEN` per
agent, the form of the activity, that a burst keeps what it had when `RXEN` went to 0, and that one begun before is captured
from the start of capture on, are the model's
(notes/assumptions/14.md, 17.md, 18.md, 27.md). -/
def Obligations.CaptureFollowsTheReceiveEnable : Prop :=
  ∀ (s : State) (who : Role) (rest : List Event),
    (∀ y, s.inbox = .activity who y :: rest →
      ((s.getPer who).rxen = true →
        step s = .next { s.setPer who { s.getPer who with
            inProgress := some ((s.getPer who).inProgress.getD [] ++
              y.map fun z => ⟨z.d0 % 2 ^ s.cfg.durW, z.l0, z.d1 % 2 ^ s.cfg.durW, z.l1⟩) } with inbox := rest }) ∧
      ((s.getPer who).rxen = false → step s = .next { s with inbox := rest })) ∧
    (s.inbox = .lineIdle who :: rest →
      (∀ cap, (s.getPer who).inProgress = some cap →
        ((s.getPer who).rxen = true →
          step s = .next { s.setPer who { s.getPer who with
              inProgress := none, pending := (s.getPer who).pending ++ [cap] } with inbox := rest }) ∧
        ((s.getPer who).rxen = false →
          step s = .next { s.setPer who { s.getPer who with inProgress := none } with inbox := rest })) ∧
      ((s.getPer who).inProgress = none → step s = .next { s with inbox := rest }))

/-- 44_sequencers.md R217 with R193: a reply sent in the suppression window reaches the line whole, and its echo, though it appears on the line
symbol by symbol, leaves no capture: nothing in progress or pending that was not before; capture runs again at the end. The record of what was
sent, that a capture in progress stays as it is through the window, and that the echo comes as activity, are the model's
(notes/assumptions/16.md, 17.md, 18.md), and the responder's turns are counted as the model cuts the cycle (notes/assumptions/7.md). -/
def Obligations.ReplyIsSentAndItsEchoNotCaptured : Prop :=
  ∀ (s : State) (front : List Symbol) (d1 d2 d3 d4 : RecvDraw) (echo : Symbol → List Symbol) (rest : List Event),
    s.cfg.wf → s.phaseR = .running → s.posR = .stopCapture (front ++ [s.cfg.stopSymbol, ⟨0, .low, 0, .low⟩]) →
    (∀ y ∈ front, y ≠ ⟨0, .low, 0, .low⟩) → s.perD.tx = [] → s.perD.line = [] →
    s.inbox = .respTick d1 :: .respTick d2 ::
      ((front ++ [s.cfg.stopSymbol, ⟨0, .low, 0, .low⟩]).flatMap fun y => [.txTick .device, .activity .device (echo y)]) ++
      .respTick d3 :: .respTick d4 :: rest →
    Host.Core.run Sys2Proof.core (2 * front.length + 8) s =
      .next { s with perD := { s.perD with rxen := true, sent := s.perD.sent ++ [front ++ [s.cfg.stopSymbol]] },
                     posR := .receive, txSel := .device, inbox := rest }

/-- 44_sequencers.md R207, R218, R221: the Poll Scheduler's turn never touches `CS[1]`, takes nothing and holds nothing; the Command
Responder's turn never touches `CS[0]` and never publishes; neither touches the other's place, phase or peripheral. -/
def Obligations.AgentsKeepToTheirOwnState : Prop :=
  ∀ s t : State, step s = .next t →
    (∀ now draw rest, s.inbox = .pollTick now draw :: rest →
      t.cs1 = s.cs1 ∧ t.perD = s.perD ∧ t.phaseR = s.phaseR ∧ t.posR = s.posR ∧ t.held = s.held ∧
      (t.mbx = s.mbx ∨ ∃ cap w, s.posP = .publish cap w)) ∧
    (∀ draw rest, s.inbox = .respTick draw :: rest →
      t.cs0 = s.cs0 ∧ t.perH = s.perH ∧ t.phaseP = s.phaseP ∧ t.posP = s.posP ∧ t.conn = s.conn ∧ t.anchor = s.anchor ∧
      t.held = s.held ∧ t.mbx.slot = s.mbx.slot ∧ t.mbx.full = s.mbx.full)

/-- 10_state.md R44: the connection indicator is written by the Poll Scheduler alone, at its gate. -/
def Obligations.IndicatorIsTheSchedulersAlone : Prop :=
  ∀ s t : State, step s = .next t → t.conn ≠ s.conn →
    ∃ now draw rest cap, s.inbox = .pollTick now draw :: rest ∧ s.phaseP = .running ∧ s.posP = .gate cap

/-- 70_reset_and_hazards.md R286: `ANCHOR` affects when a cycle starts and nothing about what a cycle does: two machines that differ in the
anchor alone step to states that differ in the anchor and in the scheduler's place alone, and in its place only in the period
wait, between its own places and the start of the next cycle. -/
def Obligations.AnchorOnlyPacesTheCycle : Prop :=
  ∀ (s t : State) (a : Nat), step s = .next t →
    ∃ u, step { s with anchor := a } = .next u ∧ { u with anchor := t.anchor, posP := t.posP } = t ∧
      (u.posP = t.posP ∨
        (s.posP = .periodCheck ∨ s.posP = .periodWait) ∧ u.posP ∈ [PollPos.resync, .periodWait, .encode] ∧
          t.posP ∈ [PollPos.resync, .periodWait, .encode])

/-! ## The whole machine -/

/-- 70_reset_and_hazards.md R259: the configuration is constant. -/
def Obligations.ConfigurationIsConstant : Prop :=
  ∀ s t : State, step s = .next t → t.cfg = s.cfg

/-- 60_exceptions.md R241: an error result of an operation leaves the state exactly as it was, and returns no value. -/
def Obligations.ErrorResultsChangeNothing : Prop :=
  ∀ (i : Instr) (w : ReqWord) (s t : State) (st : Status) (v : Value), encode s.cfg i = .req w → exec i s = .next t →
    t.out = .done st v → st ∈ [Status.malformed, .capacity, .timeout, .illegalOp] →
    t = { s with out := .done st .none }

/-- 30_encoding.md R111: exactly the listed request words select no operation; the block answers them `ILLEGAL_OP` and changes no state
(the port holds the operands presented, each in its width; the cut of a wider one is the model's choice, notes/assumptions/14.md,
and R111 says nothing of it). -/
def Obligations.IllegalWordsAnswerIllegalOp : Prop :=
  ∀ (s : State) (who : Issuer) (w : ReqWord) (ops : Operands) (rest : List Event), s.inbox = .request who w ops :: rest →
    ((∀ i, decode s.cfg (.req w) ≠ .ok i) ↔
      (0xC ≤ w.toNat / 4096 ∨
       (w.toNat / 4096 ≤ 4 ∨ w.toNat / 4096 = 0xA) ∧ w.toNat % 4096 ≠ 0 ∨
       (w.toNat / 4096 = 5 ∨ w.toNat / 4096 = 6 ∨ w.toNat / 4096 = 8 ∨ w.toNat / 4096 = 9) ∧ w.toNat % 2048 ≠ 0 ∨
       w.toNat / 4096 = 7 ∧ (w.toNat / 512 % 4 ≠ 0 ∨ w.toNat % 16 ≠ 0 ∨ 17 < w.toNat / 16 % 32) ∨
       w.toNat / 4096 = 0xB ∧
         (w.toNat / 2048 % 2 ≠ 0 ∨ w.toNat / 16 % 32 ≠ 0 ∨ w.toNat / 512 % 4 = 3 ∨ s.cfg.ncons ≤ w.toNat % 16))) ∧
    ((∀ i, decode s.cfg (.req w) ≠ .ok i) →
      step s = .next { s with inbox := rest, port := cutOperands s.cfg ops, out := .done .illegalOp .none })

/-- 30_encoding.md R108, R99, R87 to R90: for every legal configuration and every instruction it can encode, decoding the code gives the
instruction back, with every operand. -/
def Obligations.DecodingAnEncodedInstructionGivesItBack : Prop :=
  ∀ (c : Config) (i : Instr), c.wf → i.wf c → decode c (encode c i) = .ok i

/-- 30_encoding.md R108, R99, R111: a code that decodes is the one code of the instruction it decodes to, and that instruction is
well formed: no two rows overlap. -/
def Obligations.EachCodeHasOneMeaning : Prop :=
  ∀ (c : Config) (code : Code) (i : Instr), c.wf → decode c code = .ok i → encode c i = code ∧ i.wf c

/-- spec/opcode_table.json and 95_test_vectors.md's request words, written out: one word of each family. That a table
word is read at the default parameters is the model's choice (notes/assumptions/25.md), and the two 32-bit clauses read a
symbol packed as `SYM32` lays it out (notes/assumptions/24.md). -/
def Obligations.TableWordsDecode : Prop :=
  decodeTableWord 16 0x1000 = some .encBuf ∧ decodeTableWord 16 0x5800 = some (.parseState .cs1) ∧
  decodeTableWord 16 0x7910 = some (.csRdField .cs1 17) ∧ decodeTableWord 16 0x70B0 = some (.csRdField .cs0 11) ∧
  decodeTableWord 16 0x9800 = some (.csLdWord .cs1) ∧ decodeTableWord 16 0xB400 = some (.mbxTake .forever 0) ∧
  decodeTableWord 8 0x01 = some .poll ∧ decodeTableWord 8 0x7F = none ∧
  decodeTableWord 32 0x80010003 = some .symZero ∧ decodeTableWord 32 0x80010002 = some .symStop ∧
  decodeTableWord 16 0xB600 = none ∧ decodeTableWord 16 0x7120 = none

/-- A step runs the decoded instruction, where each of the three codes comes from: a request word on the port (30_encoding.md R108), the
command byte at the responder's dispatch (44_sequencers.md R213), the symbol a transmitter sends (44_sequencers.md R191).
A request's operands come in their widths, and those that fit come as they are; its issuer is marked faulted where it receives
`CAPACITY` (60_exceptions.md R229; notes/assumptions/11.md). That inputs stand in one list, that symbols
are executed, and the cut of what does not fit, are the model's choice (notes/assumptions/5.md, 8.md, 14.md). -/
def Obligations.StepRunsTheDecodedInstruction : Prop :=
  ∀ (s : State) (rest : List Event) (i : Instr),
    (∀ who w ops, s.inbox = .request who w ops :: rest → decode s.cfg (.req w) = .ok i →
      ∃ t f, exec i { s with inbox := rest, port := cutOperands s.cfg ops } = .next t ∧
        step s = .next { t with faulted := f } ∧
        f = if t.out = .done .capacity .none ∧ who ∉ t.faulted then t.faulted ++ [who] else t.faulted) ∧
    (∀ ops : Operands, ops.sym.fits s.cfg → AllFit s.cfg ops.syms → ops.packet.fits s.cfg → cutOperands s.cfg ops = ops) ∧
    (∀ b draw, s.inbox = .respTick draw :: rest → s.phaseR = .running → s.posR = .dispatch b →
      decode s.cfg (.cmd b) = .ok i → step s = exec i { s with inbox := rest }) ∧
    (∀ y ys, s.inbox = .txTick .host :: rest → s.perH.tx = y :: ys → decode s.cfg (.sym y) = .ok i →
      step s = exec i { s with inbox := rest, perH := { s.perH with tx := ys }, txSel := .host }) ∧
    (∀ y ys, s.inbox = .txTick .device :: rest → s.perD.tx = y :: ys → decode s.cfg (.sym y) = .ok i →
      step s = exec i { s with inbox := rest, perD := { s.perD with tx := ys }, txSel := .device })

/-- 70_reset_and_hazards.md R256, R257, R258 with 10_state.md R37 to R39 and R44 to R47: what reset leaves, under any configuration. `MBX.slot` and `ANCHOR`, unspecified there,
are not mentioned. Every flag reads 0 and both axes read 0, a first peek returns `TIMEOUT` and a first unbounded take waits. -/
def Obligations.ResetLeavesTheSpecifiedState : Prop :=
  State.reset = State.ofConfig Config.default ∧
  ∀ c : Config, let s := State.ofConfig c
    s.cfg = c ∧ s.cs0 = 0 ∧ s.cs1 = 0 ∧ s.mbx.full = false ∧ s.mbx.fresh.length = c.ncons ∧
    (∀ b ∈ s.mbx.fresh, b = false) ∧ s.conn = false ∧ s.perH.rxen = false ∧ s.perD.rxen = false ∧
    s.phaseP = .init ∧ s.phaseR = .init ∧ s.perH.tx = [] ∧ s.perD.tx = [] ∧ s.perH.lent = [] ∧ s.perD.lent = [] ∧ s.held = [] ∧
    (∀ (r : CsId) (f : BitVec 5),
      (f.toNat ≤ 15 → exec (.csRdField r f) s = .next { s with out := .done .ok (.flag false) }) ∧
      (f.toNat = 16 ∨ f.toNat = 17 → exec (.csRdField r f) s = .next { s with out := .done .ok (.axis 0) })) ∧
    ∀ k : BitVec 4, k.toNat < c.ncons →
      exec (.mbxTake .zero k) s = .next { s with out := .done .timeout .none } ∧
      exec (.mbxTake .forever k) s = .next { s with held := [{ consumer := k, tmo := .forever }], out := .held }

/-- The invariant holds at reset, under the default and under every legal configuration. The clause on the agents' places rests on
the model's reset values (notes/assumptions/31.md). And no agent is marked faulted (notes/assumptions/11.md). -/
def Obligations.ResetMeetsTheInvariant : Prop :=
  Inv State.reset ∧ (∀ c : Config, c.wf → Inv (State.ofConfig c)) ∧ ∀ c : Config, Faultless (State.ofConfig c)

/-- 44_sequencers.md R221, 60_exceptions.md R229 and 10_state.md R40, with R91, R195, R217 and R274: from every state that meets the invariant the machine
makes a step (no agent ever meets `CAPACITY`, no transmit is unterminated) and the invariant holds again. How the machine
takes its inputs, and that an agent not running stands at the start of its cycle, is the model's choice (notes/assumptions/5.md, 7.md,
31.md). -/
def Obligations.EveryStepGoesOnAndKeepsTheInvariant : Prop :=
  ∀ s : State, Inv s → ∃ t, step s = .next t ∧ Inv t

/-- 00_scope.md R10, R16 with 44_sequencers.md R196: what the block holds keeps to its width from reset on: timestamps and the anchor to
`TS_W` bits, the durations on the port, in every capture and in the agents' hands to `DUR_W` bits. That what comes in wider is
cut is the model's choice (notes/assumptions/14.md); that it holds at reset rests on the model's reset values
(notes/assumptions/3.md, 4.md, 29.md). -/
def Obligations.HeldValuesKeepTheirWidth : Prop :=
  (∀ c : Config, WidthInv (State.ofConfig c)) ∧ ∀ s t : State, WidthInv s → step s = .next t → WidthInv t

/-- 70_reset_and_hazards.md R276 with 10_state.md R32: under the premise that a request which names a controller-state register is its
owner's, which every step keeps, `CS[0]` is written by the Poll Scheduler alone, in its parse or by a request of its own, and
`CS[1]` by the Command Responder alone, in its load or by a request of its own. The premise is the rule's; its form is the model's
(notes/assumptions/30.md). -/
def Obligations.OwnershipLeavesEachRegisterItsWriter : Prop :=
  ∀ s t : State, Owned s → step s = .next t →
    Owned t ∧
    (t.cs0 ≠ s.cs0 →
      (∃ now draw rest cap, s.inbox = .pollTick now draw :: rest ∧ s.phaseP = .running ∧ s.posP = .parse cap) ∨
      ∃ w ops rest, s.inbox = .request (.agent .host) w ops :: rest) ∧
    (t.cs1 ≠ s.cs1 →
      (∃ draw rest cmd, s.inbox = .respTick draw :: rest ∧ s.phaseR = .running ∧ s.posR = .load cmd t.cs1) ∨
      ∃ w ops rest, s.inbox = .request (.agent .device) w ops :: rest)
end

