-- ==== Sys2Proof/Laws/Bits.lean ====
section
/-! SUPPORT. Bits and bytes: what a byte shifted in bit by bit holds, and what the four bytes of a word are. -/

namespace Sys2Proof.Machine

@[simp] theorem bitsOfByte_length (b : Byte) : (bitsOfByte b).length = 8 := rfl

@[simp] theorem take_eight_bitsOfByte (b : Byte) : (bitsOfByte b).take 8 = bitsOfByte b := rfl

/-- Bit `k` of the list, from 0, is bit `7 - k` of the byte (spec/20_memory.md R60). -/
theorem bitsOfByte_getElem? (b : Byte) (k : Nat) (h : k < 8) : (bitsOfByte b)[k]? = some (b.getLsbD (7 - k)) := by
  match k, h with
  | 0, _ | 1, _ | 2, _ | 3, _ | 4, _ | 5, _ | 6, _ | 7, _ => rfl

theorem eight_of_length {α : Type} (l : List α) (h : l.length = 8) :
    ∃ a b c d e f g i, l = [a, b, c, d, e, f, g, i] := by
  match l, h with
  | [a, b, c, d, e, f, g, i], _ => exact ⟨a, b, c, d, e, f, g, i, rfl⟩

/-- The first of eight bits is bit 7 (spec/20_memory.md R60; spec/30_encoding.md R105). -/
theorem byteOfBits_eight (a b c d e f g i : Bool) (k : Nat) (h : k < 8) :
    (byteOfBits [a, b, c, d, e, f, g, i]).getLsbD (7 - k) = [a, b, c, d, e, f, g, i].getD k false := by
  have key : ∀ a b c d e f g i : Bool, ∀ k : Fin 8,
      (byteOfBits [a, b, c, d, e, f, g, i]).getLsbD (7 - k.val) = [a, b, c, d, e, f, g, i].getD k.val false := by
    decide
  exact key a b c d e f g i ⟨k, h⟩

theorem byteOfBits_getLsbD (l : List Bool) (h : l.length = 8) (k : Nat) (hk : k < 8) :
    (byteOfBits l).getLsbD (7 - k) = l.getD k false := by
  obtain ⟨a, b, c, d, e, f, g, i, rfl⟩ := eight_of_length l h
  exact byteOfBits_eight a b c d e f g i k hk

/-- Taking a byte apart and shifting it in again gives it back. -/
@[simp] theorem byteOfBits_bitsOfByte (b : Byte) : byteOfBits (bitsOfByte b) = b := by
  revert b; decide

@[simp] theorem bytesOfBits_length (l : List Bool) : (bytesOfBits l).length = l.length / 8 := by
  simp [bytesOfBits]

/-- Byte `j` of the packed bytes (spec/40_codec.md R129). -/
theorem bytesOfBits_getElem? (l : List Bool) (j : Nat) (h : j < l.length / 8) :
    (bytesOfBits l)[j]? = some (byteOfBits ((l.drop (8 * j)).take 8)) := by
  simp [bytesOfBits, List.getElem?_map, List.getElem?_range h]

/-- Bit `7 - k` of byte `j` is bit `8 j + k` of the buffer (spec/20_memory.md R63). -/
theorem bytesOfBits_bit (l : List Bool) (j k : Nat) (h : j < l.length / 8) (hk : k < 8) :
    ((bytesOfBits l).getD j 0).getLsbD (7 - k) = l.getD (8 * j + k) false := by
  rw [List.getD_eq_getElem?_getD, bytesOfBits_getElem? l j h, Option.getD_some, byteOfBits_getLsbD _ _ k hk]
  · simp [List.getD_eq_getElem?_getD, hk, List.getElem?_drop]
  · simp; omega

theorem flatMap_bitsOfByte_length (bytes : List Byte) : (bytes.flatMap bitsOfByte).length = 8 * bytes.length := by
  induction bytes with
  | nil => rfl
  | cons b rest ih => simp [ih]; omega

/-- Packing the bits of whole bytes gives the bytes back. -/
theorem bytesOfBits_flatMap (bytes : List Byte) : bytesOfBits (bytes.flatMap bitsOfByte) = bytes := by
  induction bytes with
  | nil => rfl
  | cons b rest ih =>
    have len : ((b :: rest).flatMap bitsOfByte).length / 8 = rest.length + 1 := by
      rw [flatMap_bitsOfByte_length, List.length_cons]; omega
    have lenR : (rest.flatMap bitsOfByte).length / 8 = rest.length := by
      rw [flatMap_bitsOfByte_length]; omega
    unfold bytesOfBits at ih ⊢
    rw [lenR] at ih
    rw [len, List.range_succ_eq_map, List.map_cons, List.map_map]
    have head : byteOfBits (((b :: rest).flatMap bitsOfByte |>.drop (8 * 0)).take 8) = b := by
      simp [List.flatMap_cons, List.take_append]
    have tail : (List.range rest.length).map
        ((fun j => byteOfBits ((((b :: rest).flatMap bitsOfByte).drop (8 * j)).take 8)) ∘ Nat.succ) = rest := by
      refine Eq.trans (List.map_congr_left fun j _ => ?_) ih
      have skip : (bitsOfByte b).drop (8 + 8 * j) = [] := List.drop_of_length_le (by simp)
      simp only [Function.comp, List.flatMap_cons, Nat.succ_eq_add_one, show 8 * (j + 1) = 8 + 8 * j by omega,
        List.drop_append, skip, bitsOfByte_length, List.nil_append, Nat.add_sub_cancel_left]
    rw [head, tail]

/-- The word made of four bytes, bit by bit: byte 0 holds bits 31 to 24 (spec/30_encoding.md R107). -/
theorem word_of_bytes_getLsbD (a b c d : Byte) (i : Nat) (h : i < 32) :
    (a ++ b ++ c ++ d : Word).getLsbD (31 - i) = ([a, b, c, d].getD (i / 8) 0).getLsbD (7 - i % 8) := by
  have hi : i / 8 = 0 ∨ i / 8 = 1 ∨ i / 8 = 2 ∨ i / 8 = 3 := by omega
  have key : (a ++ b ++ c ++ d : BitVec 32).getLsbD (31 - i) =
      if 31 - i < 8 then d.getLsbD (31 - i) else if 31 - i - 8 < 8 then c.getLsbD (31 - i - 8)
      else if 31 - i - 8 - 8 < 8 then b.getLsbD (31 - i - 8 - 8) else a.getLsbD (31 - i - 8 - 8 - 8) := by
    simp only [BitVec.getLsbD_append]
  rw [key]
  rcases hi with h0 | h0 | h0 | h0 <;> rw [h0] <;> simp only [List.getD_cons_zero, List.getD_cons_succ]
  · rw [if_neg (by omega), if_neg (by omega), if_neg (by omega)]; congr 1; omega
  · rw [if_neg (by omega), if_neg (by omega), if_pos (by omega)]; congr 1; omega
  · rw [if_neg (by omega), if_pos (by omega)]; congr 1; omega
  · rw [if_pos (by omega)]; congr 1; omega

end Sys2Proof.Machine
end

