-- ==== Sys2Proof/Laws/Codec.lean ====
section
/-! SUPPORT. What the encoder's buffers, the decoder's bits and the framer's fields hold, symbol by symbol. -/

namespace Sys2Proof.Machine

variable (c : Config)

@[simp] theorem dataSymbols_nil : dataSymbols c [] = [] := rfl

@[simp] theorem dataSymbols_cons (b : Byte) (l : List Byte) :
    dataSymbols c (b :: l) = (bitsOfByte b).map (symbolOfBit c) ++ dataSymbols c l := rfl

/-- "every encoded bit produces exactly one PulseSymbol" (spec/30_encoding.md R91). -/
@[simp] theorem dataSymbols_length (l : List Byte) : (dataSymbols c l).length = 8 * l.length := by
  induction l with
  | nil => rfl
  | cons b l ih => simp [ih]; omega

/-- The data symbols are the symbols of the bytes' bits, in order. -/
theorem dataSymbols_eq_map (l : List Byte) : dataSymbols c l = (l.flatMap bitsOfByte).map (symbolOfBit c) := by
  induction l with
  | nil => rfl
  | cons b l ih => simp [ih]

/-- An encoded buffer of `n` bytes has exactly `8n + 2` symbols (spec/30_encoding.md R91). -/
@[simp] theorem encodedBuffer_length (l : List Byte) : (encodedBuffer c l).length = 8 * l.length + 2 := by
  simp [encodedBuffer]

/-- Symbol `i` carries bit `7 - i mod 8` of byte `i div 8` (spec/20_memory.md R63). -/
theorem dataSymbols_getElem? (l : List Byte) (i : Nat) (h : i < 8 * l.length) :
    (dataSymbols c l)[i]? = some (symbolOfBit c ((l.getD (i / 8) 0).getLsbD (7 - i % 8))) := by
  induction l generalizing i with
  | nil => simp at h
  | cons b l ih =>
    rw [dataSymbols_cons]
    by_cases hi : i < 8
    · rw [List.getElem?_append_left (by simpa using hi), List.getElem?_map, bitsOfByte_getElem? b i hi,
        Nat.div_eq_of_lt hi, Nat.mod_eq_of_lt hi]
      rfl
    · have h8 : ((bitsOfByte b).map (symbolOfBit c)).length = 8 := by simp
      rw [List.getElem?_append_right (by omega), h8, ih (i - 8) (by simp at h; omega)]
      have e1 : i / 8 = (i - 8) / 8 + 1 := by omega
      have e2 : (i - 8) % 8 = i % 8 := by omega
      rw [e1, List.getD_cons_succ, e2]

theorem encodedBuffer_data (l : List Byte) (i : Nat) (h : i < 8 * l.length) :
    (encodedBuffer c l)[i]? = some (symbolOfBit c ((l.getD (i / 8) 0).getLsbD (7 - i % 8))) := by
  rw [encodedBuffer, List.getElem?_append_left (by simpa using h), dataSymbols_getElem? c l i h]

theorem encodedBuffer_stop (l : List Byte) : (encodedBuffer c l)[8 * l.length]? = some (stopSymbol c) := by
  rw [encodedBuffer, List.getElem?_append_right (by simp)]; simp

theorem encodedBuffer_end (l : List Byte) : (encodedBuffer c l)[8 * l.length + 1]? = some endSymbol := by
  rw [encodedBuffer, List.getElem?_append_right (by simp)]; simp

/-- Every buffer the encoder builds may be transmitted (spec/44_sequencers.md R191). -/
@[simp] theorem endsInStopEnd_encodedBuffer (l : List Byte) : endsInStopEnd c (encodedBuffer c l) = true := by
  simp [endsInStopEnd, encodedBuffer]

/-- The bit `7 - k` of a byte in a capture is the class of its symbol `k` (spec/30_encoding.md R105). -/
theorem byteAt_getLsbD (syms : List Symbol) (at0 k : Nat) (h : at0 + 8 ≤ syms.length) (hk : k < 8) :
    (byteAt c syms at0).getLsbD (7 - k) = (syms.map (classifyBit c)).getD (at0 + k) false := by
  rw [byteAt, byteOfBits_getLsbD _ (by simp; omega) k hk]
  simp [List.getD_eq_getElem?_getD, hk]

/-- The bit `31 - i` of a word in a capture is the class of its symbol `i` (spec/20_memory.md R63; spec/30_encoding.md R107). -/
theorem wordAt_getLsbD (syms : List Symbol) (at0 i : Nat) (h : at0 + 32 ≤ syms.length) (hi : i < 32) :
    (wordAt c syms at0).getLsbD (31 - i) = (syms.map (classifyBit c)).getD (at0 + i) false := by
  have hk : i % 8 < 8 := by omega
  have four : i / 8 = 0 ∨ i / 8 = 1 ∨ i / 8 = 2 ∨ i / 8 = 3 := by omega
  rw [wordAt, word_of_bytes_getLsbD _ _ _ _ i hi]
  rcases four with h0 | h0 | h0 | h0 <;> rw [h0] <;> simp only [List.getD_cons_zero, List.getD_cons_succ] <;>
    rw [byteAt_getLsbD c syms _ _ (by omega) hk] <;> congr 1 <;> omega

/-- The class of a symbol that is there. -/
theorem classified_getD (syms : List Symbol) (i : Nat) (h : i < syms.length) :
    ∃ y, syms[i]? = some y ∧ (syms.map (classifyBit c)).getD i false = decide (y.d0 < c.thresh) := by
  exact ⟨syms[i], by simp [h], by simp [List.getD_eq_getElem?_getD, h, classifyBit]⟩

/-- `wordAt` of a buffer without its first `k` symbols is `wordAt` of the buffer at `k` (spec/00_scope.md R26). -/
theorem wordAt_drop (syms : List Symbol) (k at0 : Nat) : wordAt c (syms.drop k) at0 = wordAt c syms (k + at0) := by
  simp [wordAt, byteAt, List.drop_drop, Nat.add_assoc]

/-- Under WF2 a symbol of the encoder, looped back, classifies as the bit it carries (spec/40_codec.md R132). -/
theorem classify_loop_symbol (k : Nat) (h : c.wf2 k) (v : Bool) :
    classifyBit c (loopSymbol k (symbolOfBit c v)) = v := by
  obtain ⟨hs, hl, -⟩ := h
  cases v
  · simp only [symbolOfBit, loopSymbol, classifyBit, zeroSymbol]; exact decide_eq_false (by simpa using hl)
  · simp only [symbolOfBit, loopSymbol, classifyBit, oneSymbol]; exact decide_eq_true (by simpa using hs)

/-- The four bytes of a word, bit by bit (spec/10_state.md R35). -/
theorem wordBytes_bit (w : Word) (i : Nat) (h : i < 32) :
    ((wordBytes w).getD (i / 8) 0).getLsbD (7 - i % 8) = w.getLsbD (31 - i) := by
  have four : i / 8 = 0 ∨ i / 8 = 1 ∨ i / 8 = 2 ∨ i / 8 = 3 := by omega
  have hk : 7 - i % 8 < 8 := by omega
  rcases four with h0 | h0 | h0 | h0 <;> rw [h0] <;>
    simp only [wordBytes, List.getD_cons_zero, List.getD_cons_succ, BitVec.getLsbD_extractLsb', hk, decide_true,
      Bool.true_and] <;> congr 1 <;> omega

end Sys2Proof.Machine
end

