-- ==== Sys2Proof/Laws/State.lean ====
section
/-! SUPPORT. One lemma per field per named update of State, true by the update's form, so that no later proof unfolds a
record update; and what the accessors read after an update. -/

namespace Sys2Proof.Machine

section
variable (s : State)

/-! ## respond -/

@[simp] theorem State.respond_cfg (st : Status) (v : Value) : (s.respond st v).cfg = s.cfg := rfl
@[simp] theorem State.respond_cs0 (st : Status) (v : Value) : (s.respond st v).cs0 = s.cs0 := rfl
@[simp] theorem State.respond_cs1 (st : Status) (v : Value) : (s.respond st v).cs1 = s.cs1 := rfl
@[simp] theorem State.respond_mbx (st : Status) (v : Value) : (s.respond st v).mbx = s.mbx := rfl
@[simp] theorem State.respond_conn (st : Status) (v : Value) : (s.respond st v).conn = s.conn := rfl
@[simp] theorem State.respond_perH (st : Status) (v : Value) : (s.respond st v).perH = s.perH := rfl
@[simp] theorem State.respond_perD (st : Status) (v : Value) : (s.respond st v).perD = s.perD := rfl
@[simp] theorem State.respond_phaseP (st : Status) (v : Value) : (s.respond st v).phaseP = s.phaseP := rfl
@[simp] theorem State.respond_phaseR (st : Status) (v : Value) : (s.respond st v).phaseR = s.phaseR := rfl
@[simp] theorem State.respond_anchor (st : Status) (v : Value) : (s.respond st v).anchor = s.anchor := rfl
@[simp] theorem State.respond_posP (st : Status) (v : Value) : (s.respond st v).posP = s.posP := rfl
@[simp] theorem State.respond_posR (st : Status) (v : Value) : (s.respond st v).posR = s.posR := rfl
@[simp] theorem State.respond_held (st : Status) (v : Value) : (s.respond st v).held = s.held := rfl
@[simp] theorem State.respond_faulted (st : Status) (v : Value) : (s.respond st v).faulted = s.faulted := rfl
@[simp] theorem State.respond_port (st : Status) (v : Value) : (s.respond st v).port = s.port := rfl
@[simp] theorem State.respond_txSel (st : Status) (v : Value) : (s.respond st v).txSel = s.txSel := rfl
@[simp] theorem State.respond_inbox (st : Status) (v : Value) : (s.respond st v).inbox = s.inbox := rfl

@[simp] theorem State.respond_out (st : Status) (v : Value) : (s.respond st v).out = .done st v := rfl

/-! ## markFaulted and received: the marks alone change -/

theorem State.markFaulted_eq (who : Issuer) :
    s.markFaulted who = { s with faulted := if who ∈ s.faulted then s.faulted else s.faulted ++ [who] } := by
  unfold State.markFaulted
  split <;> rfl

theorem State.received_eq (who : Issuer) : s.received who = { s with faulted := (s.received who).faulted } := by
  unfold State.received
  split
  · rw [State.markFaulted_eq]
  · rfl

theorem State.received_faulted (who : Issuer) :
    (s.received who).faulted =
      if s.out = .done .capacity .none ∧ who ∉ s.faulted then s.faulted ++ [who] else s.faulted := by
  unfold State.received State.markFaulted
  by_cases ho : s.out = .done .capacity .none <;> by_cases hw : who ∈ s.faulted <;> simp [ho, hw]

/-- Without `CAPACITY` nobody is marked. -/
theorem State.received_other (who : Issuer) (h : s.out ≠ .done .capacity .none) : s.received who = s :=
  if_neg h

/-! ## setCs -/

@[simp] theorem State.setCs_cfg (r : CsId) (w : Word) : (s.setCs r w).cfg = s.cfg := by cases r <;> rfl
@[simp] theorem State.setCs_mbx (r : CsId) (w : Word) : (s.setCs r w).mbx = s.mbx := by cases r <;> rfl
@[simp] theorem State.setCs_conn (r : CsId) (w : Word) : (s.setCs r w).conn = s.conn := by cases r <;> rfl
@[simp] theorem State.setCs_perH (r : CsId) (w : Word) : (s.setCs r w).perH = s.perH := by cases r <;> rfl
@[simp] theorem State.setCs_perD (r : CsId) (w : Word) : (s.setCs r w).perD = s.perD := by cases r <;> rfl
@[simp] theorem State.setCs_phaseP (r : CsId) (w : Word) : (s.setCs r w).phaseP = s.phaseP := by cases r <;> rfl
@[simp] theorem State.setCs_phaseR (r : CsId) (w : Word) : (s.setCs r w).phaseR = s.phaseR := by cases r <;> rfl
@[simp] theorem State.setCs_anchor (r : CsId) (w : Word) : (s.setCs r w).anchor = s.anchor := by cases r <;> rfl
@[simp] theorem State.setCs_posP (r : CsId) (w : Word) : (s.setCs r w).posP = s.posP := by cases r <;> rfl
@[simp] theorem State.setCs_posR (r : CsId) (w : Word) : (s.setCs r w).posR = s.posR := by cases r <;> rfl
@[simp] theorem State.setCs_held (r : CsId) (w : Word) : (s.setCs r w).held = s.held := by cases r <;> rfl
@[simp] theorem State.setCs_faulted (r : CsId) (w : Word) : (s.setCs r w).faulted = s.faulted := by cases r <;> rfl
@[simp] theorem State.setCs_port (r : CsId) (w : Word) : (s.setCs r w).port = s.port := by cases r <;> rfl
@[simp] theorem State.setCs_out (r : CsId) (w : Word) : (s.setCs r w).out = s.out := by cases r <;> rfl
@[simp] theorem State.setCs_txSel (r : CsId) (w : Word) : (s.setCs r w).txSel = s.txSel := by cases r <;> rfl
@[simp] theorem State.setCs_inbox (r : CsId) (w : Word) : (s.setCs r w).inbox = s.inbox := by cases r <;> rfl

@[simp] theorem State.getCs_setCs_same (r : CsId) (w : Word) : (s.setCs r w).getCs r = w := by cases r <;> rfl

@[simp] theorem State.getCs_setCs_other (r q : CsId) (w : Word) (h : q ≠ r) : (s.setCs r w).getCs q = s.getCs q := by
  cases r <;> cases q <;> first | rfl | exact absurd rfl h

@[simp] theorem State.getCs_respond (r : CsId) (st : Status) (v : Value) : (s.respond st v).getCs r = s.getCs r := by
  cases r <;> rfl

/-! ## setPer -/

@[simp] theorem State.setPer_cfg (who : Role) (p : Peripheral) : (s.setPer who p).cfg = s.cfg := by cases who <;> rfl
@[simp] theorem State.setPer_cs0 (who : Role) (p : Peripheral) : (s.setPer who p).cs0 = s.cs0 := by cases who <;> rfl
@[simp] theorem State.setPer_cs1 (who : Role) (p : Peripheral) : (s.setPer who p).cs1 = s.cs1 := by cases who <;> rfl
@[simp] theorem State.setPer_mbx (who : Role) (p : Peripheral) : (s.setPer who p).mbx = s.mbx := by cases who <;> rfl
@[simp] theorem State.setPer_conn (who : Role) (p : Peripheral) : (s.setPer who p).conn = s.conn := by cases who <;> rfl
@[simp] theorem State.setPer_phaseP (who : Role) (p : Peripheral) : (s.setPer who p).phaseP = s.phaseP := by cases who <;> rfl
@[simp] theorem State.setPer_phaseR (who : Role) (p : Peripheral) : (s.setPer who p).phaseR = s.phaseR := by cases who <;> rfl
@[simp] theorem State.setPer_anchor (who : Role) (p : Peripheral) : (s.setPer who p).anchor = s.anchor := by cases who <;> rfl
@[simp] theorem State.setPer_posP (who : Role) (p : Peripheral) : (s.setPer who p).posP = s.posP := by cases who <;> rfl
@[simp] theorem State.setPer_posR (who : Role) (p : Peripheral) : (s.setPer who p).posR = s.posR := by cases who <;> rfl
@[simp] theorem State.setPer_held (who : Role) (p : Peripheral) : (s.setPer who p).held = s.held := by cases who <;> rfl
@[simp] theorem State.setPer_faulted (who : Role) (p : Peripheral) : (s.setPer who p).faulted = s.faulted := by cases who <;> rfl
@[simp] theorem State.setPer_port (who : Role) (p : Peripheral) : (s.setPer who p).port = s.port := by cases who <;> rfl
@[simp] theorem State.setPer_out (who : Role) (p : Peripheral) : (s.setPer who p).out = s.out := by cases who <;> rfl
@[simp] theorem State.setPer_txSel (who : Role) (p : Peripheral) : (s.setPer who p).txSel = s.txSel := by cases who <;> rfl
@[simp] theorem State.setPer_inbox (who : Role) (p : Peripheral) : (s.setPer who p).inbox = s.inbox := by cases who <;> rfl

@[simp] theorem State.getPer_setPer_same (who : Role) (p : Peripheral) : (s.setPer who p).getPer who = p := by
  cases who <;> rfl

@[simp] theorem State.getPer_setPer_other (who oth : Role) (p : Peripheral) (h : oth ≠ who) :
    (s.setPer who p).getPer oth = s.getPer oth := by
  cases who <;> cases oth <;> first | rfl | exact absurd rfl h

@[simp] theorem State.getPer_host : s.getPer .host = s.perH := rfl

@[simp] theorem State.getPer_device : s.getPer .device = s.perD := rfl

@[simp] theorem State.setPer_host (p : Peripheral) : s.setPer .host p = { s with perH := p } := rfl

@[simp] theorem State.setPer_device (p : Peripheral) : s.setPer .device p = { s with perD := p } := rfl

@[simp] theorem State.getCs_cs0 : s.getCs .cs0 = s.cs0 := rfl

@[simp] theorem State.getCs_cs1 : s.getCs .cs1 = s.cs1 := rfl

@[simp] theorem State.setCs_cs0_eq (w : Word) : s.setCs .cs0 w = { s with cs0 := w } := rfl

@[simp] theorem State.setCs_cs1_eq (w : Word) : s.setCs .cs1 w = { s with cs1 := w } := rfl

end

end Sys2Proof.Machine
end

