-- ==== Sys2Proof/Laws/Ops.lean ====
section
/-! SUPPORT. What each shared operation does, said once: results and errors, the mailbox, the peripheral, transmitting. -/

namespace Sys2Proof.Machine

@[simp] theorem raise_eq (st : Status) (s : State) : raise st s = .next (s.respond st .none) := rfl

@[simp] theorem andThen_next (s : State) (k : PortOut → State → Result) : andThen (.next s) k = k s.out s := rfl

theorem respond_eq (s : State) (st : Status) (v : Value) : s.respond st v = { s with out := .done st v } := rfl

/-! ## The mailbox -/

section
variable (m : Mailbox)

@[simp] theorem published_slot (n : Nat) (p : Packet) : (m.published n p).slot = p := rfl

@[simp] theorem published_full (n : Nat) (p : Packet) : (m.published n p).full = true := rfl

@[simp] theorem published_fresh (n : Nat) (p : Packet) : (m.published n p).fresh = List.replicate n true := rfl

@[simp] theorem taken_slot (k : BitVec 4) : (m.taken k).slot = m.slot := rfl

@[simp] theorem taken_full (k : BitVec 4) : (m.taken k).full = m.full := rfl

@[simp] theorem taken_fresh (k : BitVec 4) : (m.taken k).fresh = m.fresh.set k.toNat false := rfl

/-- A publish makes every consumer's flag 1 (spec/43_mailbox.md R171). -/
theorem published_freshOf (n : Nat) (p : Packet) (k : BitVec 4) (h : k.toNat < n) : (m.published n p).freshOf k = true := by
  simp [Mailbox.freshOf, List.getD_eq_getElem?_getD, h]

/-- A take clears the taker's flag (spec/43_mailbox.md R173). -/
@[simp] theorem taken_freshOf_same (k : BitVec 4) : (m.taken k).freshOf k = false := by
  simp only [Mailbox.freshOf, taken_fresh, List.getD_eq_getElem?_getD]
  by_cases h : k.toNat < m.fresh.length
  · simp [h]
  · simp [h]

/-- A take leaves the other consumers' flags alone (spec/43_mailbox.md R180). -/
theorem taken_freshOf_other (k d : BitVec 4) (h : k ≠ d) : (m.taken k).freshOf d = m.freshOf d := by
  have hn : k.toNat ≠ d.toNat := fun e => h (BitVec.eq_of_toNat_eq e)
  simp [Mailbox.freshOf, List.getD_eq_getElem?_getD, hn]

theorem takeCase_waiting (tmo : Timeout) (k : BitVec 4) (h : tmo ≠ .zero) :
    m.takeCase tmo k = if m.full then .now else .hold := by
  cases tmo <;> first | rfl | exact absurd rfl h

/-- A take that completes at once met its flag set, if it is a peek, or else a full mailbox. -/
theorem takeCase_zero (k : BitVec 4) : m.takeCase .zero k = if m.freshOf k then .now else .timeout := rfl

/-- The classes ask only for the taker's flag and for `full`. -/
theorem takeCase_congr (n : Mailbox) (tmo : Timeout) (k : BitVec 4) (hf : n.full = m.full) (hk : n.freshOf k = m.freshOf k) :
    n.takeCase tmo k = m.takeCase tmo k := by
  cases tmo <;> simp [Mailbox.takeCase, hf, hk]

end

/-! ## The peripheral -/

section
variable (p : Peripheral)

@[simp] theorem startCapture_eq : p.startCapture = { p with rxen := true } := rfl

@[simp] theorem stopCapture_eq : p.stopCapture = { p with rxen := false } := rfl

@[simp] theorem queue_eq (t : List Symbol) : p.queue t = { p with tx := p.tx ++ t } := rfl

@[simp] theorem putOnLine_eq (y : Symbol) : p.putOnLine y = { p with line := p.line ++ [y] } := rfl

@[simp] theorem endFrame_eq : p.endFrame = { p with line := [], sent := p.sent ++ [p.line] } := rfl

@[simp] theorem release_eq (cap : List Symbol) : p.release cap = { p with lent := p.lent.erase cap } := rfl

/-- With `RXEN = 0` activity leaves no trace (spec/44_sequencers.md R193). -/
theorem activity_off (y : List Symbol) (h : p.rxen = false) : p.activity y = p := by
  simp [Peripheral.activity, h]

theorem activity_on (y : List Symbol) (h : p.rxen = true) :
    p.activity y = { p with inProgress := some (p.inProgress.getD [] ++ y) } := by
  simp [Peripheral.activity, h]

/-- Activity touches nothing but the capture in progress, which holds only what it held and what appeared. -/
theorem activity_frame (y : List Symbol) :
    ∃ g, p.activity y = { p with inProgress := g } ∧
      ∀ cap, g = some cap → ∀ z ∈ cap, (∃ old, p.inProgress = some old ∧ z ∈ old) ∨ z ∈ y := by
  rcases Bool.eq_false_or_eq_true p.rxen with hr | hr
  · refine ⟨_, activity_on p y hr, ?_⟩
    rintro cap ⟨⟩ z hz
    cases hg : p.inProgress with
    | none => exact .inr (by simpa [hg] using hz)
    | some old => exact (List.mem_append.1 (show z ∈ old ++ y by simpa [hg] using hz)).imp (fun h => ⟨old, rfl, h⟩) id
  · exact ⟨p.inProgress, activity_off p y hr, fun cap hc z hz => .inl ⟨cap, hc, hz⟩⟩

theorem lineIdle_none (h : p.inProgress = none) : p.lineIdle = p := by
  simp [Peripheral.lineIdle, h]

theorem lineIdle_on (cap : List Symbol) (h : p.inProgress = some cap) (hr : p.rxen = true) :
    p.lineIdle = { p with inProgress := none, pending := p.pending ++ [cap] } := by
  simp [Peripheral.lineIdle, h, hr]

/-- A burst that ends with `RXEN = 0` is lost (spec/60_exceptions.md R238). -/
theorem lineIdle_off (cap : List Symbol) (h : p.inProgress = some cap) (hr : p.rxen = false) :
    p.lineIdle = { p with inProgress := none } := by
  simp [Peripheral.lineIdle, h, hr]

/-- The end of a burst touches nothing but the captures: none is in progress any more, and a finished one is the one that was
(spec/10_state.md R54). -/
theorem lineIdle_frame :
    ∃ q, p.lineIdle = { p with inProgress := none, pending := q } ∧
      ∀ cap ∈ q, cap ∈ p.pending ∨ p.inProgress = some cap := by
  cases hg : p.inProgress with
  | none => exact ⟨p.pending, by rw [lineIdle_none p hg, ← hg], fun cap h => .inl h⟩
  | some old =>
    rcases Bool.eq_false_or_eq_true p.rxen with hr | hr
    · exact ⟨_, lineIdle_on p old hg hr, fun cap h => by simpa [eq_comm] using h⟩
    · exact ⟨p.pending, lineIdle_off p old hg hr, fun cap h => .inl h⟩

/-- All a `receive` can come to: a pending capture, lent; nothing; or holding on. -/
theorem receive_cases (tmo : Timeout) (d : RecvDraw) :
    (∃ k cap, d = .capture k ∧ p.pending[k]? = some cap ∧
      p.receive tmo d = .got cap { p with pending := p.pending.eraseIdx k, lent := p.lent ++ [cap] }) ∨
    (p.receive tmo d = .nothing ∧ tmo ≠ .forever) ∨ p.receive tmo d = .hold := by
  cases d with
  | capture k =>
    cases h : p.pending[k]? with
    | some cap => exact .inl ⟨k, cap, rfl, h, by simp [Peripheral.receive, h]⟩
    | none => cases tmo <;> simp [Peripheral.receive, h, noCapture]
  | giveUp => cases tmo <;> simp [Peripheral.receive, noCapture]
  | wait => cases tmo <;> simp [Peripheral.receive, noCapture]

end

/-- A transmit that goes on queued the buffer, and the buffer ended in STOP, END (spec/44_sequencers.md R191). -/
theorem transmit_next {who : Role} {y : List Symbol} {s t : State} (h : transmit who y s = .next t) :
    endsInStopEnd s.cfg y = true ∧ t = s.setPer who ((s.getPer who).queue y) := by
  unfold transmit at h
  split at h
  · next he => exact ⟨he, (Host.Outcome.next.inj h).symm⟩
  · cases h

theorem transmit_ok {who : Role} {y : List Symbol} {s : State} (h : endsInStopEnd s.cfg y = true) :
    transmit who y s = .next (s.setPer who ((s.getPer who).queue y)) := by
  simp [transmit, h]

end Sys2Proof.Machine
end

