-- ==== Sys2Proof/Laws/Exec.lean ====
section
/-! SUPPORT. What an instruction can do, said once: every instruction answers a next state, and that state is one of eight
kinds. Each claim over all instructions is a case analysis of `exec_next_cases`. -/

namespace Sys2Proof.Machine

/-! ## The codec's operations in closed form -/

theorem execEncBit_eq (s : State) :
    execEncBit s = .next { s with out := .done .ok (.symbol (symbolOfBit s.cfg s.port.bit)) } := rfl

theorem execEncBuf_fits (s : State) (h : 8 * s.port.bytes.length + 2 ≤ s.port.cap) :
    execEncBuf s = .next { s with out := .done .ok (.symbols (encodedBuffer s.cfg s.port.bytes)) } :=
  if_neg (by omega)

theorem execEncBuf_small (s : State) (h : s.port.cap < 8 * s.port.bytes.length + 2) :
    execEncBuf s = .next { s with out := .done .capacity .none } :=
  if_pos h

theorem execClassify_eq (s : State) :
    execClassify s = .next { s with out := .done .ok (.bit (classifyBit s.cfg s.port.sym)) } := rfl

theorem execDecBits_eq (s : State) :
    execDecBits s =
      .next { s with out := .done .ok (.decoded (s.port.syms.map (classifyBit s.cfg))
                                        (bytesOfBits (s.port.syms.map (classifyBit s.cfg)))) } := rfl

/-! ## The wire commands in closed form -/

/-- The replies of the wire commands: the buffer is encoded and the responder goes on to send it. -/
theorem buildReply_eq (bytes : List Byte) (cap : Nat) (s : State) (h : 8 * bytes.length + 2 ≤ cap) :
    buildReply bytes cap s =
      .next { s with port := { s.port with bytes := bytes, cap := cap },
                     out := .done .ok (.symbols (encodedBuffer s.cfg bytes)),
                     posR := .stopCapture (encodedBuffer s.cfg bytes) } := by
  simp [buildReply, execEncBuf, show ¬ cap < 8 * bytes.length + 2 by omega, respond_eq]

theorem execStatus_eq (s : State) :
    execStatus s =
      .next { s with port := { s.port with bytes := idBytes s.cfg, cap := 26 },
                     out := .done .ok (.symbols (encodedBuffer s.cfg (idBytes s.cfg))),
                     posR := .stopCapture (encodedBuffer s.cfg (idBytes s.cfg)) } :=
  buildReply_eq _ _ _ (by simp [idBytes])

theorem execPoll_eq (s : State) :
    execPoll s = .next { s with out := .done .ok (.bytes (wordBytes s.cs1)), posR := .encode (wordBytes s.cs1) } := rfl

/-- Bytes beyond the capacity stop the agent (spec/60_exceptions.md R229). -/
theorem buildReply_small (bytes : List Byte) (cap : Nat) (s : State) (h : cap < 8 * bytes.length + 2) :
    buildReply bytes cap s = .fault (.capacityBug .device) := by
  simp [buildReply, execEncBuf, h, respond_eq]

/-- A reading of a next state as one of the kinds an instruction can come to. -/
inductive Effect (i : Instr) (s : State) : State → Prop where
  /-- Only the port's answer is written: a pure operation, a read, or an error result. -/
  | answer (v : PortOut) : Effect i s { s with out := v }
  /-- A controller-state register is written, by a parse of enough symbols or by a load. -/
  | register (r : CsId) (w : Word) (v : PortOut)
      (h : i = .parseState r ∧ 32 ≤ s.port.syms.length ∨ i = .csLdWord r) : Effect i s { s.setCs r w with out := v }
  /-- The packet on the port is published. -/
  | publish (h : i = .mbxPublish) : Effect i s { s with mbx := s.mbx.published s.cfg.ncons s.port.packet, out := .done .ok .none }
  /-- A take completes: a peek with its flag set, or another take with `full`. -/
  | take (tmo : Timeout) (k : BitVec 4) (h : i = .mbxTake tmo k) (hk : k.toNat < s.cfg.ncons)
      (hc : s.mbx.takeCase tmo k = .now) : Effect i s (completeTake k s)
  /-- A take is held. -/
  | hold (tmo : Timeout) (k : BitVec 4) (h : i = .mbxTake tmo k) (ht : tmo ≠ .zero) (hk : k.toNat < s.cfg.ncons)
      (hf : s.mbx.full = false) : Effect i s { s with held := s.held ++ [{ consumer := k, tmo := tmo }], out := .held }
  /-- The register's bytes are read for a reply. -/
  | read (h : i = .poll) :
      Effect i s { s with out := .done .ok (.bytes (wordBytes s.cs1)), posR := .encode (wordBytes s.cs1) }
  /-- A reply is built. -/
  | reply (h : i = .status) (bytes : List Byte) (cap : Nat) :
      Effect i s { s with port := { s.port with bytes := bytes, cap := cap },
                          out := .done .ok (.symbols (encodedBuffer s.cfg bytes)),
                          posR := .stopCapture (encodedBuffer s.cfg bytes) }
  /-- The selected transmitter's line, or its frames, grow. -/
  | line (h : i ∈ [Instr.symZero, .symOne, .symStop, .symEnd]) (l : List Symbol) (f : List (List Symbol)) :
      Effect i s (s.setPer s.txSel { s.getPer s.txSel with line := l, sent := f })

/-- Every instruction answers a next state, of one of the kinds of `Effect`. -/
theorem exec_effect (i : Instr) (s : State) : ∃ t, exec i s = .next t ∧ Effect i s t := by
  cases i with
  | encBit => exact ⟨_, rfl, .answer _⟩
  | encBuf =>
    by_cases h : s.port.cap < 8 * s.port.bytes.length + 2
    · exact ⟨_, by simp [exec, execEncBuf, h, respond_eq], .answer (.done .capacity .none)⟩
    · exact ⟨_, by simp [exec, execEncBuf, h, respond_eq], .answer (.done .ok (.symbols (encodedBuffer s.cfg s.port.bytes)))⟩
  | classify => exact ⟨_, rfl, .answer _⟩
  | decBits => exact ⟨_, rfl, .answer _⟩
  | parseCmd =>
    by_cases h : s.port.syms.length < cmdMin
    · exact ⟨_, by simp [exec, execParseCmd, h, respond_eq], .answer (.done .malformed .none)⟩
    · exact ⟨_, by simp [exec, execParseCmd, h, respond_eq], .answer (.done .ok (.byte (byteAt s.cfg s.port.syms 0)))⟩
  | parseState r =>
    by_cases h : s.port.syms.length < stateMin
    · exact ⟨_, by simp [exec, execParseState, h, respond_eq], .answer (.done .malformed .none)⟩
    · exact ⟨_, if_neg h,
        .register r _ _ (.inl ⟨rfl, by simpa [stateMin] using h⟩)⟩
  | csRdWord r => exact ⟨_, rfl, .answer _⟩
  | csRdField r f =>
    cases h : wordField (s.getCs r) f with
    | some v => exact ⟨_, by simp [exec, execCsRdField, h, respond_eq], .answer (.done .ok v)⟩
    | none => exact ⟨_, by simp [exec, execCsRdField, h, respond_eq], .answer (.done .illegalOp .none)⟩
  | csRdBytes r => exact ⟨_, rfl, .answer _⟩
  | csLdWord r => exact ⟨_, rfl, .register r _ _ (.inr rfl)⟩
  | mbxPublish => exact ⟨_, rfl, .publish rfl⟩
  | mbxTake tmo k =>
    by_cases hk : k.toNat < s.cfg.ncons
    · cases hc : s.mbx.takeCase tmo k with
      | now => exact ⟨_, by simp [exec, execMbxTake, hk, hc], .take tmo k rfl hk hc⟩
      | timeout => exact ⟨_, by simp [exec, execMbxTake, hk, hc, respond_eq], .answer (.done .timeout .none)⟩
      | hold =>
        have ht : tmo ≠ .zero := by
          rintro rfl; rw [takeCase_zero] at hc; split at hc <;> cases hc
        have hf : s.mbx.full = false := by
          rw [takeCase_waiting _ _ _ ht] at hc; split at hc
          · cases hc
          · simpa using ‹¬ s.mbx.full = true›
        exact ⟨_, by simp [exec, execMbxTake, hk, hc], .hold tmo k rfl ht hk hf⟩
    · exact ⟨_, by simp [exec, execMbxTake, hk, respond_eq], .answer (.done .illegalOp .none)⟩
  | status => exact ⟨_, execStatus_eq s, .reply rfl _ _⟩
  | poll => exact ⟨_, execPoll_eq s, .read rfl⟩
  | symZero => exact ⟨_, rfl, .line (by decide) _ _⟩
  | symOne => exact ⟨_, rfl, .line (by decide) _ _⟩
  | symStop => exact ⟨_, rfl, .line (by decide) _ _⟩
  | symEnd => exact ⟨_, rfl, .line (by decide) _ _⟩

/-- The inversion lemma: the next state of an instruction is of one of the kinds of `Effect`. -/
theorem exec_next_cases {i : Instr} {s t : State} (h : exec i s = .next t) : Effect i s t := by
  obtain ⟨u, hu, he⟩ := exec_effect i s
  rw [h] at hu
  cases hu
  exact he

/-- Of the operations only `ENC_BUF` answers `CAPACITY`, and only below `8n + 2` (spec/60_exceptions.md R229). -/
theorem exec_capacity {i : Instr} {s t : State} {w : ReqWord} (hw : encode s.cfg i = .req w) (h : exec i s = .next t)
    (ho : t.out = .done .capacity .none) : i = .encBuf ∧ s.port.cap < 8 * s.port.bytes.length + 2 := by
  cases i with
  | encBuf =>
    refine ⟨rfl, ?_⟩
    by_contra hc
    rw [show exec .encBuf s = _ from execEncBuf_fits s (by omega)] at h
    cases h; cases ho
  | parseCmd => simp only [exec, execParseCmd] at h; split at h <;> cases h <;> cases ho
  | parseState r =>
    simp only [exec, execParseState, changeStatus] at h
    split at h <;> (try split at h) <;> cases Host.Outcome.next.inj h <;> cases ho
  | csRdField r f => simp only [exec, execCsRdField] at h; split at h <;> cases h <;> cases ho
  | csLdWord r => cases Host.Outcome.next.inj h; cases ho
  | mbxTake tmo k =>
    simp only [exec, execMbxTake] at h
    (repeat' split at h) <;> cases h <;> cases ho
  | encBit => cases h; cases ho
  | classify => cases h; cases ho
  | decBits => cases h; cases ho
  | csRdWord r => cases h; cases ho
  | csRdBytes r => cases h; cases ho
  | mbxPublish => cases h; cases ho
  | _ => simp [encode] at hw

/-! ## What no instruction changes -/

section
variable {i : Instr} {s t : State}

theorem exec_keeps_cfg (h : exec i s = .next t) : t.cfg = s.cfg := by
  cases exec_next_cases h <;> simp [completeTake]

theorem exec_keeps_conn (h : exec i s = .next t) : t.conn = s.conn := by
  cases exec_next_cases h <;> simp [completeTake]

theorem exec_keeps_inbox (h : exec i s = .next t) : t.inbox = s.inbox := by
  cases exec_next_cases h <;> simp [completeTake]

theorem exec_keeps_posP (h : exec i s = .next t) : t.posP = s.posP := by
  cases exec_next_cases h <;> simp [completeTake]

theorem exec_keeps_phaseP (h : exec i s = .next t) : t.phaseP = s.phaseP := by
  cases exec_next_cases h <;> simp [completeTake]

theorem exec_keeps_phaseR (h : exec i s = .next t) : t.phaseR = s.phaseR := by
  cases exec_next_cases h <;> simp [completeTake]

theorem exec_keeps_faulted (h : exec i s = .next t) : t.faulted = s.faulted := by
  cases exec_next_cases h <;> simp [completeTake]

theorem exec_keeps_anchor (h : exec i s = .next t) : t.anchor = s.anchor := by
  cases exec_next_cases h <;> simp [completeTake]

end

end Sys2Proof.Machine
end

