-- ==== Sys2Proof/Laws/Agents.lean ====
section
/-! SUPPORT. Each step of the two agents in closed form, and what one event comes to. -/

namespace Sys2Proof.Machine

variable (s : State)

/-! ## The framer's operations in closed form -/

theorem execParseCmd_short (h : s.port.syms.length < 8) : execParseCmd s = .next { s with out := .done .malformed .none } :=
  if_pos h

theorem execParseCmd_long (h : 8 ≤ s.port.syms.length) :
    execParseCmd s = .next { s with out := .done .ok (.byte (byteAt s.cfg s.port.syms 0)) } :=
  if_neg (by simpa [cmdMin] using h)

theorem execParseState_short (r : CsId) (h : s.port.syms.length < 32) :
    execParseState r s = .next { s with out := .done .malformed .none } :=
  if_pos h

theorem execParseState_long (r : CsId) (h : 32 ≤ s.port.syms.length) :
    execParseState r s =
      .next { s.setCs r (wordAt s.cfg s.port.syms 0) with
              out := .done (changeStatus (s.getCs r) (wordAt s.cfg s.port.syms 0)) .none } :=
  if_neg (by simpa [stateMin] using h)

theorem parsePoll_short (r : CsId) (cap : List Symbol) (h : cap.length < s.cfg.pollMin) :
    parsePoll r cap s = .next { s with out := .done .malformed .none } :=
  if_pos h

theorem parsePoll_long (r : CsId) (cap : List Symbol) (h : s.cfg.pollMin ≤ cap.length) :
    parsePoll r cap s = execParseState r { s with port := { s.port with syms := cap.drop 9 } } :=
  if_neg (by omega)

/-! ## The Poll Scheduler -/

theorem pollEncode_eq :
    pollEncode s =
      .next { s with port := { s.port with bytes := [cmdPoll], cap := 10 },
                     out := .done .ok (.symbols (encodedBuffer s.cfg [cmdPoll])),
                     posP := .transmit (encodedBuffer s.cfg [cmdPoll]) } := by
  simp [pollEncode, exec, execEncBuf, respond_eq]

theorem pollTransmit_eq (y : List Symbol) (h : endsInStopEnd s.cfg y = true) :
    pollTransmit y s = .next { s with perH := { s.perH with tx := s.perH.tx ++ y }, posP := .receive } := by
  simp [pollTransmit, transmit_ok h]

/-- The parse step: the port's operands and answer, `CS[0]` and the place change; `readWord` follows exactly on `CHANGED`. -/
theorem pollParse_cases (cap : List Symbol) :
    ∃ syms out w pos,
      pollParse cap s = .next { s with port := { s.port with syms := syms }, out := out, cs0 := w, posP := pos } ∧
      (syms = s.port.syms ∨ syms = cap.drop 9) ∧ (pos = .readWord cap ∨ pos = .release (some cap)) := by
  by_cases hp : cap.length < s.cfg.pollMin
  · refine ⟨s.port.syms, .done .malformed .none, s.cs0, .release (some cap), ?_, .inl rfl, .inr rfl⟩
    rw [pollParse, parsePoll_short s .cs0 cap hp]; rfl
  · rw [pollParse, parsePoll_long s .cs0 cap (by omega)]
    by_cases h32 : (cap.drop 9).length < 32
    · refine ⟨cap.drop 9, .done .malformed .none, s.cs0, .release (some cap), ?_, .inr rfl, .inr rfl⟩
      rw [execParseState_short _ _ h32]; rfl
    · rw [execParseState_long _ _ (show 32 ≤ (cap.drop 9).length by omega)]
      by_cases hw : wordAt s.cfg (cap.drop 9) 0 = s.cs0
      · refine ⟨cap.drop 9, .done .unchanged .none, wordAt s.cfg (cap.drop 9) 0, .release (some cap), ?_, .inr rfl, .inr rfl⟩
        simp [changeStatus, hw]
      · refine ⟨cap.drop 9, .done .changed .none, wordAt s.cfg (cap.drop 9) 0, .readWord cap, ?_, .inr rfl, .inl rfl⟩
        simp [changeStatus, hw]

theorem pollReadWord_eq (cap : List Symbol) :
    pollReadWord cap s = .next { s with out := .done .ok (.word s.cs0), posP := .publish cap s.cs0 } := rfl

theorem pollPublish_eq (now : Nat) (cap : List Symbol) (w : Word) :
    pollPublish now cap w s =
      .next { s with port := { s.port with packet := { state := w, ts := now % 2 ^ s.cfg.tsW } },
                     mbx := { slot := { state := w, ts := now % 2 ^ s.cfg.tsW }, full := true,
                              fresh := List.replicate s.cfg.ncons true },
                     out := .done .ok .none, posP := .release (some cap) } := rfl

/-! ## The Command Responder -/

theorem respParse_short (cap : List Symbol) (h : cap.length < 8) :
    respParse cap s =
      .next { s with port := { s.port with syms := cap }, out := .done .malformed .none, posR := .release cap none } := by
  simp [respParse, exec, execParseCmd_short _ (show ({ s with port := { s.port with syms := cap } } : State).port.syms.length < 8 from h)]

theorem respParse_long (cap : List Symbol) (h : 8 ≤ cap.length) :
    respParse cap s =
      .next { s with port := { s.port with syms := cap }, out := .done .ok (.byte (byteAt s.cfg cap 0)),
                     posR := .release cap (some (byteAt s.cfg cap 0)) } := by
  simp [respParse, exec, execParseCmd_long _ (show 8 ≤ ({ s with port := { s.port with syms := cap } } : State).port.syms.length from h)]

theorem respPeek_fresh (cmd : Byte) (hn : 0 < s.cfg.ncons) (hf : s.mbx.freshOf 0 = true) :
    respPeek cmd s =
      .next { s with mbx := s.mbx.taken 0, out := .done .ok (.packet s.mbx.slot), posR := .load cmd s.mbx.slot.state } := by
  have hf' : s.mbx.freshOf 0#4 = true := hf
  simp [respPeek, exec, execMbxTake, hn, takeCase_zero, hf', completeTake]

theorem respPeek_stale (cmd : Byte) (hn : 0 < s.cfg.ncons) (hf : s.mbx.freshOf 0 = false) :
    respPeek cmd s = .next { s with out := .done .timeout .none, posR := .dispatch cmd } := by
  have hf' : s.mbx.freshOf 0#4 = false := hf
  simp [respPeek, exec, execMbxTake, hn, takeCase_zero, hf', respond_eq]

theorem respPeek_noConsumer (cmd : Byte) (hn : ¬ 0 < s.cfg.ncons) :
    respPeek cmd s = .next { s with out := .done .illegalOp .none, posR := .dispatch cmd } := by
  simp [respPeek, exec, execMbxTake, show s.cfg.ncons = 0 by omega, respond_eq]

theorem respLoad_eq (cmd : Byte) (w : Word) :
    respLoad cmd w s =
      .next { s with port := { s.port with word := w }, cs1 := w, out := .done .ok .none, posR := .dispatch cmd } := rfl

theorem respDispatch_status : respDispatch 0x00 s = execStatus s := rfl

theorem respDispatch_poll : respDispatch 0x01 s = execPoll s := rfl

theorem respDispatch_other (b : Byte) (h0 : b ≠ 0x00) (h1 : b ≠ 0x01) :
    respDispatch b s = .next { s with posR := .receive } := by
  have h0' : b ≠ 0#8 := h0
  have h1' : b ≠ 1#8 := h1
  simp [respDispatch, decode, decodeCmd, cmdStatus, cmdPoll, h0', h1']

/-- The dispatch builds the identification reply, reads the register's bytes, or ends the cycle (spec/44_sequencers.md R213). -/
theorem respDispatch_cases (b : Byte) :
    respDispatch b s =
      .next { s with port := { s.port with bytes := idBytes s.cfg, cap := 26 },
                     out := .done .ok (.symbols (encodedBuffer s.cfg (idBytes s.cfg))),
                     posR := .stopCapture (encodedBuffer s.cfg (idBytes s.cfg)) } ∨
    respDispatch b s = .next { s with out := .done .ok (.bytes (wordBytes s.cs1)), posR := .encode (wordBytes s.cs1) } ∨
    respDispatch b s = .next { s with posR := .receive } := by
  by_cases h0 : b = 0x00
  · subst h0
    exact .inl (by rw [respDispatch_status, execStatus_eq])
  · by_cases h1 : b = 0x01
    · subst h1
      exact .inr (.inl (by rw [respDispatch_poll, execPoll_eq]))
    · exact .inr (.inr (respDispatch_other s b h0 h1))

theorem encodePollReply_eq (b : List Byte) (h : b.length ≤ 4) :
    encodePollReply b s =
      .next { s with port := { s.port with bytes := b, cap := 34 },
                     out := .done .ok (.symbols (encodedBuffer s.cfg b)), posR := .stopCapture (encodedBuffer s.cfg b) } :=
  buildReply_eq b 34 s (by omega)

theorem respTransmit_eq (y : List Symbol) (h : endsInStopEnd s.cfg y = true) :
    respTransmit y s = .next { s with perD := { s.perD with tx := s.perD.tx ++ y }, posR := .awaitSent } := by
  simp [respTransmit, transmit_ok h]

/-! ## Events -/

theorem step_nil (h : s.inbox = []) : step s = .next s := by
  simp [step, stepInbox, h]

theorem step_cons {e : Event} {rest : List Event} (h : s.inbox = e :: rest) :
    step s = handle e { s with inbox := rest } := by
  simp [step, stepInbox, h]

/-- A step that goes on either had nothing to do, or did its first event. -/
theorem step_next_cases {s t : State} (h : step s = .next t) :
    (s.inbox = [] ∧ t = s) ∨ ∃ e rest, s.inbox = e :: rest ∧ handle e { s with inbox := rest } = .next t := by
  cases hi : s.inbox with
  | nil => rw [step_nil s hi] at h; exact .inl ⟨rfl, (Host.Outcome.next.inj h).symm⟩
  | cons e rest => rw [step_cons s hi] at h; exact .inr ⟨e, rest, rfl, h⟩

/-- The decoder's answer to a symbol: one of the canonical ones, which it then is, or none. -/
theorem decodeSym_cases (c : Config) (y : Symbol) :
    (decodeSym c y = .ok .symZero ∧ y = zeroSymbol c) ∨ (decodeSym c y = .ok .symOne ∧ y = oneSymbol c) ∨
    (decodeSym c y = .ok .symStop ∧ y = stopSymbol c) ∨ (decodeSym c y = .ok .symEnd ∧ y = endSymbol) ∨
    decodeSym c y = .reject (.notCanonical y) := by
  unfold decodeSym
  split
  · exact .inl ⟨rfl, ‹_›⟩
  · split
    · exact .inr (.inl ⟨rfl, ‹_›⟩)
    · split
      · exact .inr (.inr (.inl ⟨rfl, ‹_›⟩))
      · split
        · exact .inr (.inr (.inr (.inl ⟨rfl, ‹_›⟩)))
        · exact .inr (.inr (.inr (.inr rfl)))

/-- In a legal configuration the decoder reads END exactly from the zero-duration sentinel. -/
theorem decodeSym_end_iff (c : Config) (y : Symbol) (h : c.wf) : decodeSym c y = .ok .symEnd ↔ y = endSymbol := by
  obtain ⟨⟨hs, hl, -⟩, ⟨hd, -, -⟩, -⟩ := h
  constructor
  · intro hy
    rcases decodeSym_cases c y with ⟨e, -⟩ | ⟨e, -⟩ | ⟨e, -⟩ | ⟨-, e⟩ | e <;>
      first | exact e | (rw [e] at hy; simp at hy)
  · rintro rfl
    have hz : endSymbol ≠ zeroSymbol c := by simp [endSymbol, zeroSymbol]
    have ho : endSymbol ≠ oneSymbol c := by simp [endSymbol, oneSymbol]
    have hp : endSymbol ≠ stopSymbol c := fun e => by
      have : (0 : Nat) = c.stopSymbol.d0 := congrArg Symbol.d0 e
      omega
    simp [decodeSym, hz, ho, hp]

/-- A transmitter's turn: its next symbol goes on the line as it is, but END ends the frame (spec/44_sequencers.md R191). -/
theorem handleTx_symbol (who : Role) {y : Symbol} {ys : List Symbol} (h : (s.getPer who).tx = y :: ys) :
    handleTx who s =
      .next (if decodeSym s.cfg y = .ok .symEnd then emitEnd (popSymbol who ys s) else emit y (popSymbol who ys s)) := by
  have cfg : (popSymbol who ys s).cfg = s.cfg := by cases who <;> rfl
  simp only [handleTx, h, decode]
  rcases decodeSym_cases s.cfg y with ⟨e, hy⟩ | ⟨e, hy⟩ | ⟨e, hy⟩ | ⟨e, hy⟩ | e <;> rw [e] <;>
    simp [exec, execSymZero, execSymOne, execSymStop, execSymEnd, cfg] <;> rw [← hy]

theorem handleTx_idle (who : Role) (h : (s.getPer who).tx = []) : handleTx who s = .next s := by
  simp [handleTx, h]

theorem emit_popSymbol (who : Role) (y : Symbol) (ys : List Symbol) :
    emit y (popSymbol who ys s) =
      { s.setPer who { s.getPer who with tx := ys, line := (s.getPer who).line ++ [y] } with txSel := who } := by
  cases who <;> rfl

theorem emitEnd_popSymbol (who : Role) (ys : List Symbol) :
    emitEnd (popSymbol who ys s) =
      { s.setPer who { s.getPer who with tx := ys, line := [], sent := (s.getPer who).sent ++ [(s.getPer who).line] } with
        txSel := who } := by
  cases who <;> rfl

/-- What a transmitter's turn comes to: nothing, or its next symbol leaves and only its line, frames and rest change. -/
theorem handleTx_cases (who : Role) :
    ((s.getPer who).tx = [] ∧ handleTx who s = .next s) ∨
    ∃ y ys l f, (s.getPer who).tx = y :: ys ∧
      handleTx who s =
        .next { s.setPer who { s.getPer who with tx := ys, line := l, sent := f } with txSel := who } := by
  cases h : (s.getPer who).tx with
  | nil => exact .inl ⟨rfl, handleTx_idle s who h⟩
  | cons y ys =>
    refine .inr ⟨y, ys, ?_⟩
    rw [handleTx_symbol s who h]
    split
    · exact ⟨_, _, rfl, congrArg _ (emitEnd_popSymbol s who ys)⟩
    · exact ⟨_, (s.getPer who).sent, rfl, congrArg _ (emit_popSymbol s who y ys)⟩

/-- A request runs its instruction and its issuer receives the answer, or it is answered `ILLEGAL_OP` (spec/30_encoding.md R111). -/
theorem handleRequest_cases (who : Issuer) (w : ReqWord) (ops : Operands) :
    (∃ i t, decode s.cfg (.req w) = .ok i ∧ exec i { s with port := cutOperands s.cfg ops } = .next t ∧
      handleRequest who w ops s = .next { t with faulted := (t.received who).faulted }) ∨
    (∀ i, decode s.cfg (.req w) ≠ .ok i) ∧
      handleRequest who w ops s = .next { s with port := cutOperands s.cfg ops, out := .done .illegalOp .none } := by
  unfold handleRequest
  cases h : decode s.cfg (.req w) with
  | ok i =>
    obtain ⟨t, ht, -⟩ := exec_effect i { s with port := cutOperands s.cfg ops }
    exact .inl ⟨i, t, rfl, ht, by dsimp only; rw [ht, andThen_next, ← State.received_eq]⟩
  | reject why => exact .inr ⟨by simp, rfl⟩

theorem wakeCase_eq (m : Mailbox) (tmo : Timeout) (expired : Bool) :
    m.wakeCase tmo expired =
      if m.full then .now else if expired = true ∧ tmo ≠ .forever then .timeout else .hold := by
  cases tmo <;> cases expired <;> rfl

/-- What looking at a held take again comes to (spec/43_mailbox.md R175, R176). -/
theorem wakeTake_cases (n : Nat) (expired : Bool) :
    wakeTake n expired s = .next s ∨
    (∃ h, s.held[n]? = some h ∧ s.mbx.full = true ∧
      wakeTake n expired s = .next (completeTake h.consumer { s with held := s.held.eraseIdx n })) ∨
    (s.mbx.full = false ∧
      wakeTake n expired s = .next { s with held := s.held.eraseIdx n, out := .done .timeout .none }) := by
  unfold wakeTake
  cases hn : s.held[n]? with
  | none => exact .inl rfl
  | some h =>
    dsimp only
    rw [wakeCase_eq]
    cases hf : s.mbx.full with
    | true => exact .inr (.inl ⟨h, rfl, rfl, rfl⟩)
    | false => by_cases he : expired = true ∧ h.tmo ≠ .forever <;> simp [he, respond_eq]

end Sys2Proof.Machine
end

