-- ==== Sys2Proof/Laws/Decode.lean ====
section
/-! SUPPORT. The bits of an encoded request word, its fields read back, and what a row of the operation table accepts
(spec/30_encoding.md R108, R111). -/

namespace Sys2Proof

/-- REQ16 bit by bit (spec/30_encoding.md R108). -/
theorem reqWord_getLsbD (op : BitVec 4) (r : BitVec 1) (tmo : BitVec 2) (f : BitVec 5) (k : BitVec 4) (i : Nat) :
    (reqWord op r tmo f k).getLsbD i =
      if i < 4 then k.getLsbD i
      else if i < 9 then f.getLsbD (i - 4)
      else if i < 11 then tmo.getLsbD (i - 9)
      else if i < 12 then r.getLsbD (i - 11)
      else op.getLsbD (i - 12) := by
  have h : (reqWord op r tmo f k).getLsbD i = BitVec.getLsbD (w := 4 + 1 + 2 + 5 + 4) (op ++ r ++ tmo ++ f ++ k) i := rfl
  rw [h]
  simp only [BitVec.getLsbD_append, Nat.sub_sub]
  split
  · rfl
  · by_cases h9 : i < 9
    · rw [if_pos (by omega), if_pos h9]
    · rw [if_neg (by omega), if_neg h9]
      by_cases h11 : i < 11
      · rw [if_pos (by omega), if_pos h11]
      · rw [if_neg (by omega), if_neg h11]
        by_cases h12 : i < 12
        · rw [if_pos (by omega), if_pos h12]
        · rw [if_neg (by omega), if_neg h12]

section
variable (op : BitVec 4) (r : BitVec 1) (tmo : BitVec 2) (f : BitVec 5) (k : BitVec 4)

@[simp] theorem reqOp_reqWord : reqOp (reqWord op r tmo f k) = op := by
  apply BitVec.eq_of_getLsbD_eq
  intro i hi
  simp only [reqOp, BitVec.getLsbD_extractLsb', reqWord_getLsbD, hi, decide_true, Bool.true_and]
  rw [if_neg (by omega), if_neg (by omega), if_neg (by omega), if_neg (by omega)]
  congr 1; omega

@[simp] theorem reqTmo_reqWord : reqTmo (reqWord op r tmo f k) = tmo := by
  apply BitVec.eq_of_getLsbD_eq
  intro i hi
  simp only [reqTmo, BitVec.getLsbD_extractLsb', reqWord_getLsbD, hi, decide_true, Bool.true_and]
  rw [if_neg (by omega), if_neg (by omega), if_pos (by omega)]
  congr 1; omega

@[simp] theorem reqF_reqWord : reqF (reqWord op r tmo f k) = f := by
  apply BitVec.eq_of_getLsbD_eq
  intro i hi
  simp only [reqF, BitVec.getLsbD_extractLsb', reqWord_getLsbD, hi, decide_true, Bool.true_and]
  rw [if_neg (by omega), if_pos (by omega)]
  congr 1; omega

@[simp] theorem reqC_reqWord : reqC (reqWord op r tmo f k) = k := by
  apply BitVec.eq_of_getLsbD_eq
  intro i hi
  simp only [reqC, BitVec.getLsbD_extractLsb', reqWord_getLsbD, hi, decide_true, Bool.true_and]
  rw [if_pos (by omega)]
  congr 1; omega

@[simp] theorem reqR_reqWord (q : CsId) : reqR (reqWord op q.bits tmo f k) = q := by
  have h : (reqWord op q.bits tmo f k).getLsbD 11 = q.bits.getLsbD 0 := by
    rw [reqWord_getLsbD]; rfl
  unfold reqR
  rw [h]
  cases q <;> rfl

/-- A word is put together again from its five fields. -/
theorem reqWord_fields (w : ReqWord) : reqWord (reqOp w) (w.extractLsb' 11 1) (reqTmo w) (reqF w) (reqC w) = w := by
  apply BitVec.eq_of_getLsbD_eq
  intro i hi
  rw [reqWord_getLsbD]
  simp only [reqOp, reqTmo, reqF, reqC, BitVec.getLsbD_extractLsb']
  split
  · simp [*]
  · split
    · rw [show 4 + (i - 4) = i by omega]; simp [show i - 4 < 5 by omega]
    · split
      · rw [show 9 + (i - 9) = i by omega]; simp [show i - 9 < 2 by omega]
      · split
        · rw [show 11 + (i - 11) = i by omega]; simp [show i - 11 < 1 by omega]
        · rw [show 12 + (i - 12) = i by omega]; simp [show i - 12 < 4 by omega]

end

/-- The register bit of a word is the encoding of the register it names. -/
theorem reqR_bits (w : ReqWord) : (reqR w).bits = w.extractLsb' 11 1 := by
  have h : w.extractLsb' 11 1 = BitVec.ofBool (w.getLsbD 11) := by
    apply BitVec.eq_of_getLsbD_eq
    intro i hi
    obtain rfl : i = 0 := by omega
    simp
  rw [h]
  unfold reqR
  cases w.getLsbD 11 <;> rfl

/-- A row accepts a word exactly when the word matches it; then it answers what the row says. -/
theorem tableRow_ok {mask pattern w : ReqWord} {found : Decoded} {i : Instr} (h : tableRow mask pattern w found = .ok i) :
    w &&& mask = pattern ∧ found = .ok i := by
  unfold tableRow at h
  split at h
  · exact ⟨‹_›, h⟩
  · cases h

/-- Where a mask is all ones on a field, a matching word has the pattern's field. -/
theorem masked_field {w mask pattern : ReqWord} (h : w &&& mask = pattern) (lo n : Nat)
    (hm : ∀ i < n, mask.getLsbD (lo + i) = true) : w.extractLsb' lo n = pattern.extractLsb' lo n := by
  apply BitVec.eq_of_getLsbD_eq
  intro i hi
  simp only [BitVec.getLsbD_extractLsb', hi, decide_true, Bool.true_and]
  rw [← h, BitVec.getLsbD_and, hm i hi, Bool.and_true]

/-! ## The fields as numbers -/

theorem reqOp_toNat (w : ReqWord) : (reqOp w).toNat = w.toNat / 4096 := by
  have := w.isLt
  simp [reqOp, BitVec.extractLsb'_toNat, Nat.shiftRight_eq_div_pow]
  omega

theorem reqTmo_toNat (w : ReqWord) : (reqTmo w).toNat = w.toNat / 512 % 4 := by
  simp [reqTmo, BitVec.extractLsb'_toNat, Nat.shiftRight_eq_div_pow]

theorem reqF_toNat (w : ReqWord) : (reqF w).toNat = w.toNat / 16 % 32 := by
  simp [reqF, BitVec.extractLsb'_toNat, Nat.shiftRight_eq_div_pow]

theorem reqC_toNat (w : ReqWord) : (reqC w).toNat = w.toNat % 16 := by
  simp [reqC, BitVec.extractLsb'_toNat]

end Sys2Proof
end

