-- ==== Sys2Proof/Laws/PerInstr.lean ====
section
/-! SUPPORT. Statements made of every instruction, one lemma per constructor. The family `TableRow`: the code of an
instruction is of the format its row of spec/opcode_table.json names and has the row's `match` under the row's `mask`. -/

namespace Sys2Proof.Laws

namespace TableRow

/-- A REQ16 row: `match` under `mask` (spec/30_encoding.md R108). -/
def Req (mask pattern : ReqWord) (i : Instr) : Prop :=
  ∀ c : Config, ∃ w, encode c i = .req w ∧ w &&& mask = pattern

/-- A CMD8 row (spec/30_encoding.md R99). -/
def Cmd (pattern : Byte) (i : Instr) : Prop :=
  ∀ c : Config, encode c i = .cmd pattern

/-- A SYM32 row, at the default parameters (spec/30_encoding.md R86 to R90). -/
def Sym (pattern : BitVec 32) (i : Instr) : Prop :=
  ∃ s, encode Config.default i = .sym s ∧ packSym32 s = pattern

/-- The row of spec/opcode_table.json that an instruction belongs to. -/
def Statement (i : Instr) : Prop :=
  match i with
  | .encBit => Req 0xFFFF 0x0000 i
  | .encBuf => Req 0xFFFF 0x1000 i
  | .classify => Req 0xFFFF 0x2000 i
  | .decBits => Req 0xFFFF 0x3000 i
  | .parseCmd => Req 0xFFFF 0x4000 i
  | .parseState _ => Req 0xF7FF 0x5000 i
  | .csRdWord _ => Req 0xF7FF 0x6000 i
  | .csRdField _ _ => Req 0xF60F 0x7000 i
  | .csRdBytes _ => Req 0xF7FF 0x8000 i
  | .csLdWord _ => Req 0xF7FF 0x9000 i
  | .mbxPublish => Req 0xFFFF 0xA000 i
  | .mbxTake _ _ => Req 0xF9F0 0xB000 i
  | .status => Cmd 0x00 i
  | .poll => Cmd 0x01 i
  | .symZero => Sym 0x80010003 i
  | .symOne => Sym 0x80030001 i
  | .symStop => Sym 0x80010002 i
  | .symEnd => Sym 0x00000000 i

theorem encBit : Statement .encBit := fun _ => ⟨_, rfl, by decide⟩
theorem encBuf : Statement .encBuf := fun _ => ⟨_, rfl, by decide⟩
theorem classify : Statement .classify := fun _ => ⟨_, rfl, by decide⟩
theorem decBits : Statement .decBits := fun _ => ⟨_, rfl, by decide⟩
theorem parseCmd : Statement .parseCmd := fun _ => ⟨_, rfl, by decide⟩
theorem parseState (r : CsId) : Statement (.parseState r) := fun _ => ⟨_, rfl, by cases r <;> decide⟩
theorem csRdWord (r : CsId) : Statement (.csRdWord r) := fun _ => ⟨_, rfl, by cases r <;> decide⟩
theorem csRdField (r : CsId) (f : BitVec 5) : Statement (.csRdField r f) := fun _ =>
  ⟨_, rfl, by revert f; cases r <;> decide⟩
theorem csRdBytes (r : CsId) : Statement (.csRdBytes r) := fun _ => ⟨_, rfl, by cases r <;> decide⟩
theorem csLdWord (r : CsId) : Statement (.csLdWord r) := fun _ => ⟨_, rfl, by cases r <;> decide⟩
theorem mbxPublish : Statement .mbxPublish := fun _ => ⟨_, rfl, by decide⟩
theorem mbxTake (tmo : Timeout) (c : BitVec 4) : Statement (.mbxTake tmo c) := fun _ =>
  ⟨_, rfl, by revert c; cases tmo <;> decide⟩
theorem status : Statement .status := fun _ => rfl
theorem poll : Statement .poll := fun _ => rfl
theorem symZero : Statement .symZero := ⟨_, rfl, by decide⟩
theorem symOne : Statement .symOne := ⟨_, rfl, by decide⟩
theorem symStop : Statement .symStop := ⟨_, rfl, by decide⟩
theorem symEnd : Statement .symEnd := ⟨_, rfl, by decide⟩

end TableRow

end Sys2Proof.Laws
end

