-- ==== Sys2Proof/Laws/Run.lean ====
section
/-! SUPPORT. Running several steps: one step of a run at a time, and what each step is when its event and the agent's place are
known. -/

namespace Sys2Proof.Machine

/-! ## Runs -/

theorem run_zero (s : State) : Host.Core.run Sys2Proof.core 0 s = .next s := rfl

theorem run_succ (k : Nat) {s t : State} (h : step s = .next t) :
    Host.Core.run Sys2Proof.core (k + 1) s = Host.Core.run Sys2Proof.core k t := by
  have h' : Sys2Proof.core.step s = .next t := h
  simp only [Host.Core.run, h']

theorem run_one {s t : State} (h : step s = .next t) : Host.Core.run Sys2Proof.core 1 s = .next t :=
  run_succ 0 h

/-! ## The agents' turns -/

section
variable {s : State} {l : List Event}

theorem step_pollTick {now : Nat} {d : RecvDraw} (hi : s.inbox = .pollTick now d :: l) (hp : s.phaseP = .running) :
    step s = pollStep now d { s with inbox := l } := by
  rw [step_cons s hi]
  exact if_pos hp

theorem step_respTick {d : RecvDraw} (hi : s.inbox = .respTick d :: l) (hp : s.phaseR = .running) :
    step s = respStep d { s with inbox := l } := by
  rw [step_cons s hi]
  exact if_pos hp

end

section
variable {s : State} (now : Nat) (d : RecvDraw)

theorem pollStep_encode (h : s.posP = .encode) : pollStep now d s = pollEncode s := by
  unfold pollStep; rw [h]

theorem pollStep_transmit {y : List Symbol} (h : s.posP = .transmit y) : pollStep now d s = pollTransmit y s := by
  unfold pollStep; rw [h]

theorem pollStep_receive (h : s.posP = .receive) : pollStep now d s = .next (pollReceive d s) := by
  unfold pollStep; rw [h]

theorem pollStep_gate {cap : Option (List Symbol)} (h : s.posP = .gate cap) : pollStep now d s = .next (pollGate cap s) := by
  unfold pollStep; rw [h]

theorem pollStep_parse {cap : List Symbol} (h : s.posP = .parse cap) : pollStep now d s = pollParse cap s := by
  unfold pollStep; rw [h]

theorem pollStep_readWord {cap : List Symbol} (h : s.posP = .readWord cap) : pollStep now d s = pollReadWord cap s := by
  unfold pollStep; rw [h]

theorem pollStep_publish {cap : List Symbol} {w : Word} (h : s.posP = .publish cap w) : pollStep now d s = pollPublish now cap w s := by
  unfold pollStep; rw [h]

theorem pollStep_release {cap : Option (List Symbol)} (h : s.posP = .release cap) : pollStep now d s = .next (pollRelease cap s) := by
  unfold pollStep; rw [h]

theorem pollStep_periodCheck (h : s.posP = .periodCheck) : pollStep now d s = .next (pollPeriodCheck now s) := by
  unfold pollStep; rw [h]

theorem pollStep_resync (h : s.posP = .resync) : pollStep now d s = .next (pollResync now s) := by
  unfold pollStep; rw [h]

theorem pollStep_periodWait (h : s.posP = .periodWait) : pollStep now d s = .next (pollPeriodWait now s) := by
  unfold pollStep; rw [h]

theorem respStep_receive (h : s.posR = .receive) : respStep d s = .next (respReceive d s) := by
  unfold respStep; rw [h]

theorem respStep_parse {cap : List Symbol} (h : s.posR = .parse cap) : respStep d s = respParse cap s := by
  unfold respStep; rw [h]

theorem respStep_release {cap : List Symbol} {cmd : Option Byte} (h : s.posR = .release cap cmd) : respStep d s = .next (respRelease cap cmd s) := by
  unfold respStep; rw [h]

theorem respStep_peek {cmd : Byte} (h : s.posR = .peek cmd) : respStep d s = respPeek cmd s := by
  unfold respStep; rw [h]

theorem respStep_load {cmd : Byte} {w : Word} (h : s.posR = .load cmd w) : respStep d s = respLoad cmd w s := by
  unfold respStep; rw [h]

theorem respStep_dispatch {cmd : Byte} (h : s.posR = .dispatch cmd) : respStep d s = respDispatch cmd s := by
  unfold respStep; rw [h]

theorem respStep_encode {b : List Byte} (h : s.posR = .encode b) : respStep d s = encodePollReply b s := by
  unfold respStep; rw [h]

theorem respStep_stopCapture {y : List Symbol} (h : s.posR = .stopCapture y) : respStep d s = .next (respStopCapture y s) := by
  unfold respStep; rw [h]

theorem respStep_transmit {y : List Symbol} (h : s.posR = .transmit y) : respStep d s = respTransmit y s := by
  unfold respStep; rw [h]

theorem respStep_awaitSent (h : s.posR = .awaitSent) : respStep d s = .next (respAwaitSent s) := by
  unfold respStep; rw [h]

theorem respStep_startCapture (h : s.posR = .startCapture) : respStep d s = .next (respStartCapture s) := by
  unfold respStep; rw [h]

end

/-! ## The transmitter's turns -/

section
variable {s : State} {l : List Event} {who : Role} {ys : List Symbol}

/-- A symbol before END goes on the line (spec/44_sequencers.md R191). -/
theorem step_txTick_symbol {y : Symbol} (hi : s.inbox = .txTick who :: l) (ht : (s.getPer who).tx = y :: ys)
    (hne : y ≠ endSymbol) (hwf : s.cfg.wf) :
    step s = .next { s.setPer who { s.getPer who with tx := ys, line := (s.getPer who).line ++ [y] } with
                     txSel := who, inbox := l } := by
  rw [step_cons s hi]
  show handleTx who { s with inbox := l } = _
  rw [handleTx_symbol (s := { s with inbox := l }) who (y := y) (ys := ys) (by cases who <;> exact ht),
    if_neg (by rw [decodeSym_end_iff _ _ hwf]; exact hne), emit_popSymbol]
  cases who <;> rfl

/-- END completes the frame (spec/30_encoding.md R90). -/
theorem step_txTick_end (hi : s.inbox = .txTick who :: l) (ht : (s.getPer who).tx = endSymbol :: ys) (hwf : s.cfg.wf) :
    step s = .next { s.setPer who { s.getPer who with
                       tx := ys, line := [], sent := (s.getPer who).sent ++ [(s.getPer who).line] } with
                     txSel := who, inbox := l } := by
  rw [step_cons s hi]
  show handleTx who { s with inbox := l } = _
  rw [handleTx_symbol (s := { s with inbox := l }) who (y := endSymbol) (ys := ys) (by cases who <;> exact ht),
    if_pos (by rw [decodeSym_end_iff _ _ hwf]), emitEnd_popSymbol]
  cases who <;> rfl

/-- Activity while `RXEN = 0` leaves no trace (spec/44_sequencers.md R193). -/
theorem step_activity_off {y : List Symbol} (hi : s.inbox = .activity who y :: l) (hr : (s.getPer who).rxen = false) :
    step s = .next { s with inbox := l } := by
  rw [step_cons s hi]
  have ha := activity_off (s.getPer who) (y.map (cutSymbol s.cfg)) hr
  cases who
  · exact congrArg (fun p => Host.Outcome.next { s with inbox := l, perH := p }) ha
  · exact congrArg (fun p => Host.Outcome.next { s with inbox := l, perD := p }) ha

end

end Sys2Proof.Machine
end

