-- ==== Sys2Proof/Laws/Safety.lean ====
section
/-! SUPPORT. The terms the statements use, met by what the operations build: frames and encoded buffers, bits and captures, and
the mailbox invariant under the mailbox's two updates. -/

namespace Sys2Proof.Safety

open Sys2Proof.Machine

/-! ## Frames and captures -/

theorem wireSymbol_eq (c : Config) (v : Bool) : wireSymbol c v = symbolOfBit c v := by
  cases v <;> rfl

/-- What the encoder builds is a frame of its bytes' bits (spec/30_encoding.md R91; spec/20_memory.md R63). -/
theorem frame_encodedBuffer (c : Config) (l : List Byte) :
    Frame c (8 * l.length) (fun i => (l.getD (i / 8) 0).getLsbD (7 - i % 8)) (encodedBuffer c l) where
  length := encodedBuffer_length c l
  data := fun i h => by rw [wireSymbol_eq, encodedBuffer_data c l i h]
  stop := encodedBuffer_stop c l
  endOfSequence := encodedBuffer_end c l

/-- A frame says nothing about bits past its length. -/
theorem Frame.congr {c : Config} {n : Nat} {b d : Nat → Bool} {t : List Symbol} (h : Frame c n b t) (hb : ∀ i < n, b i = d i) :
    Frame c n d t where
  length := h.length
  data := fun i hi => by rw [← hb i hi]; exact h.data i hi
  stop := h.stop
  endOfSequence := h.endOfSequence

/-- The byte a capture holds, bit by bit (spec/30_encoding.md R105). -/
theorem byteAt_bitAt (c : Config) (syms : List Symbol) (h : 8 ≤ syms.length) :
    ∀ k < 8, bitAt c syms k ((byteAt c syms 0).getLsbD (7 - k)) := by
  intro k hk
  rw [byteAt_getLsbD c syms 0 k (by omega) hk, Nat.zero_add]
  exact classified_getD c syms k (by omega)

/-- The word a capture holds, bit by bit (spec/30_encoding.md R107). -/
theorem wordAt_bitAt (c : Config) (syms : List Symbol) (at0 : Nat) (h : at0 + 32 ≤ syms.length) :
    ∀ k < 32, bitAt c syms (at0 + k) ((wordAt c syms at0).getLsbD (31 - k)) := by
  intro k hk
  rw [wordAt_getLsbD c syms at0 k h hk]
  exact classified_getD c syms _ (by omega)

/-- The class of a symbol is one bit. -/
theorem bitAt_unique {c : Config} {syms : List Symbol} {i : Nat} {a b : Bool} (ha : bitAt c syms i a) (hb : bitAt c syms i b) :
    a = b := by
  obtain ⟨y, hy, rfl⟩ := ha
  obtain ⟨z, hz, rfl⟩ := hb
  rw [hy] at hz
  cases hz
  rfl

/-- A word with the capture's bits is the word the capture holds. -/
theorem eq_wordAt (c : Config) (syms : List Symbol) (at0 : Nat) (w : Word) (h : at0 + 32 ≤ syms.length)
    (hw : ∀ i < 32, bitAt c syms (at0 + i) (w.getLsbD (31 - i))) : w = wordAt c syms at0 := by
  apply BitVec.eq_of_getLsbD_eq
  intro i hi
  have e := bitAt_unique (hw (31 - i) (by omega)) (wordAt_bitAt c syms at0 h (31 - i) (by omega))
  rwa [show 31 - (31 - i) = i by omega] at e

/-! ## The mailbox invariant (spec/10_state.md R40) -/

/-- It speaks of the mailbox and the configuration alone. -/
theorem MailboxInv.congr {s t : State} (h : MailboxInv s) (hm : t.mbx = s.mbx) (hc : t.cfg = s.cfg) : MailboxInv t :=
  ⟨by rw [hm, hc]; exact h.1, by rw [hm]; exact h.2⟩

theorem mailboxInv_published {s t : State} (p : Packet) (hm : t.mbx = s.mbx.published s.cfg.ncons p) (hc : t.cfg = s.cfg) :
    MailboxInv t :=
  ⟨by rw [hm, hc]; simp, by rw [hm]; simp⟩

theorem MailboxInv.taken {s t : State} (h : MailboxInv s) (k : BitVec 4) (hm : t.mbx = s.mbx.taken k) (hc : t.cfg = s.cfg) :
    MailboxInv t := by
  refine ⟨by rw [hm, hc]; simpa using h.1, ?_⟩
  rw [hm]
  intro b hb hbt
  subst hbt
  rcases List.mem_or_eq_of_mem_set hb with hb | hb
  · exact h.2 _ hb rfl
  · cases hb

/-- While nothing has been published no flag is set. -/
theorem MailboxInv.freshOf_eq_false {s : State} (h : MailboxInv s) (hf : s.mbx.full = false) (k : BitVec 4) :
    s.mbx.freshOf k = false := by
  unfold Mailbox.freshOf
  rw [List.getD_eq_getElem?_getD]
  cases hk : s.mbx.fresh[k.toNat]? with
  | none => rfl
  | some b =>
    cases b with
    | false => rfl
    | true => rw [h.2 _ (List.mem_of_getElem? hk) rfl] at hf; cases hf

end Sys2Proof.Safety
end

