-- ==== Sys2Proof/Laws/Step.lean ====
section
/-! SUPPORT. What a step can do, said once: `Move e s t` lists every next state `t` an event `e` can lead to from `s` (the state
with `e` already taken from the inbox), guards included. Each claim over all steps is a case analysis of
`step_next_move`. -/

namespace Sys2Proof.Machine

/-- A reading of an event's next state as one of the things a step can do. -/
inductive Move : Event → State → State → Prop where
  /-- Nothing happens: a wait goes on, or the event meets nothing. -/
  | stay (e : Event) (s : State) : Move e s s
  /-- A request runs its instruction, and its issuer is marked where it receives `CAPACITY`. -/
  | request (who : Issuer) (w : ReqWord) (ops : Operands) (i : Instr) (s t : State) (f : List Issuer)
      (hd : decode s.cfg (.req w) = .ok i) (he : exec i { s with port := cutOperands s.cfg ops } = .next t)
      (hf : f = (t.received who).faulted) : Move (.request who w ops) s { t with faulted := f }
  /-- A request selects nothing. -/
  | illegal (who : Issuer) (w : ReqWord) (ops : Operands) (s : State) (hd : ∀ i, decode s.cfg (.req w) ≠ .ok i) :
      Move (.request who w ops) s { s with port := cutOperands s.cfg ops, out := .done .illegalOp .none }
  /-- A held take completes. -/
  | woken (n : Nat) (expired : Bool) (h : HeldTake) (s : State) (hn : s.held[n]? = some h) (hf : s.mbx.full = true) :
      Move (.wake n expired) s (completeTake h.consumer { s with held := s.held.eraseIdx n })
  /-- A held bounded take expires. -/
  | expired (n : Nat) (b : Bool) (s : State) (hf : s.mbx.full = false) :
      Move (.wake n b) s { s with held := s.held.eraseIdx n, out := .done .timeout .none }
  | startPollOk (now : Nat) (s : State) (h : s.phaseP = .init) :
      Move (.startPoll true now) s
        { s with perH := { s.perH with rxen := true }, anchor := timestamp s.cfg now, phaseP := .running, posP := .encode }
  | startPollFails (now : Nat) (s : State) (h : s.phaseP = .init) :
      Move (.startPoll false now) s { s with phaseP := .aborted }
  | startRespOk (s : State) (h : s.phaseR = .init) :
      Move (.startResp true) s { s with perD := { s.perD with rxen := true }, phaseR := .running, posR := .receive }
  | startRespFails (s : State) (h : s.phaseR = .init) : Move (.startResp false) s { s with phaseR := .aborted }
  | pollEncode (now : Nat) (d : RecvDraw) (s : State) (hp : s.phaseP = .running) (h : s.posP = .encode) :
      Move (.pollTick now d) s
        { s with port := { s.port with bytes := [cmdPoll], cap := 10 },
                 out := .done .ok (.symbols (encodedBuffer s.cfg [cmdPoll])),
                 posP := .transmit (encodedBuffer s.cfg [cmdPoll]) }
  | pollTransmit (now : Nat) (d : RecvDraw) (y : List Symbol) (s : State) (hp : s.phaseP = .running) (h : s.posP = .transmit y)
      (he : endsInStopEnd s.cfg y = true) :
      Move (.pollTick now d) s { s with perH := { s.perH with tx := s.perH.tx ++ y }, posP := .receive }
  | pollReceive (now k : Nat) (cap : List Symbol) (s : State) (hp : s.phaseP = .running) (h : s.posP = .receive)
      (hk : s.perH.pending[k]? = some cap) :
      Move (.pollTick now (.capture k)) s
        { s with perH := { s.perH with pending := s.perH.pending.eraseIdx k, lent := s.perH.lent ++ [cap] },
                 posP := .gate (some cap) }
  | pollGivesUp (now : Nat) (d : RecvDraw) (s : State) (hp : s.phaseP = .running) (h : s.posP = .receive) :
      Move (.pollTick now d) s { s with posP := .gate none }
  | pollGateShort (now : Nat) (d : RecvDraw) (cap : Option (List Symbol)) (s : State) (hp : s.phaseP = .running)
      (h : s.posP = .gate cap) (hs : ∀ c, cap = some c → c.length < s.cfg.pollMin) :
      Move (.pollTick now d) s { s with conn := false, posP := .release cap }
  | pollGatePasses (now : Nat) (d : RecvDraw) (cap : List Symbol) (s : State) (hp : s.phaseP = .running)
      (h : s.posP = .gate (some cap)) (hs : s.cfg.pollMin ≤ cap.length) :
      Move (.pollTick now d) s { s with conn := true, posP := .parse cap }
  | pollParse (now : Nat) (d : RecvDraw) (cap : List Symbol) (s : State) (hp : s.phaseP = .running) (h : s.posP = .parse cap)
      (syms : List Symbol) (out : PortOut) (w : Word) (pos : PollPos) (hsyms : syms = s.port.syms ∨ syms = cap.drop 9)
      (hpos : pos = .readWord cap ∨ pos = .release (some cap)) :
      Move (.pollTick now d) s { s with port := { s.port with syms := syms }, out := out, cs0 := w, posP := pos }
  | pollReadWord (now : Nat) (d : RecvDraw) (cap : List Symbol) (s : State) (hp : s.phaseP = .running)
      (h : s.posP = .readWord cap) :
      Move (.pollTick now d) s { s with out := .done .ok (.word s.cs0), posP := .publish cap s.cs0 }
  | pollPublish (now : Nat) (d : RecvDraw) (cap : List Symbol) (w : Word) (s : State) (hp : s.phaseP = .running)
      (h : s.posP = .publish cap w) :
      Move (.pollTick now d) s
        { s with port := { s.port with packet := { state := w, ts := now % 2 ^ s.cfg.tsW } },
                 mbx := { slot := { state := w, ts := now % 2 ^ s.cfg.tsW }, full := true,
                          fresh := List.replicate s.cfg.ncons true },
                 out := .done .ok .none, posP := .release (some cap) }
  | pollReleaseNone (now : Nat) (d : RecvDraw) (s : State) (hp : s.phaseP = .running) (h : s.posP = .release none) :
      Move (.pollTick now d) s { s with posP := .periodCheck }
  | pollRelease (now : Nat) (d : RecvDraw) (cap : List Symbol) (s : State) (hp : s.phaseP = .running)
      (h : s.posP = .release (some cap)) :
      Move (.pollTick now d) s { s with perH := { s.perH with lent := s.perH.lent.erase cap }, posP := .periodCheck }
  | pollPeriodCheck (now : Nat) (d : RecvDraw) (pos : PollPos) (s : State) (hp : s.phaseP = .running)
      (h : s.posP = .periodCheck) (hpos : pos = .resync ∨ pos = .periodWait) :
      Move (.pollTick now d) s { s with posP := pos }
  | pollResync (now : Nat) (d : RecvDraw) (s : State) (hp : s.phaseP = .running) (h : s.posP = .resync) :
      Move (.pollTick now d) s { s with anchor := timestamp s.cfg now, posP := .periodWait }
  | pollPeriodWait (now : Nat) (d : RecvDraw) (s : State) (hp : s.phaseP = .running) (h : s.posP = .periodWait)
      (hn : deadline s.cfg s.anchor ≤ timestamp s.cfg now) :
      Move (.pollTick now d) s { s with anchor := deadline s.cfg s.anchor, posP := .encode }
  | respReceive (k : Nat) (cap : List Symbol) (s : State) (hp : s.phaseR = .running) (h : s.posR = .receive)
      (hk : s.perD.pending[k]? = some cap) :
      Move (.respTick (.capture k)) s
        { s with perD := { s.perD with pending := s.perD.pending.eraseIdx k, lent := s.perD.lent ++ [cap] },
                 posR := .parse cap }
  | respParse (d : RecvDraw) (cap : List Symbol) (s : State) (hp : s.phaseR = .running) (h : s.posR = .parse cap)
      (out : PortOut) (cmd : Option Byte) :
      Move (.respTick d) s { s with port := { s.port with syms := cap }, out := out, posR := .release cap cmd }
  | respRelease (d : RecvDraw) (cap : List Symbol) (cmd : Option Byte) (pos : RespPos) (s : State) (hp : s.phaseR = .running)
      (h : s.posR = .release cap cmd) (hpos : pos = .receive ∨ ∃ b, pos = .peek b) :
      Move (.respTick d) s { s with perD := { s.perD with lent := s.perD.lent.erase cap }, posR := pos }
  | respPeekFresh (d : RecvDraw) (cmd : Byte) (s : State) (hp : s.phaseR = .running) (h : s.posR = .peek cmd)
      (hn : 0 < s.cfg.ncons) (hf : s.mbx.freshOf 0 = true) :
      Move (.respTick d) s
        { s with mbx := s.mbx.taken 0, out := .done .ok (.packet s.mbx.slot), posR := .load cmd s.mbx.slot.state }
  | respPeekStale (d : RecvDraw) (cmd : Byte) (out : PortOut) (s : State) (hp : s.phaseR = .running) (h : s.posR = .peek cmd) :
      Move (.respTick d) s { s with out := out, posR := .dispatch cmd }
  | respLoad (d : RecvDraw) (cmd : Byte) (w : Word) (s : State) (hp : s.phaseR = .running) (h : s.posR = .load cmd w) :
      Move (.respTick d) s
        { s with port := { s.port with word := w }, cs1 := w, out := .done .ok .none, posR := .dispatch cmd }
  | respReply (d : RecvDraw) (cmd : Byte) (s : State) (hp : s.phaseR = .running) (h : s.posR = .dispatch cmd) :
      Move (.respTick d) s
        { s with port := { s.port with bytes := idBytes s.cfg, cap := 26 },
                 out := .done .ok (.symbols (encodedBuffer s.cfg (idBytes s.cfg))),
                 posR := .stopCapture (encodedBuffer s.cfg (idBytes s.cfg)) }
  | respRead (d : RecvDraw) (cmd : Byte) (s : State) (hp : s.phaseR = .running) (h : s.posR = .dispatch cmd) :
      Move (.respTick d) s { s with out := .done .ok (.bytes (wordBytes s.cs1)), posR := .encode (wordBytes s.cs1) }
  | respEncode (d : RecvDraw) (b : List Byte) (s : State) (hp : s.phaseR = .running) (h : s.posR = .encode b) :
      Move (.respTick d) s
        { s with port := { s.port with bytes := b, cap := 34 }, out := .done .ok (.symbols (encodedBuffer s.cfg b)),
                 posR := .stopCapture (encodedBuffer s.cfg b) }
  | respNoReply (d : RecvDraw) (cmd : Byte) (s : State) (hp : s.phaseR = .running) (h : s.posR = .dispatch cmd) :
      Move (.respTick d) s { s with posR := .receive }
  | respStopCapture (d : RecvDraw) (y : List Symbol) (s : State) (hp : s.phaseR = .running) (h : s.posR = .stopCapture y) :
      Move (.respTick d) s { s with perD := { s.perD with rxen := false }, posR := .transmit y }
  | respTransmit (d : RecvDraw) (y : List Symbol) (s : State) (hp : s.phaseR = .running) (h : s.posR = .transmit y)
      (he : endsInStopEnd s.cfg y = true) :
      Move (.respTick d) s { s with perD := { s.perD with tx := s.perD.tx ++ y }, posR := .awaitSent }
  | respSent (d : RecvDraw) (s : State) (hp : s.phaseR = .running) (h : s.posR = .awaitSent) (ht : s.perD.tx = []) :
      Move (.respTick d) s { s with posR := .startCapture }
  | respStartCapture (d : RecvDraw) (s : State) (hp : s.phaseR = .running) (h : s.posR = .startCapture) :
      Move (.respTick d) s { s with perD := { s.perD with rxen := true }, posR := .receive }
  | sent (who : Role) (y : Symbol) (ys l : List Symbol) (f : List (List Symbol)) (s : State)
      (h : (s.getPer who).tx = y :: ys) :
      Move (.txTick who) s { s.setPer who { s.getPer who with tx := ys, line := l, sent := f } with txSel := who }
  | activity (who : Role) (y : List Symbol) (g : Option (List Symbol)) (s : State)
      (hg : ∀ cap, g = some cap → ∀ z ∈ cap,
        (∃ old, (s.getPer who).inProgress = some old ∧ z ∈ old) ∨ z ∈ y.map (cutSymbol s.cfg)) :
      Move (.activity who y) s (s.setPer who { s.getPer who with inProgress := g })
  | lineIdle (who : Role) (q : List (List Symbol)) (s : State)
      (hq : ∀ cap ∈ q, cap ∈ (s.getPer who).pending ∨ (s.getPer who).inProgress = some cap) :
      Move (.lineIdle who) s (s.setPer who { s.getPer who with inProgress := none, pending := q })

theorem startPoll_move (configured : Bool) (now : Nat) (s : State) :
    Move (.startPoll configured now) s (startPoll configured now s) := by
  unfold startPoll
  split
  · cases configured
    · exact .startPollFails now s ‹_›
    · exact .startPollOk now s ‹_›
  · exact .stay _ s

theorem startResp_move (configured : Bool) (s : State) : Move (.startResp configured) s (startResp configured s) := by
  unfold startResp
  split
  · cases configured
    · exact .startRespFails s ‹_›
    · exact .startRespOk s ‹_›
  · exact .stay _ s

theorem pollTick_move {now : Nat} {d : RecvDraw} {s t : State} (h : pollTick now d s = .next t) : Move (.pollTick now d) s t := by
  unfold pollTick at h
  split at h
  · next hp =>
    unfold pollStep at h
    cases hpos : s.posP with
    | encode => simp only [hpos, pollEncode_eq] at h; cases h; exact .pollEncode now d s hp hpos
    | transmit y =>
      simp only [hpos] at h
      by_cases he : endsInStopEnd s.cfg y = true
      · rw [pollTransmit_eq s y he] at h; cases h; exact .pollTransmit now d y s hp hpos he
      · simp [Machine.pollTransmit, transmit, he, andThen] at h
    | receive =>
      simp only [hpos] at h; cases h
      unfold Machine.pollReceive
      rcases receive_cases s.perH .bounded d with ⟨k, cap, rfl, hk, e⟩ | ⟨e, -⟩ | e <;> rw [e]
      · exact .pollReceive now k cap s hp hpos hk
      · exact .pollGivesUp now d s hp hpos
      · exact .stay _ s
    | gate cap =>
      simp only [hpos] at h; cases h
      unfold Machine.pollGate
      cases cap with
      | none => exact .pollGateShort now d none s hp hpos (by simp)
      | some c =>
        dsimp only
        split
        · exact .pollGateShort now d (some c) s hp hpos (by rintro _ ⟨⟩; assumption)
        · exact .pollGatePasses now d c s hp hpos (by omega)
    | parse cap =>
      simp only [hpos] at h
      obtain ⟨syms, out, w, pos, e, hsyms, hor⟩ := pollParse_cases s cap
      rw [e] at h; cases h
      exact .pollParse now d cap s hp hpos syms out w pos hsyms hor
    | readWord cap => simp only [hpos, pollReadWord_eq] at h; cases h; exact .pollReadWord now d cap s hp hpos
    | publish cap w => simp only [hpos, pollPublish_eq] at h; cases h; exact .pollPublish now d cap w s hp hpos
    | release cap =>
      simp only [hpos] at h; cases h
      cases cap with
      | none => exact .pollReleaseNone now d s hp hpos
      | some c => exact .pollRelease now d c s hp hpos
    | periodCheck =>
      simp only [hpos] at h; cases h
      unfold Machine.pollPeriodCheck
      split
      · exact .pollPeriodCheck now d .resync s hp hpos (.inl rfl)
      · exact .pollPeriodCheck now d .periodWait s hp hpos (.inr rfl)
    | resync => simp only [hpos] at h; cases h; exact .pollResync now d s hp hpos
    | periodWait =>
      simp only [hpos] at h; cases h
      unfold Machine.pollPeriodWait
      split
      · exact .pollPeriodWait now d s hp hpos ‹_›
      · exact .stay _ s
  · cases h; exact .stay _ s

theorem respTick_move {d : RecvDraw} {s t : State} (h : respTick d s = .next t) : Move (.respTick d) s t := by
  unfold respTick at h
  split at h
  · next hp =>
    unfold respStep at h
    cases hpos : s.posR with
    | receive =>
      simp only [hpos] at h; cases h
      unfold Machine.respReceive
      rcases receive_cases s.perD .forever d with ⟨k, cap, rfl, hk, e⟩ | ⟨e, -⟩ | e <;> rw [e]
      · exact .respReceive k cap s hp hpos hk
      · exact .stay _ s
      · exact .stay _ s
    | parse cap =>
      simp only [hpos] at h
      by_cases h8 : cap.length < 8
      · rw [respParse_short s cap h8] at h; cases h; exact .respParse d cap s hp hpos _ _
      · rw [respParse_long s cap (by omega)] at h; cases h; exact .respParse d cap s hp hpos _ _
    | release cap cmd =>
      simp only [hpos] at h; cases h
      cases cmd with
      | none => exact .respRelease d cap none .receive s hp hpos (.inl rfl)
      | some b => exact .respRelease d cap (some b) (.peek b) s hp hpos (.inr ⟨b, rfl⟩)
    | peek cmd =>
      simp only [hpos] at h
      by_cases hn : 0 < s.cfg.ncons
      · cases hf : s.mbx.freshOf 0 with
        | true => rw [respPeek_fresh s cmd hn hf] at h; cases h; exact .respPeekFresh d cmd s hp hpos hn hf
        | false => rw [respPeek_stale s cmd hn hf] at h; cases h; exact .respPeekStale d cmd _ s hp hpos
      · rw [respPeek_noConsumer s cmd hn] at h; cases h; exact .respPeekStale d cmd _ s hp hpos
    | load cmd w => simp only [hpos, respLoad_eq] at h; cases h; exact .respLoad d cmd w s hp hpos
    | dispatch cmd =>
      simp only [hpos] at h
      rcases respDispatch_cases s cmd with e | e | e <;> rw [e] at h <;> cases h
      · exact .respReply d cmd s hp hpos
      · exact .respRead d cmd s hp hpos
      · exact .respNoReply d cmd s hp hpos
    | encode b =>
      simp only [hpos] at h
      by_cases hb : b.length ≤ 4
      · rw [encodePollReply_eq s b hb] at h; cases h; exact .respEncode d b s hp hpos
      · rw [encodePollReply, buildReply_small b 34 s (by omega)] at h; cases h
    | stopCapture y => simp only [hpos] at h; cases h; exact .respStopCapture d y s hp hpos
    | transmit y =>
      simp only [hpos] at h
      by_cases he : endsInStopEnd s.cfg y = true
      · rw [respTransmit_eq s y he] at h; cases h; exact .respTransmit d y s hp hpos he
      · simp [Machine.respTransmit, transmit, he, andThen] at h
    | awaitSent =>
      simp only [hpos] at h; cases h
      unfold respAwaitSent
      split
      · exact .respSent d s hp hpos ‹_›
      · exact .stay _ s
    | startCapture => simp only [hpos] at h; cases h; exact .respStartCapture d s hp hpos
  · cases h; exact .stay _ s

/-- The inversion lemma for an event. -/
theorem handle_next_move {e : Event} {s t : State} (h : handle e s = .next t) : Move e s t := by
  cases e with
  | request who w ops =>
    rcases handleRequest_cases s who w ops with ⟨i, t, hd, he, e⟩ | ⟨hd, e⟩ <;> simp only [handle] at h <;> rw [e] at h <;> cases h
    · exact .request who w ops i s t _ hd he rfl
    · exact .illegal who w ops s hd
  | wake n expired =>
    simp only [handle] at h
    rcases wakeTake_cases s n expired with e | ⟨g, hg, hf, e⟩ | ⟨hf, e⟩ <;> rw [e] at h <;> cases h
    · exact .stay _ s
    · exact .woken n expired g s hg hf
    · exact .expired n expired s hf
  | startPoll configured now => simp only [handle] at h; cases h; exact startPoll_move configured now s
  | startResp configured => simp only [handle] at h; cases h; exact startResp_move configured s
  | pollTick now d => exact pollTick_move h
  | respTick d => exact respTick_move h
  | txTick who =>
    simp only [handle] at h
    rcases handleTx_cases s who with ⟨-, e⟩ | ⟨y, ys, l, f, ht, e⟩ <;> rw [e] at h <;> cases h
    · exact .stay _ s
    · exact .sent who y ys l f s ht
  | activity who y =>
    simp only [handle] at h; cases h
    obtain ⟨g, e, hg⟩ := activity_frame (s.getPer who) (y.map (cutSymbol s.cfg))
    rw [e]; exact .activity who y g s hg
  | lineIdle who =>
    simp only [handle] at h; cases h
    obtain ⟨q, e, hq⟩ := lineIdle_frame (s.getPer who)
    rw [e]; exact .lineIdle who q s hq

/-- The inversion lemma for a step: nothing was to happen, or the first event made its move. -/
theorem step_next_move {s t : State} (h : step s = .next t) :
    (s.inbox = [] ∧ t = s) ∨ ∃ e rest, s.inbox = e :: rest ∧ Move e { s with inbox := rest } t := by
  rcases step_next_cases h with ⟨h0, h1⟩ | ⟨e, rest, h0, h1⟩
  · exact .inl ⟨h0, h1⟩
  · exact .inr ⟨e, rest, h0, handle_next_move h1⟩

/-- A property of states that the inbox does not matter for, and that every move keeps, is kept by every step. -/
theorem step_keeps {P : State → Prop} (hi : ∀ s l, P s → P { s with inbox := l }) (hm : ∀ e s t, Move e s t → P s → P t)
    {s t : State} (h : step s = .next t) (hs : P s) : P t := by
  rcases step_next_move h with ⟨-, rfl⟩ | ⟨e, rest, -, hmv⟩
  · exact hs
  · exact hm e _ t hmv (hi s rest hs)

end Sys2Proof.Machine
end

