-- ==== Sys2Proof/Laws/Widths.lean ====
section
/-! SUPPORT. The widths of what comes in from outside: cutting keeps what fits and always gives what fits, field by field; the
Poll Scheduler's two times; and captures under the peripheral's updates. -/

namespace Sys2Proof.Machine

/-! ## Cutting -/

section
variable (c : Config)

theorem timestamp_lt (n : Nat) : timestamp c n < 2 ^ c.tsW :=
  Nat.mod_lt _ (Nat.two_pow_pos _)

theorem timestamp_of_lt {n : Nat} (h : n < 2 ^ c.tsW) : timestamp c n = n :=
  Nat.mod_eq_of_lt h

theorem cutSymbol_fits (y : Symbol) : (cutSymbol c y).fits c :=
  ⟨Nat.mod_lt _ (Nat.two_pow_pos _), Nat.mod_lt _ (Nat.two_pow_pos _)⟩

theorem cutSymbol_of_fits {y : Symbol} (h : y.fits c) : cutSymbol c y = y := by
  simp [cutSymbol, Nat.mod_eq_of_lt h.1, Nat.mod_eq_of_lt h.2]

theorem cutPacket_fits (p : Packet) : (cutPacket c p).fits c :=
  timestamp_lt c p.ts

theorem cutPacket_of_fits {p : Packet} (h : p.fits c) : cutPacket c p = p := by
  simp [cutPacket, timestamp_of_lt c h]

variable (ops : Operands)

@[simp] theorem cutOperands_bit : (cutOperands c ops).bit = ops.bit := rfl
@[simp] theorem cutOperands_sym : (cutOperands c ops).sym = cutSymbol c ops.sym := rfl
@[simp] theorem cutOperands_bytes : (cutOperands c ops).bytes = ops.bytes := rfl
@[simp] theorem cutOperands_cap : (cutOperands c ops).cap = ops.cap := rfl
@[simp] theorem cutOperands_syms : (cutOperands c ops).syms = ops.syms.map (cutSymbol c) := rfl
@[simp] theorem cutOperands_word : (cutOperands c ops).word = ops.word := rfl
@[simp] theorem cutOperands_packet : (cutOperands c ops).packet = cutPacket c ops.packet := rfl

theorem cutOperands_of_fits (h1 : ops.sym.fits c) (h2 : ∀ y ∈ ops.syms, y.fits c) (h3 : ops.packet.fits c) :
    cutOperands c ops = ops := by
  have e : ops.syms.map (cutSymbol c) = ops.syms :=
    (List.map_congr_left fun y hy => cutSymbol_of_fits c (h2 y hy)).trans (List.map_id' _)
  simp [cutOperands, cutSymbol_of_fits c h1, e, cutPacket_of_fits c h3]

/-! ## The Poll Scheduler's times (spec/44_sequencers.md R206) -/

theorem elapsed_of_le {now anchor : Nat} (h : anchor ≤ now) : elapsed now anchor = now - anchor :=
  if_pos h

theorem deadline_of_fits {anchor : Nat} (h : anchor + c.period < 2 ^ c.tsW) : deadline c anchor = anchor + c.period :=
  if_pos h

theorem deadline_lt (anchor : Nat) : deadline c anchor < 2 ^ c.tsW := by
  unfold deadline
  split
  · assumption
  · exact timestamp_lt c _

end

end Sys2Proof.Machine

namespace Sys2Proof.Safety

open Sys2Proof.Machine

section
variable {c : Config}

theorem allFit_cut (syms : List Symbol) : AllFit c (syms.map (cutSymbol c)) := by
  intro y hy
  obtain ⟨z, -, rfl⟩ := List.mem_map.1 hy
  exact cutSymbol_fits c z

theorem AllFit.drop {syms : List Symbol} (h : AllFit c syms) (n : Nat) : AllFit c (syms.drop n) :=
  fun y hy => h y (List.mem_of_mem_drop hy)

/-- Captures after activity: what was there and what appeared, cut to its width. -/
theorem CapturesFit.activity {p : Peripheral} (h : CapturesFit c p) {g : Option (List Symbol)} {y : List Symbol}
    (hg : ∀ cap, g = some cap → ∀ z ∈ cap, (∃ old, p.inProgress = some old ∧ z ∈ old) ∨ z ∈ y.map (cutSymbol c)) :
    CapturesFit c { p with inProgress := g } where
  inProgress := fun cap hc z hz => (hg cap hc z hz).elim (fun ⟨old, ho, hm⟩ => h.1 old ho z hm) (allFit_cut y z)
  pending := h.2
  lent := h.3

/-- Captures after the end of a burst. -/
theorem CapturesFit.lineIdle {p : Peripheral} (h : CapturesFit c p) {q : List (List Symbol)}
    (hq : ∀ cap ∈ q, cap ∈ p.pending ∨ p.inProgress = some cap) :
    CapturesFit c { p with inProgress := none, pending := q } where
  inProgress := fun _ hc => by cases hc
  pending := fun cap hc => (hq cap hc).elim (h.2 cap) (h.1 cap)
  lent := h.3

/-- Captures after one is lent. -/
theorem CapturesFit.receive {p : Peripheral} (h : CapturesFit c p) {k : Nat} {cap : List Symbol} (hk : p.pending[k]? = some cap) :
    CapturesFit c { p with pending := p.pending.eraseIdx k, lent := p.lent ++ [cap] } where
  inProgress := h.1
  pending := fun d hd => h.2 d (List.mem_of_mem_eraseIdx hd)
  lent := fun d hd => (List.mem_append.1 hd).elim (h.3 d) fun e => by
    rw [List.mem_singleton.1 e]; exact h.2 cap (List.mem_of_getElem? hk)

/-- Captures after one is given back. -/
theorem CapturesFit.release {p : Peripheral} (h : CapturesFit c p) (cap : List Symbol) :
    CapturesFit c { p with lent := p.lent.erase cap } where
  inProgress := h.1
  pending := h.2
  lent := fun d hd => h.3 d (List.mem_of_mem_erase hd)

end

end Sys2Proof.Safety
end

