-- ==== Sys2Proof/Tests/Slice0.lean ====
section
/-! SUPPORT. The model's own tests: ill-formed terms refused, words written out from the spec's encodings, one step on small
states with results from the spec's vectors (spec/95_test_vectors.md), and for every statement that has hypotheses a
witness that meets them. -/

namespace Sys2Proof.Tests

open Sys2Proof.Machine Sys2Proof.Safety

/-! ## Small states -/

/-- The configuration of the spec's vectors (95_test_vectors.md); `PERIOD`, which has none there, is 10. -/
def cfg : Config :=
  { tShort := 1, tLong := 3, thresh := 100, tickRatio := 50, durW := 15,
    stopSymbol := { d0 := 2, l0 := .low, d1 := 1, l1 := .high }, pollMin := 42,
    idReply := { b0 := 0x05, b1 := 0x00, b2 := 0x02 }, tsW := 32, ncons := 1, period := 10 }

/-- Reset under that configuration. -/
def base : State := State.ofConfig cfg

/-- The same with two consumers. -/
def base2 : State := State.ofConfig { cfg with ncons := 2 }

def Z : Symbol := { d0 := 3, l0 := .low, d1 := 1, l1 := .high }
def O : Symbol := { d0 := 1, l0 := .low, d1 := 3, l1 := .high }
def P : Symbol := { d0 := 2, l0 := .low, d1 := 1, l1 := .high }
def E : Symbol := { d0 := 0, l0 := .low, d1 := 0, l1 := .low }

/-- A capture by its first durations; the rest of each symbol is of no account (30_encoding.md R92). -/
def capture (ds : List Nat) : List Symbol :=
  ds.map fun d => { d0 := d, l0 := .high, d1 := 7, l1 := .low }

/-- `n` captured zero bits. -/
def zeros (n : Nat) : List Nat := List.replicate n 150

/-- `n` captured one bits. -/
def ones (n : Nat) : List Nat := List.replicate n 50

/-- The 32 symbols of the state 0x00107F80 (95_test_vectors.md V-F9). -/
def state32 : List Nat := zeros 11 ++ ones 1 ++ zeros 5 ++ ones 8 ++ zeros 7

/-- `H42` of 95_test_vectors.md. -/
def h42 : List Symbol := capture (zeros 7 ++ ones 1 ++ [100] ++ state32 ++ [100])

/-- Its first 41 symbols. -/
def h41 : List Symbol := h42.take 41

/-- The command 0x01 with its stop, captured (95_test_vectors.md V-F3). -/
def pollCapture : List Symbol := capture (zeros 7 ++ ones 1 ++ [100])

def withSyms (s : State) (y : List Symbol) : State := { s with port := { s.port with syms := y } }
def withBytes (s : State) (b : List Byte) (n : Nat) : State := { s with port := { s.port with bytes := b, cap := n } }
def withPacket (s : State) (p : Packet) : State := { s with port := { s.port with packet := p } }

/-- An issuer outside the two agents: a further consumer. -/
def user : Issuer := .consumer 1

/-- The mailbox after one publish of `p`. -/
def publishedBase (p : Packet) : State := { base with mbx := { slot := p, full := true, fresh := [true] } }

def p1 : Packet := { state := 0x80000000, ts := 1 }
def p2 : Packet := { state := 0x40000000, ts := 2 }

/-- The Poll Scheduler running, at a place. -/
def hostAt (pos : PollPos) (inbox : List Event) : State :=
  { base with phaseP := .running, posP := pos, perH := { base.perH with rxen := true }, inbox := inbox }

/-- The Command Responder running, at a place. -/
def deviceAt (pos : RespPos) (inbox : List Event) : State :=
  { base with phaseR := .running, posR := pos, perD := { base.perD with rxen := true }, inbox := inbox }

/-- The next state of a result, if it is one. -/
def after : Result → Option State
  | .next s => some s
  | _ => none

/-- What the port answers after a result. -/
def answer (r : Result) : Option PortOut := (after r).map (·.out)

/-! ## Ill-formed terms are refused (00_scope.md R9, R11, R14, R18; 30_encoding.md R85, R101, R111) -/

theorem test_wf_vectors : cfg.wf := by decide
theorem test_wf_default : Config.default.wf := by decide
theorem test_wf1_short_zero : ¬ { cfg with tShort := 0 }.wf1 := by decide
theorem test_wf1_short_not_below_long : ¬ { cfg with tShort := 3 }.wf1 := by decide
theorem test_wf1_long_too_wide : ¬ { cfg with tLong := 32768 }.wf1 := by decide
theorem test_wf2_default_bounds : ¬ cfg.wf2 33 ∧ cfg.wf2 34 ∧ cfg.wf2 99 ∧ ¬ cfg.wf2 100 := by decide
theorem test_wf_stop_zero_first : ¬ { cfg with stopSymbol := { P with d0 := 0 } }.wf := by decide
theorem test_wf_stop_zero_second : ¬ { cfg with stopSymbol := { P with d1 := 0 } }.wf := by decide
theorem test_wf_stop_first_level : ¬ { cfg with stopSymbol := { P with l0 := .high } }.wf := by decide
theorem test_wf_stop_second_level : ¬ { cfg with stopSymbol := { P with l1 := .low } }.wf := by decide
theorem test_wf_stop_too_wide : ¬ { cfg with stopSymbol := { P with d0 := 32768 } }.wf := by decide
theorem test_wf_poll_min : ¬ { cfg with pollMin := 40 }.wf ∧ { cfg with pollMin := 41 }.wf := by decide
theorem test_wf_ncons : ¬ { cfg with ncons := 0 }.wf ∧ ¬ { cfg with ncons := 17 }.wf ∧ { cfg with ncons := 16 }.wf := by decide
theorem test_wf_symbol : ¬ Symbol.fits cfg { Z with d1 := 32768 } ∧ Symbol.fits cfg { Z with d1 := 32767 } := by decide
theorem test_wf_packet : ¬ Packet.fits cfg { p1 with ts := 2 ^ 32 } ∧ Packet.fits cfg p1 := by decide
theorem test_wf_field : ¬ Instr.wf cfg (.csRdField .cs0 18) ∧ Instr.wf cfg (.csRdField .cs0 17) := by decide
theorem test_wf_consumer : ¬ Instr.wf cfg (.mbxTake .zero 1) ∧ Instr.wf cfg (.mbxTake .zero 0) := by decide
theorem test_wf_stop_as_data : ¬ Instr.wf { cfg with stopSymbol := Z } .symStop ∧ Instr.wf cfg .symStop := by decide
theorem test_bad_config_refused : State.ofConfig? { cfg with tShort := 0 } = none := by decide

/-! ## Words written out from the spec's encodings (30_encoding.md R87 to R90, R99, R108, R111) -/

theorem test_decode_encBit : decodeTableWord 16 0b0000000000000000 = some .encBit := by decide
theorem test_decode_encBuf : decodeTableWord 16 0b0001000000000000 = some .encBuf := by decide
theorem test_decode_classify : decodeTableWord 16 0b0010000000000000 = some .classify := by decide
theorem test_decode_decBits : decodeTableWord 16 0b0011000000000000 = some .decBits := by decide
theorem test_decode_parseCmd : decodeTableWord 16 0b0100000000000000 = some .parseCmd := by decide
theorem test_decode_parseState : decodeTableWord 16 0b0101000000000000 = some (.parseState .cs0) ∧
    decodeTableWord 16 0b0101100000000000 = some (.parseState .cs1) := by decide
theorem test_decode_csRdWord : decodeTableWord 16 0b0110000000000000 = some (.csRdWord .cs0) ∧
    decodeTableWord 16 0b0110100000000000 = some (.csRdWord .cs1) := by decide
theorem test_decode_csRdField : decodeTableWord 16 0b0111000010110000 = some (.csRdField .cs0 11) ∧
    decodeTableWord 16 0b0111100100010000 = some (.csRdField .cs1 17) := by decide
theorem test_decode_csRdBytes : decodeTableWord 16 0b1000000000000000 = some (.csRdBytes .cs0) ∧
    decodeTableWord 16 0b1000100000000000 = some (.csRdBytes .cs1) := by decide
theorem test_decode_csLdWord : decodeTableWord 16 0b1001000000000000 = some (.csLdWord .cs0) ∧
    decodeTableWord 16 0b1001100000000000 = some (.csLdWord .cs1) := by decide
theorem test_decode_mbxPublish : decodeTableWord 16 0b1010000000000000 = some .mbxPublish := by decide
theorem test_decode_mbxTake : decodeTableWord 16 0b1011000000000000 = some (.mbxTake .zero 0) ∧
    decodeTableWord 16 0b1011001000000000 = some (.mbxTake .bounded 0) ∧
    decodeTableWord 16 0b1011010000000000 = some (.mbxTake .forever 0) := by decide
theorem test_decode_mbxTake_consumer :
    decode { cfg with ncons := 16 } (.req 0b1011010000001101) = .ok (.mbxTake .forever 13) := by decide
theorem test_decode_status : decodeTableWord 8 0x00 = some .status := by decide
theorem test_decode_poll : decodeTableWord 8 0x01 = some .poll := by decide
theorem test_decode_symZero : decodeTableWord 32 0x80010003 = some .symZero := by decide
theorem test_decode_symOne : decodeTableWord 32 0x80030001 = some .symOne := by decide
theorem test_decode_symStop : decodeTableWord 32 0x80010002 = some .symStop := by decide
theorem test_decode_symEnd : decodeTableWord 32 0x00000000 = some .symEnd := by decide
theorem test_reject_op : decode cfg (.req 0xC000) = .reject (.reservedOp 0xC) ∧
    decode cfg (.req 0xD123) = .reject (.reservedOp 0xD) ∧ decode cfg (.req 0xFFFF) = .reject (.reservedOp 0xF) := by decide
theorem test_reject_unused : decode cfg (.req 0x0001) = .reject .unusedFieldSet ∧
    decode cfg (.req 0x1800) = .reject .unusedFieldSet ∧ decode cfg (.req 0xA010) = .reject .unusedFieldSet := by decide
theorem test_reject_timeout : decode cfg (.req 0xB600) = .reject .reservedTimeout := by decide
theorem test_reject_field : decode cfg (.req 0x7120) = .reject (.fieldOutOfRange 18) := by decide
theorem test_reject_consumer : decode cfg (.req 0xB001) = .reject (.consumerOutOfRange 1) := by decide
theorem test_reject_command : decode cfg (.cmd 0x7F) = .reject (.unrecognizedCommand 0x7F) := by decide
theorem test_reject_symbol : decode cfg (.sym { Z with d0 := 150 }) = .reject (.notCanonical { Z with d0 := 150 }) := by decide
theorem test_pack_canonical : packSym32 Z = 0x80010003 ∧ packSym32 O = 0x80030001 ∧ packSym32 P = 0x80010002 ∧
    packSym32 E = 0 := by decide
theorem test_status_codes : [Status.ok, .changed, .unchanged, .malformed, .capacity, .timeout, .illegalOp].map Status.code =
    [0, 1, 2, 3, 4, 5, 6] := by decide

/-! ## One operation on a small state (95_test_vectors.md part 2, by its ids) -/

theorem test_encBit_one : answer (exec .encBit { base with port := { base.port with bit := true } }) =
    some (.done .ok (.symbol O)) := by decide  -- V-P1
theorem test_encBit_zero : answer (exec .encBit base) = some (.done .ok (.symbol Z)) := by decide  -- V-P2
theorem test_encBuf_a5 : answer (exec .encBuf (withBytes base [0xA5] 10)) =
    some (.done .ok (.symbols [O, Z, O, Z, Z, O, Z, O, P, E])) := by decide  -- V-P5
theorem test_encBuf_capacity : answer (exec .encBuf (withBytes base [0x01] 9)) = some (.done .capacity .none) := by decide  -- V-P4
theorem test_encBuf_empty : answer (exec .encBuf (withBytes base [] 2)) = some (.done .ok (.symbols [P, E])) := by decide  -- V-P9a
theorem test_classify_below : answer (exec .classify { base with port := { base.port with sym := { P with d0 := 99 } } }) =
    some (.done .ok (.bit true)) := by decide  -- V-P10
theorem test_classify_at : answer (exec .classify { base with port := { base.port with sym := { P with d0 := 100 } } }) =
    some (.done .ok (.bit false)) := by decide  -- V-P10
theorem test_decBits_group : answer (exec .decBits (withSyms base (capture (ones 8 ++ zeros 2)))) =
    some (.done .ok (.decoded [true, true, true, true, true, true, true, true, false, false] [0xFF])) := by decide  -- V-P13
theorem test_decBits_loop : answer (exec .decBits (withSyms base (loopBuffer 50 [O, Z, O, Z, Z, O, Z, O]))) =
    some (.done .ok (.decoded [true, false, true, false, false, true, false, true] [0xA5])) := by decide  -- V-P5
theorem test_parseCmd_poll : answer (exec .parseCmd (withSyms base pollCapture)) = some (.done .ok (.byte 0x01)) := by decide  -- V-F3
theorem test_parseCmd_7f : answer (exec .parseCmd (withSyms base (capture (zeros 1 ++ ones 7)))) =
    some (.done .ok (.byte 0x7F)) := by decide  -- V-F4
theorem test_parseState_changed :
    (after (exec (.parseState .cs0) (withSyms base (capture state32)))).map (fun s => (s.cs0, s.cs1, s.out)) =
      some (0x00107F80, 0, .done .changed .none) := by decide  -- V-F9
theorem test_parseState_mixed :
    (after (exec (.parseState .cs1) (withSyms base (capture [50, 150, 50, 150, 150, 50, 150, 50, 50, 50, 150, 150, 150, 150,
      50, 50, 50, 150, 150, 150, 150, 150, 150, 50, 150, 50, 50, 50, 50, 50, 50, 50])))).map (fun s => (s.cs0, s.cs1)) =
      some (0, 0xA5C3817F) := by decide  -- V-F12, with r = 1 as in V-F14
theorem test_parsePoll_h42 : (after (parsePoll .cs0 h42 base)).map (fun s => (s.cs0, s.out)) =
    some (0x00107F80, .done .changed .none) := by decide  -- V-F16
theorem test_parsePoll_h41 : (after (parsePoll .cs0 h41 base)).map (fun s => (s.cs0, s.out)) =
    some (0, .done .malformed .none) := by decide  -- V-F17
theorem test_csRdWord_reset : answer (exec (.csRdWord .cs0) base) = some (.done .ok (.word 0)) := by decide  -- V-S1
theorem test_csRdWord_one : answer (exec (.csRdWord .cs1) { base with cs1 := 0x80000000 }) =
    some (.done .ok (.word 0x80000000)) := by decide
theorem test_csRdField_flag : answer (exec (.csRdField .cs0 11) { base with cs0 := 0x00107F80 }) =
    some (.done .ok (.flag true)) := by decide  -- V-S3
theorem test_csRdField_axis : answer (exec (.csRdField .cs0 17) { base with cs0 := 0x00107F80 }) =
    some (.done .ok (.axis (-128))) := by decide  -- V-S3
theorem test_csRdBytes : answer (exec (.csRdBytes .cs0) { base with cs0 := 0x00107F80 }) =
    some (.done .ok (.bytes [0x00, 0x10, 0x7F, 0x80])) := by decide  -- V-S2
theorem test_csLdWord : (after (exec (.csLdWord .cs1) { base with port := { base.port with word := 0x000001FF } })).map
    (fun s => (s.cs0, s.cs1)) = some (0, 0x000001FF) := by decide  -- V-S6
theorem test_publish_overwrites : (after (exec .mbxPublish (withPacket (publishedBase p1) p2))).map (·.mbx) =
    some { slot := p2, full := true, fresh := [true] } := by decide  -- mailbox table, step 4
theorem test_peek_reset : answer (exec (.mbxTake .zero 0) base) = some (.done .timeout .none) := by decide  -- step 1
theorem test_take_clears_flag : (after (exec (.mbxTake .forever 0) (publishedBase p2))).map (fun s => (s.out, s.mbx)) =
    some (.done .ok (.packet p2), { slot := p2, full := true, fresh := [false] }) := by decide  -- step 5
theorem test_status_reply : (after (exec .status base)).map (·.posR) =
    some (.stopCapture [Z, Z, Z, Z, Z, O, Z, O, Z, Z, Z, Z, Z, Z, Z, Z, Z, Z, Z, Z, Z, Z, O, Z, P, E]) := by decide  -- V-P8
theorem test_poll_reads : (after (exec .poll { base with cs1 := 0x00107F80 })).map (·.posR) =
    some (.encode [0x00, 0x10, 0x7F, 0x80]) := by decide  -- V-P9, its first operation
theorem test_poll_reply : (after (step (deviceAt (.encode [0x00, 0x10, 0x7F, 0x80]) [.respTick .wait]))).map (·.posR) =
    some (.stopCapture [Z, Z, Z, Z, Z, Z, Z, Z, Z, Z, Z, O, Z, Z, Z, Z, Z, O, O, O, O, O, O, O, O, Z, Z, Z, Z, Z, Z, Z, P, E]) :=
  by decide  -- V-P9
theorem test_symZero : (after (exec .symZero base)).map (·.perH.line) = some [Z] := by decide
theorem test_symOne : (after (exec .symOne base)).map (·.perH.line) = some [O] := by decide
theorem test_symStop : (after (exec .symStop { base with txSel := .device })).map (·.perD.line) = some [P] := by decide
theorem test_symEnd : (after (exec .symEnd { base with perH := { base.perH with line := [Z, P] } })).map
    (fun s => (s.perH.line, s.perH.sent)) = some ([], [[Z, P]]) := by decide

/-! ## The next instruction is fetched where withFetchWord puts it -/

theorem test_fetch_req : answer (step (State.reset.withFetchWord 16 0x6000)) = some (.done .ok (.word 0)) := by decide
theorem test_fetch_cmd : (after (step (State.reset.withFetchWord 8 0x01))).map (·.posR) =
    some (.encode [0, 0, 0, 0]) := by decide  -- scenario A: the zero state
theorem test_fetch_sym : (after (step (State.reset.withFetchWord 32 0x80030001))).map (·.perH.line) = some [O] := by decide
theorem test_fetch_status : (after (step (State.reset.withFetchWord 8 0x00))).map (fun s => (Safety.respSends s.posR).map (·.length)) =
    some (some 26) := by decide  -- whatever the three bytes are
theorem test_fetch_illegal : answer (step (State.reset.withFetchWord 16 0xB001)) = some (.done .illegalOp .none) := by decide

/-! ## The edges of the widths and of the receive enable -/

theorem test_request_cut :
    (after (step { base with inbox := [.request user 0x2000 { base.port with sym := { Z with d0 := 32768 + 99 } }] })).map
      (fun s => (s.port.sym.d0, s.out)) = some (99, .done .ok (.bit true)) := by decide  -- R10: 15 bits (log 14)
theorem test_anchor_cut : (after (step { base with inbox := [.startPoll true (2 ^ 32 + 7)] })).map (·.anchor) = some 7 := by decide  -- R196: 32 bits
theorem test_burst_lost : (after (step { base with perD := { base.perD with inProgress := some h42 }, inbox := [.lineIdle .device] })).map
    (fun s => (s.perD.inProgress, s.perD.pending)) = some (none, []) := by decide  -- R238: RXEN = 0
theorem test_burst_pending : (after (step { deviceAt .receive [.lineIdle .device] with
      perD := { base.perD with rxen := true, inProgress := some h42, pending := [h41] } })).map
    (fun s => (s.perD.inProgress, s.perD.pending)) = some (none, [h41, h42]) := by decide  -- R238: RXEN = 1

/-! ## Witnesses: for each statement with hypotheses, states and operands that meet them together, at the boundary values -/

def encA5 : State := withBytes base [0xA5] 10

/-- A symbol with first duration `d` on the port. -/
def withD0 (d : Nat) : State := { base with port := { base.port with sym := { Z with d0 := d } } }

theorem witness_EncBufWritesDataStopEnd : 8 * encA5.port.bytes.length + 2 = encA5.port.cap ∧
    (withBytes base [0xA5] 9).port.cap < 8 * (withBytes base [0xA5] 9).port.bytes.length + 2 := by decide
theorem witness_EncBufRefusesSmallCapacity :
    (withBytes base [0xA5] 9).port.cap + 1 = 8 * (withBytes base [0xA5] 9).port.bytes.length + 2 := by decide

/-- A consumer's request of `ENC_BUF` with one byte and one symbol too few, and a second one. -/
def overrunning : State :=
  { base with inbox := [.request user 0x1000 { base.port with bytes := [0x01], cap := 9 },
                        .request user 0x1000 { base.port with bytes := [0x01], cap := 9 }] }

theorem test_capacity_marks : (after (step overrunning)).map (fun s => (s.out, s.faulted)) =
    some (.done .capacity .none, [user]) := by decide  -- V-P4, R229
theorem test_capacity_marks_once : ((after (step overrunning)).bind fun s => after (step s)).map (·.faulted) = some [user] := by
  decide  -- R229
theorem witness_EncBufRefusesSmallCapacity_request :
    overrunning.inbox = .request user 0x1000 { base.port with bytes := [0x01], cap := 9 } ::
      [.request user 0x1000 { base.port with bytes := [0x01], cap := 9 }] ∧
    ({ base.port with bytes := [0x01], cap := 9 } : Operands).cap + 1 = 8 * [(0x01 : Byte)].length + 2 ∧
    user ∉ overrunning.faulted ∧ user ∈ ({ overrunning with faulted := [user] }).faulted := by decide
theorem witness_EncBufRefusesSmallCapacity_marked : ∃ t, step overrunning = .next t ∧ t.faulted ≠ overrunning.faulted :=
  ⟨_, rfl, by decide⟩
theorem witness_ClassifyComparesTheFirstDuration_extremes :
    ({ withD0 0 with cfg := { cfg with thresh := 0 } }).cfg.thresh = 0 ∧
    ({ withD0 32767 with cfg := { cfg with thresh := 32768 } }).cfg.thresh = 2 ^ cfg.durW ∧
    ({ withD0 32767 with cfg := { cfg with thresh := 32768 } }).port.sym.fits { cfg with thresh := 32768 } := by decide
theorem witness_ClassifyToleratesTheBandUnderWF2_short : (withD0 50).cfg.wf2 50 ∧ (withD0 50).port.sym.d0 = (withD0 50).cfg.tShort * 50 := by
  decide
theorem witness_ClassifyToleratesTheBandUnderWF2_long : (withD0 150).cfg.wf2 50 ∧ (withD0 150).cfg.tLong * 50 = (withD0 150).port.sym.d0 := by
  decide
theorem witness_ClassifyToleratesTheBandUnderWF2_band : (withD0 99).cfg.wf2 50 ∧ (withD0 99).port.sym.d0 = (withD0 99).cfg.thresh - 1 ∧
    (withD0 100).cfg.wf2 50 ∧ (withD0 100).cfg.thresh = (withD0 100).port.sym.d0 := by decide
theorem witness_RoundTripThroughTheLoopback : ∃ t, encA5.cfg.wf2 50 ∧ exec .encBuf encA5 = .next t ∧
    t.out = .done .ok (.symbols [O, Z, O, Z, Z, O, Z, O, P, E]) :=
  ⟨_, by decide, rfl, rfl⟩
theorem witness_NoRoundTripWithoutTheLoopback : ∃ t, encA5.cfg.tShort < encA5.cfg.thresh ∧ encA5.cfg.tLong < encA5.cfg.thresh ∧
    exec .encBuf encA5 = .next t ∧ t.out = .done .ok (.symbols [O, Z, O, Z, Z, O, Z, O, P, E]) ∧
    encA5.port.bytes ≠ List.replicate encA5.port.bytes.length 0xFF :=
  ⟨_, by decide, by decide, rfl, rfl, by decide⟩
theorem witness_CodecAndCommandParseArePure : Instr.encBuf ∈ [Instr.encBit, .encBuf, .classify, .decBits, .parseCmd] ∧
    ({ encA5 with cs0 := 5, mbx := (publishedBase p1).mbx }).port = encA5.port ∧
    ({ encA5 with cs0 := 5, mbx := (publishedBase p1).mbx }).cfg = encA5.cfg := by decide
theorem witness_ParseCmdReadsEightSymbols : (withSyms base (capture (zeros 7 ++ ones 1))).port.syms.length = 8 ∧
    (withSyms base (capture (zeros 7))).port.syms.length < 8 := by decide
theorem witness_MalformedIsForTooFewSymbolsOnly_lengths : (withSyms base (capture (zeros 7))).port.syms.length < 8 ∧
    (withSyms base (capture (zeros 31))).port.syms.length < 32 ∧ h41.length < base.cfg.pollMin := by decide
theorem witness_MalformedIsForTooFewSymbolsOnly_nothingElse : ∃ t, encode base.cfg .parseCmd = .req 0x4000 ∧
    exec .parseCmd (withSyms base (capture (zeros 7))) = .next t ∧ t.out = .done .malformed .none :=
  ⟨_, by decide, rfl, rfl⟩
theorem witness_ParseStateWritesTheDecodedWord : (withSyms base (capture state32)).port.syms.length = 32 ∧
    (withSyms base (capture (zeros 31))).port.syms.length < 32 := by decide
theorem witness_ParsingTwiceIsUnchanged : ∃ t u : State, 32 ≤ (withSyms base (capture state32)).port.syms.length ∧
    exec (.parseState .cs0) (withSyms base (capture state32)) = .next t ∧ u = { t with cs1 := 9 } ∧ u.cfg = base.cfg ∧
    u.port.syms = capture state32 ∧ u.getCs .cs0 = t.getCs .cs0 :=
  ⟨_, _, by decide, rfl, rfl, rfl, rfl, rfl⟩
theorem witness_PollPathRejects41Accepts42 : base.cfg.pollMin = 42 ∧ h41.length = 41 ∧ h42.length = 42 := by decide
theorem witness_PollPathGatesSkipsAndParses : h41.length < base.cfg.pollMin ∧ base.cfg.pollMin ≤ h42.length ∧ base.cfg.wf := by decide
theorem witness_ParsedStateIsReplayedBitForBit : ∃ t, 32 ≤ (withSyms base (capture state32)).port.syms.length ∧
    exec (.parseState .cs1) (withSyms base (capture state32)) = .next t :=
  ⟨_, by decide, rfl⟩
theorem witness_FieldReadsSliceTheRegister : (0 : BitVec 5).toNat ≤ 15 ∧ (15 : BitVec 5).toNat ≤ 15 ∧ (16 : BitVec 5).toNat = 16 ∧
    (17 : BitVec 5).toNat = 17 ∧ 17 < (18 : BitVec 5).toNat ∧ 17 < (31 : BitVec 5).toNat := by decide
theorem witness_EqualWordsAreEqualFields : ({ base with cs0 := 7 }).getCs .cs0 = ({ base with cs0 := 1, cs1 := 7 }).getCs .cs1 ∧
    (17 : BitVec 5).toNat ≤ 17 := by decide
theorem witness_OnlyParseAndLoadWriteARegister_load : ∃ t,
    exec (.csLdWord .cs1) { base with port := { base.port with word := 1 } } = .next t ∧ t.getCs .cs1 ≠ base.getCs .cs1 :=
  ⟨_, rfl, by decide⟩
theorem witness_OnlyParseAndLoadWriteARegister_parse : ∃ t,
    exec (.parseState .cs0) (withSyms base (capture state32)) = .next t ∧ t.getCs .cs0 ≠ base.getCs .cs0 :=
  ⟨_, rfl, by decide⟩
theorem witness_PublishReplacesTheSlot : 0 < base.cfg.ncons := by decide
theorem witness_PeekAsksForFreshness : (0 : BitVec 4).toNat < base.cfg.ncons ∧ base.mbx.fresh.getD (0 : BitVec 4).toNat false = false ∧
    (publishedBase p1).mbx.fresh.getD (0 : BitVec 4).toNat false = true := by decide
theorem witness_WaitingTakesNeedOnePublish_issue : Timeout.bounded ≠ .zero ∧ Timeout.forever ≠ .zero ∧
    (0 : BitVec 4).toNat < base.cfg.ncons ∧ base.mbx.full = false ∧ (publishedBase p1).mbx.full = true := by decide

/-- An empty mailbox with one held take of each waiting class, and one of them to be looked at. -/
def holding (n : Nat) (expired : Bool) : State :=
  { base with held := [{ consumer := 0, tmo := .bounded }, { consumer := 0, tmo := .forever }], inbox := [.wake n expired] }

theorem witness_WaitingTakesNeedOnePublish_wake :
    ({ holding 0 true with mbx := (publishedBase p1).mbx }).mbx.full = true ∧
    (holding 0 true).inbox = [.wake 0 true] ∧ (holding 0 true).held[0]? = some { consumer := 0, tmo := .bounded } ∧
    (holding 1 true).held[1]? = some { consumer := 0, tmo := .forever } ∧ (holding 0 false).mbx.full = false := by decide
theorem witness_SecondPublishOverwritesTheFirst : (0 : BitVec 4).toNat < base.cfg.ncons ∧ (1 : BitVec 4).toNat < base2.cfg.ncons ∧
    (publishedBase p2).mbx.slot = p2 ∧ (publishedBase p2).mbx.full = true ∧ (0 : BitVec 4).toNat < (publishedBase p2).cfg.ncons := by decide
theorem witness_ConsumersAreIndependent : ∃ t, (0 : BitVec 4) ≠ 1 ∧
    exec (.mbxTake .zero 0) { base2 with mbx := { slot := p1, full := true, fresh := [true, true] } } = .next t ∧
    t.mbx.fresh = [false, true] :=
  ⟨_, by decide, rfl, rfl⟩
theorem witness_ConsumersAreIndependent_held : ∃ t, (0 : BitVec 4) ≠ 1 ∧
    exec (.mbxTake .forever 0) { base2 with held := [{ consumer := 1, tmo := .bounded }] } = .next t ∧
    t.held = [{ consumer := 1, tmo := .bounded }, { consumer := 0, tmo := .forever }] :=
  ⟨_, by decide, rfl, rfl⟩

/-- A publish of `p1` is requested next. -/
def publishing : State := { base with inbox := [.request user 0xA000 { base.port with packet := p1 }] }

theorem mailboxInv_base : MailboxInv base where
  perConsumer := by decide
  freshFull := by intro b hb; revert b; decide

theorem witness_FullIsSetByPublishAndNeverCleared_set : ∃ t, step publishing = .next t ∧ publishing.mbx.full = false ∧ t.mbx.full = true :=
  ⟨_, rfl, by decide, by decide⟩
theorem witness_FullIsSetByPublishAndNeverCleared_agent : ∃ t, step (hostAt (.publish h42 1) [.pollTick 5 .wait]) = .next t ∧
    (hostAt (.publish h42 1) [.pollTick 5 .wait]).mbx.full = false ∧ t.mbx.full = true :=
  ⟨_, rfl, by decide, by decide⟩
theorem witness_FullIsSetByPublishAndNeverCleared_kept : ∃ t, step { publishedBase p1 with inbox := [.request user 0xB000 base.port] } = .next t ∧
    (publishedBase p1).mbx.full = true :=
  ⟨_, rfl, by decide⟩
theorem witness_StepKeepsTheMailboxInvariant : ∃ t, MailboxInv publishing ∧ step publishing = .next t :=
  ⟨_, mailboxInv_base.congr rfl rfl, rfl⟩
theorem witness_SlotIsUnreadWhileEmpty_published : ∃ t, MailboxInv publishing ∧ publishing.mbx.full = false ∧
    step publishing = .next t ∧ t.mbx.full = true :=
  ⟨_, mailboxInv_base.congr rfl rfl, rfl, rfl, rfl⟩
theorem witness_SlotIsUnreadWhileEmpty_empty : ∃ t, MailboxInv { base with inbox := [.request user 0xB400 base.port] } ∧
    base.mbx.full = false ∧ step { base with inbox := [.request user 0xB400 base.port] } = .next t ∧ t.mbx.full = false :=
  ⟨_, mailboxInv_base.congr rfl rfl, rfl, rfl, rfl⟩
theorem witness_PollBuildsTheStateReply : (deviceAt (.encode [0x00, 0x10, 0x7F, 0x80]) [.respTick .wait]).phaseR = .running ∧
    (deviceAt (.encode [0x00, 0x10, 0x7F, 0x80]) [.respTick .wait]).posR =
      .encode [(0x00107F80 : Word).extractLsb' 24 8, (0x00107F80 : Word).extractLsb' 16 8, (0x00107F80 : Word).extractLsb' 8 8,
        (0x00107F80 : Word).extractLsb' 0 8] ∧
    (deviceAt (.encode [0x00, 0x10, 0x7F, 0x80]) [.respTick .wait]).inbox = [.respTick .wait] := by decide
theorem witness_UnrecognizedCommandGetsNoReply : (deviceAt (.dispatch 0x7F) [.respTick .wait]).phaseR = .running ∧
    (deviceAt (.dispatch 0x7F) [.respTick .wait]).posR = .dispatch 0x7F ∧
    (deviceAt (.dispatch 0x7F) [.respTick .wait]).inbox = [.respTick .wait] ∧ (0x7F : Byte) ≠ 0x00 ∧ (0x7F : Byte) ≠ 0x01 ∧
    (0x02 : Byte) ≠ 0x01 ∧ (0xFF : Byte) ≠ 0x01 := by decide
theorem witness_SymbolsGoOnTheLine : base.txSel = .host ∧ ({ base with txSel := .device }).txSel = .device := by decide

/-- The host's transmitter about to send ZERO, STOP, END, with more behind them. -/
def sending : State :=
  { base with perH := { base.perH with tx := [Z, P, E, O] }, inbox := List.replicate 3 (.txTick .host) ++ [.lineIdle .host] }

theorem witness_TransmitterSendsUpToEndInOrder : sending.cfg.wf ∧ (∀ y ∈ [Z, P], y ≠ ⟨0, .low, 0, .low⟩) ∧
    (sending.getPer .host).tx = [Z, P] ++ ⟨0, .low, 0, .low⟩ :: [O] ∧
    sending.inbox = List.replicate ([Z, P].length + 1) (.txTick .host) ++ [.lineIdle .host] := by decide
theorem witness_StartingAnAgent_init :
    ({ base with inbox := [.startPoll true 3] }).inbox = [.startPoll true 3] ∧
    ({ base with inbox := [.startPoll false 3] }).inbox = [.startPoll false 3] ∧
    ({ base with inbox := [.startResp true] }).inbox = [.startResp true] ∧
    ({ base with inbox := [.startResp false] }).inbox = [.startResp false] ∧ base.phaseP = .init ∧ base.phaseR = .init := by decide
theorem witness_StartingAnAgent_aborted :
    ({ base with phaseP := .aborted, inbox := [.pollTick 3 .wait] }).inbox = [.pollTick 3 .wait] ∧
    ({ base with phaseP := .aborted, inbox := [.pollTick 3 .wait] }).phaseP = .aborted ∧
    ({ base with phaseR := .aborted, inbox := [.respTick .wait] }).inbox = [.respTick .wait] ∧
    ({ base with phaseR := .aborted, inbox := [.respTick .wait] }).phaseR = .aborted := by decide
theorem witness_PollCommandIsTransmitted : (hostAt .encode [.pollTick 1 .wait, .pollTick 2 .wait]).phaseP = .running ∧
    (hostAt .encode [.pollTick 1 .wait, .pollTick 2 .wait]).posP = .encode ∧
    (hostAt .encode [.pollTick 1 .wait, .pollTick 2 .wait]).inbox = [.pollTick 1 .wait, .pollTick 2 .wait] := by decide
theorem witness_GateSetsTheIndicator_none :
    (hostAt (.gate none) [.pollTick 1 .wait]).phaseP = .running ∧ (hostAt (.gate none) [.pollTick 1 .wait]).posP = .gate none ∧
    (hostAt (.gate none) [.pollTick 1 .wait]).inbox = [.pollTick 1 .wait] := by decide
theorem witness_GateSetsTheIndicator_short :
    (hostAt (.gate (some h41)) [.pollTick 1 .wait]).posP = .gate (some h41) ∧
    ∀ c, some h41 = some c → c.length < (hostAt (.gate (some h41)) [.pollTick 1 .wait]).cfg.pollMin :=
  ⟨rfl, by rintro c ⟨⟩; decide⟩

theorem witness_GateSetsTheIndicator_accepted :
    (hostAt (.gate (some h42)) [.pollTick 1 .wait]).posP = .gate (some h42) ∧
    (hostAt (.gate (some h42)) [.pollTick 1 .wait]).cfg.pollMin = h42.length := by decide

/-- Bit `31 - i` of 0x00107F80 is the class of symbol `9 + i` of `H42`. -/
theorem h42_holds_the_state : ∀ i < 32, bitAt cfg h42 (9 + i) ((0x00107F80 : Word).getLsbD (31 - i)) := by
  have e : wordAt cfg h42 9 = 0x00107F80 := by decide
  rw [← e]
  exact wordAt_bitAt cfg h42 9 (by decide)

theorem witness_PollCyclePublishesExactlyOnChange_changed : base.cfg.wf ∧ (hostAt (.gate (some h42)) []).phaseP = .running ∧
    (hostAt (.gate (some h42)) []).posP = .gate (some h42) ∧ base.cfg.pollMin = h42.length ∧
    (∀ i < 32, bitAt cfg h42 (9 + i) ((0x00107F80 : Word).getLsbD (31 - i))) ∧ (0x00107F80 : Word) ≠ base.cs0 ∧
    (hostAt (.gate (some h42)) (List.replicate 4 (.pollTick 1000 .wait))).inbox =
      [.pollTick 1000 .wait, .pollTick 1000 .wait, .pollTick 1000 .wait, .pollTick 1000 .wait] :=
  ⟨by decide, by decide, by decide, by decide, h42_holds_the_state, by decide, by decide⟩
theorem witness_PollCyclePublishesExactlyOnChange_unchanged :
    (0x00107F80 : Word) = ({ hostAt (.gate (some h42)) (List.replicate 2 (.pollTick 1000 .wait)) with cs0 := 0x00107F80 }).cs0 ∧
    ({ hostAt (.gate (some h42)) (List.replicate 2 (.pollTick 1000 .wait)) with cs0 := 0x00107F80 }).inbox =
      [.pollTick 1000 .wait, .pollTick 1000 .wait] := by decide

/-- The Poll Scheduler in its period wait, with an anchor; `PERIOD` is 10. -/
def pacing (pos : PollPos) (anchor : Nat) : State := { hostAt pos [] with anchor := anchor }

theorem witness_PeriodWaitKeepsTheAnchor_check : (pacing .periodCheck 5).phaseP = .running ∧ (pacing .periodCheck 5).posP = .periodCheck ∧
    (pacing .periodCheck 5).anchor ≤ 15 % 2 ^ cfg.tsW ∧ ¬ (pacing .periodCheck 5).cfg.period < 15 % 2 ^ cfg.tsW - 5 ∧
    (pacing .periodCheck 5).cfg.period < 16 % 2 ^ cfg.tsW - 5 ∧ 4 % 2 ^ cfg.tsW < (pacing .periodCheck 5).anchor := by decide
theorem witness_PeriodWaitKeepsTheAnchor_resync : (pacing .resync 5).phaseP = .running ∧ (pacing .resync 5).posP = .resync := by decide
theorem witness_PeriodWaitKeepsTheAnchor_wait : (pacing .periodWait 5).phaseP = .running ∧ (pacing .periodWait 5).posP = .periodWait ∧
    deadline cfg (pacing .periodWait 5).anchor ≤ 15 % 2 ^ cfg.tsW ∧ 14 % 2 ^ cfg.tsW < deadline cfg (pacing .periodWait 5).anchor ∧
    (2 ^ 32 - 11) + cfg.period < 2 ^ cfg.tsW ∧ ¬ (2 ^ 32 - 10) + cfg.period < 2 ^ cfg.tsW := by decide
theorem witness_ReceiveLendsGivesUpOrHolds_host : (hostAt .receive [.pollTick 1 (.capture 0)]).phaseP = .running ∧
    (hostAt .receive [.pollTick 1 (.capture 0)]).posP = .receive ∧
    ({ hostAt .receive [.pollTick 1 (.capture 0)] with perH := { base.perH with pending := [h42] } }).perH.pending[0]? = some h42 ∧
    (hostAt .receive [.pollTick 1 .giveUp]).inbox = [.pollTick 1 .giveUp] ∧
    (hostAt .receive [.pollTick 1 .wait]).inbox = [.pollTick 1 .wait] ∧
    (hostAt .receive [.pollTick 1 (.capture 0)]).perH.pending[0]? = none := by decide
theorem witness_ReceiveLendsGivesUpOrHolds_device : (deviceAt .receive [.respTick (.capture 0)]).phaseR = .running ∧
    (deviceAt .receive [.respTick (.capture 0)]).posR = .receive ∧
    ({ deviceAt .receive [.respTick (.capture 0)] with perD := { base.perD with pending := [pollCapture] } }).perD.pending[0]? =
      some pollCapture ∧ (deviceAt .receive [.respTick .giveUp]).inbox = [.respTick .giveUp] ∧
    (deviceAt .receive [.respTick (.capture 0)]).perD.pending[0]? = none := by decide
theorem witness_ReceiveLendsGivesUpOrHolds_other : (∀ k cap, RecvDraw.giveUp = .capture k → base.perD.pending[k]? ≠ some cap) ∧
    ∀ k cap, RecvDraw.capture 0 = .capture k → base.perD.pending[k]? ≠ some cap :=
  ⟨fun _ _ h => (by cases h), fun k cap h => by cases h; exact (by decide : base.perD.pending[0]? = none) ▸ nofun⟩
theorem witness_ResponderParsesAndReleases :
    (deviceAt (.parse (capture (zeros 7))) [.respTick .wait, .respTick .wait]).posR = .parse (capture (zeros 7)) ∧
    (capture (zeros 7)).length < 8 ∧ 8 ≤ (capture (zeros 8)).length ∧
    (deviceAt (.parse (capture (zeros 8))) [.respTick .wait, .respTick .wait]).phaseR = .running ∧
    (deviceAt (.parse (capture (zeros 8))) [.respTick .wait, .respTick .wait]).inbox = [.respTick .wait, .respTick .wait] := by decide

/-- The responder at its peek with a fresh packet waiting. -/
def peeking (inbox : List Event) : State := { deviceAt (.peek 0x01) inbox with mbx := (publishedBase p1).mbx }

theorem witness_RefreshLoadsTheFreshPacket : 1 ≤ base.cfg.ncons ∧ (peeking [.respTick .wait, .respTick .wait]).phaseR = .running ∧
    (peeking [.respTick .wait, .respTick .wait]).posR = .peek 0x01 ∧
    (peeking [.respTick .wait, .respTick .wait]).mbx.fresh.getD 0 false = true ∧
    (peeking [.respTick .wait, .respTick .wait]).inbox = [.respTick .wait, .respTick .wait] ∧
    (deviceAt (.peek 0x7F) [.respTick .wait]).mbx.fresh.getD 0 false = false := by decide
theorem witness_PollIsAnsweredWithThePublishedState : 1 ≤ base.cfg.ncons ∧ (peeking (List.replicate 4 (.respTick .wait))).phaseR = .running ∧
    (peeking (List.replicate 4 (.respTick .wait))).posR = .peek 0x01 ∧
    (peeking (List.replicate 4 (.respTick .wait))).mbx.fresh.getD 0 false = true ∧
    (peeking (List.replicate 4 (.respTick .wait))).inbox =
      [.respTick .wait, .respTick .wait, .respTick .wait, .respTick .wait] := by decide
theorem witness_PollIsAnsweredWithThePublishedState_stale :
    (deviceAt (.peek 0x01) (List.replicate 3 (.respTick .wait))).mbx.fresh.getD 0 false = false ∧
    (deviceAt (.peek 0x01) (List.replicate 3 (.respTick .wait))).posR = .peek 0x01 ∧
    (deviceAt (.peek 0x01) (List.replicate 3 (.respTick .wait))).inbox = [.respTick .wait, .respTick .wait, .respTick .wait] := by
  decide
theorem witness_CaptureFollowsTheReceiveEnable :
    (hostAt .receive [.activity .host [Z]]).inbox = [.activity .host [Z]] ∧
    ((hostAt .receive [.activity .host [Z]]).getPer .host).rxen = true ∧
    (({ base with inbox := [.activity .host [Z]] } : State).getPer .host).rxen = false ∧
    ((deviceAt .receive [.activity .device [Z]]).getPer .device).rxen = true := by decide

/-- A burst in progress at the host, with the receive enable as given, and its end next. -/
def burst (on : Bool) : State :=
  { base with perH := { base.perH with rxen := on, inProgress := some h42 }, inbox := [.lineIdle .host] }

theorem witness_CaptureFollowsTheReceiveEnable_end : (burst true).inbox = [.lineIdle .host] ∧
    ((burst true).getPer .host).inProgress = some h42 ∧ ((burst true).getPer .host).rxen = true ∧
    ((burst false).getPer .host).inProgress = some h42 ∧ ((burst false).getPer .host).rxen = false ∧
    ((hostAt .receive [.lineIdle .host]).getPer .host).inProgress = none := by decide

/-- What happens while the reply ZERO, STOP, END is sent, each symbol echoed as its loop-back. -/
def replyEvents : List Event :=
  .respTick .wait :: .respTick .wait :: ([Z, P, E].flatMap fun y => [.txTick .device, .activity .device [loopSymbol 50 y]]) ++
    .respTick .wait :: .respTick .wait :: []

theorem witness_ReplyIsSentAndItsEchoNotCaptured : base.cfg.wf ∧
    (deviceAt (.stopCapture [Z, P, E]) replyEvents).phaseR = .running ∧
    (deviceAt (.stopCapture [Z, P, E]) replyEvents).posR = .stopCapture ([Z] ++ [base.cfg.stopSymbol, ⟨0, .low, 0, .low⟩]) ∧
    (∀ y ∈ [Z], y ≠ ⟨0, .low, 0, .low⟩) ∧ (deviceAt (.stopCapture [Z, P, E]) replyEvents).perD.tx = [] ∧
    (deviceAt (.stopCapture [Z, P, E]) replyEvents).perD.line = [] ∧
    (deviceAt (.stopCapture [Z, P, E]) replyEvents).inbox = replyEvents := by decide
theorem witness_AgentsKeepToTheirOwnState : ∃ t u,
    step (hostAt (.gate (some h42)) [.pollTick 1 .wait]) = .next t ∧ step (peeking [.respTick .wait]) = .next u :=
  ⟨_, _, rfl, rfl⟩
theorem witness_IndicatorIsTheSchedulersAlone : ∃ t, step (hostAt (.gate (some h42)) [.pollTick 1 .wait]) = .next t ∧ t.conn ≠ false :=
  ⟨_, rfl, by decide⟩
theorem witness_AnchorOnlyPacesTheCycle : ∃ t, step (hostAt .periodWait [.pollTick 10 .wait]) = .next t ∧ t.posP = .encode :=
  ⟨_, rfl, by decide⟩
theorem witness_ConfigurationIsConstant : ∃ t, step publishing = .next t := ⟨_, rfl⟩
theorem witness_ErrorResultsChangeNothing : ∃ t, encode base.cfg (.mbxTake .zero 0) = .req 0xB000 ∧
    exec (.mbxTake .zero 0) base = .next t ∧ t.out = .done .timeout .none ∧
    Status.timeout ∈ [Status.malformed, .capacity, .timeout, .illegalOp] :=
  ⟨_, by decide, rfl, rfl, by decide⟩
theorem witness_IllegalWordsAnswerIllegalOp :
    ({ base with inbox := [.request user 0xB001 base.port] }).inbox = [.request user 0xB001 base.port] ∧
    decode base.cfg (.req 0xB001) = .reject (.consumerOutOfRange 1) := by decide
theorem witness_DecodingAnEncodedInstructionGivesItBack : cfg.wf ∧ Instr.wf cfg (.csRdField .cs1 17) ∧ Instr.wf cfg (.mbxTake .forever 0) ∧
    Instr.wf cfg .symStop := by decide
theorem witness_EachCodeHasOneMeaning : cfg.wf ∧ decode cfg (.req 0x7910) = .ok (.csRdField .cs1 17) ∧
    decode cfg (.cmd 0x01) = .ok .poll ∧ decode cfg (.sym P) = .ok .symStop := by decide
theorem witness_StepRunsTheDecodedInstruction :
    publishing.inbox = [.request user 0xA000 { base.port with packet := p1 }] ∧ decode publishing.cfg (.req 0xA000) = .ok .mbxPublish ∧
    (deviceAt (.dispatch 0x01) [.respTick .wait]).phaseR = .running ∧
    (deviceAt (.dispatch 0x01) [.respTick .wait]).posR = .dispatch 0x01 ∧ decode base.cfg (.cmd 0x01) = .ok .poll ∧
    sending.perH.tx = [Z, P, E, O] ∧ decode sending.cfg (.sym Z) = .ok .symZero ∧
    ({ Z with d1 := 32767 } : Symbol).fits cfg ∧ ({ p1 with ts := 2 ^ 32 - 1 } : Packet).fits cfg := by decide
theorem witness_StepRunsTheDecodedInstruction_device :
    ({ base with perD := { base.perD with tx := [P, E] }, inbox := [.txTick .device] }).perD.tx = [P, E] ∧
    decode base.cfg (.sym P) = .ok .symStop := by decide
theorem witness_ResetLeavesTheSpecifiedState : (0 : BitVec 4).toNat < cfg.ncons ∧ (15 : BitVec 5).toNat ≤ 15 ∧
    (16 : BitVec 5).toNat = 16 ∧ (17 : BitVec 5).toNat = 17 := by decide
theorem test_reset_faultless : State.reset.faulted = [] := by decide
theorem witness_ResetMeetsTheInvariant : cfg.wf := by decide

/-- The invariant in the middle of a reply, not only at reset. -/
theorem witness_EveryStepGoesOnAndKeepsTheInvariant :
    Inv { base with phaseR := .running, posR := .awaitSent, perD := { base.perD with rxen := false, tx := [P, E] },
                    inbox := [.txTick .device] } where
  config := by decide
  mailbox := mailboxInv_base.congr rfl rfl
  lending := ⟨rfl, rfl⟩
  phases := ⟨fun _ => rfl, fun h => absurd rfl h⟩
  buffers := ⟨fun t h => (by cases h), fun t h => (by cases h), fun b h => (by cases h)⟩
  echo := ⟨fun _ => rfl, fun _ => rfl⟩
  hostCapture := fun h => by cases h
  heldTakes := fun h hm => by cases hm

theorem widthInv_base : WidthInv base where
  slot := by decide
  packet := by decide
  anchor := by decide
  sym := by decide
  syms := fun y h => by cases h
  host := ⟨fun cap h => (by cases h), fun cap h => (by cases h), fun cap h => (by cases h)⟩
  device := ⟨fun cap h => (by cases h), fun cap h => (by cases h), fun cap h => (by cases h)⟩
  poll := fun cap h => by cases h
  resp := fun cap h => by cases h

theorem witness_HeldValuesKeepTheirWidth : ∃ t, WidthInv publishing ∧ step publishing = .next t :=
  ⟨_, { widthInv_base with }, rfl⟩
/-- A request to load `CS[1]`, by an issuer. -/
def loading (who : Issuer) : State := { base with inbox := [.request who 0x9800 { base.port with word := 5 }] }

theorem decode_loading : decode cfg (.req 0x9800) = .ok (.csLdWord .cs1) := by decide

theorem witness_OwnershipLeavesEachRegisterItsWriter_requests : Owned publishing ∧ ¬ Owned (loading user) := by
  constructor
  · intro e he
    rw [List.mem_singleton.1 he]
    intro i r hi hr
    have hd : decode publishing.cfg (.req 0xA000) = .ok .mbxPublish := by decide
    rw [hd] at hi
    cases hi
    cases hr
  · intro h
    have := h _ (List.mem_singleton.2 rfl) (.csLdWord .cs1) .cs1 decode_loading rfl
    cases this
theorem witness_OwnershipLeavesEachRegisterItsWriter_owner : ∃ t, Owned (loading (.agent .device)) ∧
    step (loading (.agent .device)) = .next t ∧ t.cs1 ≠ base.cs1 :=
  ⟨_, fun e he => by
    rw [List.mem_singleton.1 he]
    intro i r hi hr
    have hi' : decode cfg (.req 0x9800) = .ok i := hi
    rw [decode_loading] at hi'
    cases hi'
    cases hr
    rfl, rfl, by decide⟩
theorem witness_OwnershipLeavesEachRegisterItsWriter_host : ∃ t, Owned (hostAt (.parse h42) [.pollTick 1 .wait]) ∧
    step (hostAt (.parse h42) [.pollTick 1 .wait]) = .next t ∧ t.cs0 ≠ base.cs0 :=
  ⟨_, fun e he => by rw [List.mem_singleton.1 he]; trivial, rfl, by decide⟩
theorem witness_OwnershipLeavesEachRegisterItsWriter_device : ∃ t, Owned (deviceAt (.load 0x01 7) [.respTick .wait]) ∧
    step (deviceAt (.load 0x01 7) [.respTick .wait]) = .next t ∧ t.cs1 ≠ base.cs1 :=
  ⟨_, fun e he => by rw [List.mem_singleton.1 he]; trivial, rfl, by decide⟩

end Sys2Proof.Tests
end

section
/-! PROOFS. Widths (spec/00_scope.md R10, R16): what the block holds keeps to `DUR_W` and `TS_W` bits. What comes in from outside is
cut where it comes in; everything else a move does hands on values that fit already. -/

namespace Sys2Proof.Safety

open Sys2Proof.Machine

/-! ## Reset -/

theorem capturesFit_reset (c : Config) : CapturesFit c Peripheral.reset where
  inProgress := fun _ hc => nomatch hc
  pending := List.forall_mem_nil _
  lent := List.forall_mem_nil _

theorem widthInv_ofConfig (c : Config) : WidthInv (State.ofConfig c) where
  slot := Nat.two_pow_pos _
  packet := Nat.two_pow_pos _
  anchor := Nat.two_pow_pos _
  sym := ⟨Nat.two_pow_pos _, Nat.two_pow_pos _⟩
  syms := List.forall_mem_nil _
  host := capturesFit_reset c
  device := capturesFit_reset c
  poll := List.forall_mem_nil _
  resp := List.forall_mem_nil _

section
variable {s t : State}

/-! ## What the invariant says of the parts of a state -/

theorem WidthInv.getPer (h : WidthInv s) (who : Role) : CapturesFit s.cfg (s.getPer who) := by
  cases who with
  | host => exact h.host
  | device => exact h.device

theorem WidthInv.pollHeld (h : WidthInv s) {pos : PollPos} {cap : List Symbol} (hpos : s.posP = pos)
    (hc : cap ∈ pollHolds pos) : AllFit s.cfg cap :=
  h.poll cap (hpos ▸ hc)

theorem WidthInv.respHeld (h : WidthInv s) {pos : RespPos} {cap : List Symbol} (hpos : s.posR = pos)
    (hc : cap ∈ respHolds pos) : AllFit s.cfg cap :=
  h.resp cap (hpos ▸ hc)

/-! ## Updates that keep it -/

theorem WidthInv.setPer (h : WidthInv s) (who : Role) {p : Peripheral} (hp : CapturesFit s.cfg p) : WidthInv (s.setPer who p) := by
  cases who with
  | host => exact { h with host := hp }
  | device => exact { h with device := hp }

theorem WidthInv.setCs (h : WidthInv s) (r : CsId) (w : Word) : WidthInv (s.setCs r w) := by
  cases r <;> exact { h with }

/-- Operands come onto the port cut to their widths. -/
theorem WidthInv.cutOperands (h : WidthInv s) (ops : Operands) : WidthInv { s with port := cutOperands s.cfg ops } :=
  { h with
    packet := cutPacket_fits s.cfg ops.packet
    sym := cutSymbol_fits s.cfg ops.sym
    syms := allFit_cut ops.syms }

/-- An instruction only hands on what the port and the slot hold. -/
theorem exec_keeps_widthInv {i : Instr} (he : exec i s = .next t) (h : WidthInv s) : WidthInv t := by
  cases exec_next_cases he with
  | answer => exact { h with }
  | register r w v => exact { h.setCs r w with }
  | publish => exact { h with slot := h.packet }
  | take => exact { h with }
  | hold => exact { h with }
  | read => exact { h with resp := List.forall_mem_nil _ }
  | reply => exact { h with resp := List.forall_mem_nil _ }
  | line => exact h.setPer _ { h.getPer s.txSel with }

/-- Every move keeps the widths: it cuts what it takes in, and passes a capture on from one holder to the next. -/
theorem move_keeps_widthInv {e : Event} (hm : Move e s t) (h : WidthInv s) : WidthInv t := by
  cases hm with
  | stay => exact h
  | request who w ops i s u f hd he => exact { exec_keeps_widthInv he (h.cutOperands ops) with }
  | illegal who w ops => exact { h.cutOperands ops with }
  | woken | expired | startPollFails | startRespFails => exact { h with }
  | startPollOk now =>
    exact { h with host := { h.host with }, anchor := timestamp_lt s.cfg now, poll := List.forall_mem_nil _ }
  | startRespOk => exact { h with device := { h.device with }, resp := List.forall_mem_nil _ }
  | pollEncode | pollGivesUp | pollReleaseNone => exact { h with poll := List.forall_mem_nil _ }
  | pollTransmit => exact { h with host := { h.host with }, poll := List.forall_mem_nil _ }
  | pollReceive now k cap s hp hpos hk =>
    exact { h with
      host := h.host.receive hk
      poll := List.forall_mem_singleton.2 (h.host.pending cap (List.mem_of_getElem? hk)) }
  | pollGateShort now d cap s hp hpos => exact { h with poll := fun _ hc => h.pollHeld hpos hc }
  | pollGatePasses now d cap s hp hpos => exact { h with poll := fun _ hc => h.pollHeld hpos hc }
  | pollParse now d cap s hp hpos syms out w pos hsyms hnext =>
    have hcap : AllFit s.cfg cap := h.pollHeld hpos (List.mem_singleton_self cap)
    refine { h with syms := ?_, poll := ?_ }
    · rcases hsyms with rfl | rfl
      · exact h.syms
      · exact hcap.drop 9
    · rcases hnext with rfl | rfl <;> exact List.forall_mem_singleton.2 hcap
  | pollReadWord now d cap s hp hpos => exact { h with poll := fun _ hc => h.pollHeld hpos hc }
  | pollPublish now d cap w s hp hpos =>
    exact { h with slot := timestamp_lt s.cfg now, packet := timestamp_lt s.cfg now, poll := fun _ hc => h.pollHeld hpos hc }
  | pollRelease now d cap => exact { h with host := h.host.release cap, poll := List.forall_mem_nil _ }
  | pollPeriodCheck now d pos s hp hpos hnext =>
    rcases hnext with rfl | rfl <;> exact { h with poll := List.forall_mem_nil _ }
  | pollResync now => exact { h with anchor := timestamp_lt s.cfg now, poll := List.forall_mem_nil _ }
  | pollPeriodWait => exact { h with anchor := deadline_lt s.cfg s.anchor, poll := List.forall_mem_nil _ }
  | respReceive k cap s hp hpos hk =>
    exact { h with
      device := h.device.receive hk
      resp := List.forall_mem_singleton.2 (h.device.pending cap (List.mem_of_getElem? hk)) }
  | respParse d cap s hp hpos =>
    have hcap : AllFit s.cfg cap := h.respHeld hpos (List.mem_singleton_self cap)
    exact { h with syms := hcap, resp := List.forall_mem_singleton.2 hcap }
  | respRelease d cap cmd pos s hp hpos hnext =>
    rcases hnext with rfl | ⟨b, rfl⟩ <;> exact { h with device := h.device.release cap, resp := List.forall_mem_nil _ }
  | respPeekFresh | respPeekStale | respLoad | respReply | respRead | respEncode | respNoReply | respSent =>
    exact { h with resp := List.forall_mem_nil _ }
  | respStopCapture | respTransmit | respStartCapture =>
    exact { h with device := { h.device with }, resp := List.forall_mem_nil _ }
  | sent who y ys l f =>
    have hset : WidthInv (s.setPer who { s.getPer who with tx := ys, line := l, sent := f }) :=
      h.setPer who { h.getPer who with }
    exact { hset with }
  | activity who y g s hg => exact h.setPer who ((h.getPer who).activity hg)
  | lineIdle who q s hq => exact h.setPer who ((h.getPer who).lineIdle hq)

end

/-- Settles O59: reset's values fit, and a step is a move, which keeps the widths. -/
theorem heldValuesKeepTheirWidth : Obligations.HeldValuesKeepTheirWidth :=
  ⟨widthInv_ofConfig, fun _ _ hs ht => step_keeps (fun _ _ h => { h with }) (fun _ _ _ => move_keeps_widthInv) ht hs⟩

end Sys2Proof.Safety
end

section
/-! PROOFS. Which moves write the mailbox, a controller-state register or the connection indicator (spec/10_state.md R36, R38, R40,
R44). Each claim over all steps is a case analysis of `exec_next_cases` or `step_next_move`. -/

namespace Sys2Proof.Safety

open Sys2Proof.Machine

section
variable {s t : State}

/-! ## The controller-state registers -/

theorem getCs_congr (h0 : t.cs0 = s.cs0) (h1 : t.cs1 = s.cs1) (r : CsId) : t.getCs r = s.getCs r := by
  cases r with
  | cs0 => exact h0
  | cs1 => exact h1

/-! ## The mailbox -/

/-- The events that publish a packet: a request that decodes to `MBX_PUBLISH`, and the Poll Scheduler's turn at its publish. -/
inductive Publishes (s : State) : Event → Prop where
  | request (who : Issuer) (w : ReqWord) (ops : Operands) (h : decode s.cfg (.req w) = .ok .mbxPublish) :
      Publishes s (.request who w ops)
  | scheduler (now : Nat) (d : RecvDraw) (cap : List Symbol) (w : Word) (h : s.posP = .publish cap w) :
      Publishes s (.pollTick now d)

/-- All that can become of a mailbox of `ncons` consumers, where a publish needs `pub`. -/
inductive MailboxWrite (pub : Prop) (ncons : Nat) (m : Mailbox) : Mailbox → Prop where
  | kept : MailboxWrite pub ncons m m
  | taken (k : BitVec 4) : MailboxWrite pub ncons m (m.taken k)
  | published (p : Packet) (h : pub) : MailboxWrite pub ncons m (m.published ncons p)

theorem MailboxWrite.imp {pub pub' : Prop} {n : Nat} {m m' : Mailbox} (hw : MailboxWrite pub n m m') (h : pub → pub') :
    MailboxWrite pub' n m m' := by
  cases hw with
  | kept => exact .kept
  | taken k => exact .taken k
  | published p hp => exact .published p (h hp)

theorem exec_mailbox {i : Instr} (he : exec i s = .next t) : MailboxWrite (i = .mbxPublish) s.cfg.ncons s.mbx t.mbx := by
  cases exec_next_cases he with
  | answer | hold | read | reply => exact .kept
  | register r => exact State.setCs_mbx s r _ ▸ .kept
  | publish h => exact .published _ h
  | take tmo k => exact .taken k
  | line => exact State.setPer_mbx s s.txSel _ ▸ .kept

theorem move_mailbox {e : Event} (hm : Move e s t) : MailboxWrite (Publishes s e) s.cfg.ncons s.mbx t.mbx := by
  cases hm with
  | request who w ops i s u f hd he =>
    exact (exec_mailbox he).imp fun h => .request who w ops (h ▸ hd)
  | woken n b h => exact .taken h.consumer
  | respPeekFresh => exact .taken 0
  | pollPublish now d cap w s hp hpos => exact .published _ (.scheduler now d cap w hpos)
  | sent who | activity who | lineIdle who => exact State.setPer_mbx s who _ ▸ .kept
  | _ => exact .kept

theorem move_keeps_cfg {e : Event} (hm : Move e s t) : t.cfg = s.cfg := by
  cases hm with
  | request who w ops i s u f hd he => exact (exec_keeps_cfg he :)
  | sent who | activity who | lineIdle who => exact State.setPer_cfg s who _
  | _ => rfl

theorem MailboxInv.write {pub : Prop} (h : MailboxInv s) (hw : MailboxWrite pub s.cfg.ncons s.mbx t.mbx) (hc : t.cfg = s.cfg) :
    MailboxInv t := by
  generalize hm : t.mbx = m at hw
  cases hw with
  | kept => exact h.congr hm hc
  | taken k => exact h.taken k hm hc
  | published p => exact mailboxInv_published p hm hc

theorem mailboxInv_ofConfig (c : Config) : MailboxInv (State.ofConfig c) where
  perConsumer := List.length_replicate
  freshFull := fun _ hb hbt => absurd (List.eq_of_mem_replicate hb) (by simp [hbt])

/-- Where `full` goes from 0 to 1 there was a publish; it is never cleared. -/
theorem MailboxWrite.full {pub : Prop} {n : Nat} {m m' : Mailbox} (hw : MailboxWrite pub n m m') :
    (m.full = true → m'.full = true) ∧ (m.full = false → m'.full = true → pub) := by
  cases hw with
  | kept | taken => exact ⟨id, fun h0 h1 => absurd h1 (by simp [h0])⟩
  | published p h => exact ⟨fun _ => rfl, fun _ _ => h⟩

/-! ## The connection indicator -/

theorem move_conn {e : Event} (hm : Move e s t) (hne : t.conn ≠ s.conn) :
    ∃ now d cap, e = .pollTick now d ∧ s.phaseP = .running ∧ s.posP = .gate cap := by
  cases hm with
  | pollGateShort now d cap s hp hpos => exact ⟨now, d, cap, rfl, hp, hpos⟩
  | pollGatePasses now d cap s hp hpos => exact ⟨now, d, some cap, rfl, hp, hpos⟩
  | request who w ops i s u f hd he => exact absurd (exec_keeps_conn he :) hne
  | sent who | activity who | lineIdle who => exact absurd (State.setPer_conn s who _) hne
  | _ => exact absurd rfl hne

end

/-- Settles O21: of the kinds of effect only a register write touches a register, and it is a parse's or a load's. -/
theorem onlyParseAndLoadWriteARegister : Obligations.OnlyParseAndLoadWriteARegister := by
  intro r i s t he hne
  cases exec_next_cases he with
  | register q w v h =>
    by_cases hq : r = q
    · exact hq ▸ h
    · exact absurd (State.getCs_setCs_other s q r w hq) hne
  | line => exact absurd (getCs_congr (State.setPer_cs0 s _ _) (State.setPer_cs1 s _ _) r) hne
  | answer | publish | take | hold | read | reply => exact absurd (getCs_congr rfl rfl r) hne

/-- Settles O27: a step writes the mailbox by a take, which keeps `full`, or by a publish. -/
theorem fullIsSetByPublishAndNeverCleared : Obligations.FullIsSetByPublishAndNeverCleared := by
  intro s t hs
  rcases step_next_move hs with ⟨-, rfl⟩ | ⟨e, rest, hi, hm⟩
  · exact ⟨id, fun h0 h1 => absurd h1 (by simp [h0])⟩
  · obtain ⟨hkeep, hset⟩ := (move_mailbox hm).full
    refine ⟨hkeep, fun h0 h1 => ?_⟩
    cases hset h0 h1 with
    | request who w ops hd => exact .inl ⟨who, w, ops, rest, hi, hd⟩
    | scheduler now d cap w hpos => exact .inr ⟨now, d, rest, cap, w, hi, hpos⟩

/-- Settles O28: reset's flags are clear, and what a move writes to the mailbox keeps the invariant. -/
theorem stepKeepsTheMailboxInvariant : Obligations.StepKeepsTheMailboxInvariant :=
  ⟨mailboxInv_ofConfig _, mailboxInv_ofConfig, fun _ _ hs ht =>
    step_keeps (fun _ _ h => h.congr rfl rfl) (fun _ _ _ hm h => h.write (move_mailbox hm) (move_keeps_cfg hm)) ht hs⟩

/-- Settles O47: of all moves only the two at the gate write the indicator. -/
theorem indicatorIsTheSchedulersAlone : Obligations.IndicatorIsTheSchedulersAlone := by
  intro s t hs hne
  rcases step_next_move hs with ⟨-, rfl⟩ | ⟨e, rest, hi, hm⟩
  · exact absurd rfl hne
  · obtain ⟨now, d, cap, rfl, hp, hpos⟩ := move_conn hm hne
    exact ⟨now, d, rest, cap, hi, hp, hpos⟩

end Sys2Proof.Safety
end

section
/-! PROOFS. The slot before the first publish (spec/10_state.md R37): `reslot` puts another packet there, and every event does the
same before and after it. Only a take reads the slot, and none completes while `full = 0`. -/

namespace Sys2Proof.Machine

open Sys2Proof.Safety

/-- Another packet in the slot while nothing has been published. A published packet stays. -/
def Mailbox.reslot (p : Packet) (m : Mailbox) : Mailbox :=
  if m.full then m else { m with slot := p }

/-- The state with the slot replaced while nothing has been published. -/
def State.reslot (p : Packet) (s : State) : State :=
  { s with mbx := s.mbx.reslot p }

/-- A result with its next state changed. -/
def mapNext (f : State → State) : Result → Result
  | .next s => .next (f s)
  | .fault r => .fault r
  | .refused r => .refused r

section
variable (p : Packet) (m : Mailbox)

theorem Mailbox.reslot_of_full (h : m.full = true) : m.reslot p = m :=
  if_pos h

theorem Mailbox.reslot_of_empty (h : m.full = false) : m.reslot p = { m with slot := p } :=
  if_neg (by simp [h])

@[simp] theorem Mailbox.reslot_full : (m.reslot p).full = m.full := by
  unfold Mailbox.reslot
  split <;> rfl

@[simp] theorem Mailbox.reslot_fresh : (m.reslot p).fresh = m.fresh := by
  unfold Mailbox.reslot
  split <;> rfl

theorem Mailbox.reslot_takeCase (tmo : Timeout) (k : BitVec 4) : (m.reslot p).takeCase tmo k = m.takeCase tmo k :=
  takeCase_congr m _ tmo k (by simp) (by simp [Mailbox.freshOf])

theorem Mailbox.reslot_wakeCase (tmo : Timeout) (expired : Bool) : (m.reslot p).wakeCase tmo expired = m.wakeCase tmo expired := by
  simp [wakeCase_eq]

end

/-- While nothing has been published no take completes at once (spec/43_mailbox.md R174 to R176). -/
theorem takeCase_ne_now {s : State} (h : MailboxInv s) (hf : s.mbx.full = false) (tmo : Timeout) (k : BitVec 4) :
    s.mbx.takeCase tmo k ≠ .now := by
  cases tmo with
  | zero => simp [Mailbox.takeCase, h.freshOf_eq_false hf]
  | bounded | forever => simp [Mailbox.takeCase, hf]

theorem wakeCase_ne_now {m : Mailbox} (hf : m.full = false) (tmo : Timeout) (expired : Bool) : m.wakeCase tmo expired ≠ .now := by
  rw [wakeCase_eq, hf, if_neg Bool.false_ne_true]
  split <;> simp

section
variable (p : Packet) {s : State}

@[simp] theorem State.reslot_cfg : (s.reslot p).cfg = s.cfg := rfl

@[simp] theorem State.reslot_posP : (s.reslot p).posP = s.posP := rfl

@[simp] theorem State.reslot_posR : (s.reslot p).posR = s.posR := rfl

@[simp] theorem State.reslot_held : (s.reslot p).held = s.held := rfl

theorem setPer_reslot (who : Role) (q : Peripheral) : (s.reslot p).setPer who q = (s.setPer who q).reslot p := by
  cases who <;> rfl

theorem getPer_reslot (who : Role) : (s.reslot p).getPer who = s.getPer who := by
  cases who <;> rfl

theorem getCs_reslot (r : CsId) : (s.reslot p).getCs r = s.getCs r := by
  cases r <;> rfl

theorem setCs_reslot (r : CsId) (w : Word) : (s.reslot p).setCs r w = (s.setCs r w).reslot p := by
  cases r <;> rfl

theorem emit_reslot (y : Symbol) : emit y (s.reslot p) = (emit y s).reslot p := by
  unfold emit
  rw [getPer_reslot, setPer_reslot]
  rfl

theorem emitEnd_reslot : emitEnd (s.reslot p) = (emitEnd s).reslot p := by
  unfold emitEnd
  rw [getPer_reslot, setPer_reslot]
  rfl

theorem received_reslot (who : Issuer) : (s.reslot p).received who = (s.received who).reslot p := by
  dsimp only [State.received, State.markFaulted, State.reslot]
  split
  · split <;> rfl
  · rfl

theorem popSymbol_reslot (who : Role) (ys : List Symbol) : popSymbol who ys (s.reslot p) = (popSymbol who ys s).reslot p := by
  cases who <;> rfl

/-! ## Instructions -/

theorem execParseState_reslot (r : CsId) : execParseState r (s.reslot p) = mapNext (State.reslot p) (execParseState r s) := by
  by_cases h : s.port.syms.length < 32
  · rw [execParseState_short s r h, execParseState_short (s.reslot p) r h]; rfl
  · rw [execParseState_long s r (by omega), execParseState_long (s.reslot p) r (show 32 ≤ s.port.syms.length by omega),
      getCs_reslot, setCs_reslot]
    rfl

theorem execMbxTake_reslot (h : MailboxInv s) (hf : s.mbx.full = false) (tmo : Timeout) (k : BitVec 4) :
    execMbxTake tmo k (s.reslot p) = mapNext (State.reslot p) (execMbxTake tmo k s) := by
  have he := s.mbx.reslot_takeCase p tmo k
  dsimp only [execMbxTake, State.reslot]
  rw [he]
  split
  · cases hc : s.mbx.takeCase tmo k with
    | now => exact absurd hc (takeCase_ne_now h hf tmo k)
    | timeout | hold => rfl
  · rfl

/-- Only a take could tell, and it does not while `full = 0`; a publish overwrites the slot. -/
theorem exec_reslot (h : MailboxInv s) (hf : s.mbx.full = false) (i : Instr) :
    exec i (s.reslot p) = mapNext (State.reslot p) (exec i s) := by
  cases i with
  | encBit | classify | decBits | csRdBytes | poll => rfl
  | csRdWord r => cases r <;> rfl
  | mbxPublish => rfl
  | encBuf => dsimp only [exec, execEncBuf, State.reslot]; split <;> rfl
  | parseCmd => dsimp only [exec, execParseCmd, State.reslot]; split <;> rfl
  | parseState r => exact execParseState_reslot p r
  | csRdField r f =>
    dsimp only [exec, execCsRdField]
    rw [getCs_reslot]
    cases wordField (s.getCs r) f <;> rfl
  | csLdWord r => cases r <;> rfl
  | mbxTake tmo k => exact execMbxTake_reslot p h hf tmo k
  | status => dsimp only [exec]; rw [execStatus_eq, execStatus_eq]; rfl
  | symZero | symOne | symStop => exact congrArg _ (emit_reslot p _)
  | symEnd => exact congrArg _ (emitEnd_reslot p)

/-! ## Issuing an operation -/

theorem andThen_mapNext {f : State → State} {k : PortOut → State → Result} (hk : ∀ t, k (f t).out (f t) = mapNext f (k t.out t))
    (r : Result) : andThen (mapNext f r) k = mapNext f (andThen r k) := by
  cases r with
  | next t => exact hk t
  | fault | refused => rfl

theorem transmit_reslot (who : Role) (y : List Symbol) :
    transmit who y (s.reslot p) = mapNext (State.reslot p) (transmit who y s) := by
  dsimp only [transmit]
  rw [getPer_reslot, setPer_reslot, apply_ite (mapNext (State.reslot p))]
  rfl

theorem parsePoll_reslot (r : CsId) (cap : List Symbol) :
    parsePoll r cap (s.reslot p) = mapNext (State.reslot p) (parsePoll r cap s) := by
  by_cases hc : cap.length < s.cfg.pollMin
  · rw [parsePoll_short s r cap hc, parsePoll_short (s.reslot p) r cap hc]; rfl
  · rw [parsePoll_long s r cap (by omega), parsePoll_long (s.reslot p) r cap (Nat.le_of_not_lt hc)]
    exact execParseState_reslot p (s := { s with port := { s.port with syms := cap.drop 9 } }) r

/-! ## The agents' turns -/

theorem pollEncode_reslot : pollEncode (s.reslot p) = mapNext (State.reslot p) (pollEncode s) := by
  rw [pollEncode_eq, pollEncode_eq]
  rfl

theorem pollTransmit_reslot (y : List Symbol) : pollTransmit y (s.reslot p) = mapNext (State.reslot p) (pollTransmit y s) := by
  unfold pollTransmit
  rw [transmit_reslot]
  exact andThen_mapNext (fun t => rfl) _

theorem pollReceive_reslot (d : RecvDraw) : pollReceive d (s.reslot p) = (pollReceive d s).reslot p := by
  dsimp only [pollReceive, State.reslot]
  cases s.perH.receive .bounded d <;> rfl

theorem pollGate_reslot (cap : Option (List Symbol)) : pollGate cap (s.reslot p) = (pollGate cap s).reslot p := by
  cases cap with
  | none => rfl
  | some c => dsimp only [pollGate, State.reslot]; split <;> rfl

theorem pollParse_reslot (cap : List Symbol) : pollParse cap (s.reslot p) = mapNext (State.reslot p) (pollParse cap s) := by
  unfold pollParse
  rw [parsePoll_reslot]
  refine andThen_mapNext (fun t => ?_) _
  dsimp only [State.reslot]
  split <;> rfl

theorem pollRelease_reslot (cap : Option (List Symbol)) : pollRelease cap (s.reslot p) = (pollRelease cap s).reslot p := by
  cases cap <;> rfl

theorem pollPeriodCheck_reslot (now : Nat) : pollPeriodCheck now (s.reslot p) = (pollPeriodCheck now s).reslot p := by
  dsimp only [pollPeriodCheck, State.reslot]
  split <;> rfl

theorem pollPeriodWait_reslot (now : Nat) : pollPeriodWait now (s.reslot p) = (pollPeriodWait now s).reslot p := by
  dsimp only [pollPeriodWait, State.reslot]
  split <;> rfl

/-- The Poll Scheduler takes nothing, so its turn never tells (spec/44_sequencers.md R207). -/
theorem pollTick_reslot (now : Nat) (d : RecvDraw) :
    pollTick now d (s.reslot p) = mapNext (State.reslot p) (pollTick now d s) := by
  have hstep : pollStep now d (s.reslot p) = mapNext (State.reslot p) (pollStep now d s) := by
    unfold pollStep
    rw [State.reslot_posP]
    cases s.posP with
    | encode => exact pollEncode_reslot p
    | transmit y => exact pollTransmit_reslot p y
    | receive => exact congrArg _ (pollReceive_reslot p d)
    | gate cap => exact congrArg _ (pollGate_reslot p cap)
    | parse cap => exact pollParse_reslot p cap
    | readWord | publish | resync => rfl
    | release cap => exact congrArg _ (pollRelease_reslot p cap)
    | periodCheck => exact congrArg _ (pollPeriodCheck_reslot p now)
    | periodWait => exact congrArg _ (pollPeriodWait_reslot p now)
  unfold pollTick
  rw [hstep, apply_ite (mapNext (State.reslot p))]
  rfl
theorem respReceive_reslot (d : RecvDraw) : respReceive d (s.reslot p) = (respReceive d s).reslot p := by
  dsimp only [respReceive, State.reslot]
  cases s.perD.receive .forever d <;> rfl

theorem respParse_reslot (cap : List Symbol) : respParse cap (s.reslot p) = mapNext (State.reslot p) (respParse cap s) := by
  by_cases hc : cap.length < 8
  · rw [respParse_short s cap hc, respParse_short _ cap hc]; rfl
  · rw [respParse_long s cap (by omega), respParse_long _ cap (by omega)]; rfl

theorem respRelease_reslot (cap : List Symbol) (cmd : Option Byte) :
    respRelease cap cmd (s.reslot p) = (respRelease cap cmd s).reslot p := by
  cases cmd <;> rfl

theorem respPeek_reslot (h : MailboxInv s) (hf : s.mbx.full = false) (cmd : Byte) :
    respPeek cmd (s.reslot p) = mapNext (State.reslot p) (respPeek cmd s) := by
  unfold respPeek
  rw [exec_reslot p h hf]
  refine andThen_mapNext (fun t => ?_) _
  dsimp only [State.reslot]
  split <;> rfl

theorem respDispatch_reslot (h : MailboxInv s) (hf : s.mbx.full = false) (cmd : Byte) :
    respDispatch cmd (s.reslot p) = mapNext (State.reslot p) (respDispatch cmd s) := by
  unfold respDispatch
  rw [State.reslot_cfg]
  cases decode s.cfg (.cmd cmd) with
  | ok i => exact exec_reslot p h hf i
  | reject => rfl

theorem encodePollReply_reslot (b : List Byte) : encodePollReply b (s.reslot p) = mapNext (State.reslot p) (encodePollReply b s) := by
  unfold encodePollReply
  by_cases hb : 34 < 8 * b.length + 2
  · rw [buildReply_small b 34 s hb, buildReply_small b 34 _ hb]; rfl
  · rw [buildReply_eq b 34 s (by omega), buildReply_eq b 34 _ (by omega)]; rfl

theorem respTransmit_reslot (y : List Symbol) : respTransmit y (s.reslot p) = mapNext (State.reslot p) (respTransmit y s) := by
  unfold respTransmit
  rw [transmit_reslot]
  exact andThen_mapNext (fun t => rfl) _

theorem respAwaitSent_reslot : respAwaitSent (s.reslot p) = (respAwaitSent s).reslot p := by
  dsimp only [respAwaitSent, State.reslot]
  split <;> rfl

/-- The Command Responder's peek times out while nothing has been published (spec/44_sequencers.md R212). -/
theorem respTick_reslot (h : MailboxInv s) (hf : s.mbx.full = false) (d : RecvDraw) :
    respTick d (s.reslot p) = mapNext (State.reslot p) (respTick d s) := by
  have hstep : respStep d (s.reslot p) = mapNext (State.reslot p) (respStep d s) := by
    unfold respStep
    rw [State.reslot_posR]
    cases s.posR with
    | receive => exact congrArg _ (respReceive_reslot p d)
    | parse cap => exact respParse_reslot p cap
    | release cap cmd => exact congrArg _ (respRelease_reslot p cap cmd)
    | peek cmd => exact respPeek_reslot p h hf cmd
    | dispatch cmd => exact respDispatch_reslot p h hf cmd
    | encode b => exact encodePollReply_reslot p b
    | transmit y => exact respTransmit_reslot p y
    | awaitSent => exact congrArg _ (respAwaitSent_reslot p)
    | load | stopCapture | startCapture => rfl
  unfold respTick
  rw [hstep, apply_ite (mapNext (State.reslot p))]
  rfl

/-! ## Events -/

theorem startPoll_reslot (configured : Bool) (now : Nat) :
    startPoll configured now (s.reslot p) = (startPoll configured now s).reslot p := by
  dsimp only [startPoll, State.reslot]
  split
  · cases configured <;> rfl
  · rfl

theorem startResp_reslot (configured : Bool) : startResp configured (s.reslot p) = (startResp configured s).reslot p := by
  dsimp only [startResp, State.reslot]
  split
  · cases configured <;> rfl
  · rfl

theorem handleRequest_reslot (h : MailboxInv s) (hf : s.mbx.full = false) (who : Issuer) (w : ReqWord) (ops : Operands) :
    handleRequest who w ops (s.reslot p) = mapNext (State.reslot p) (handleRequest who w ops s) := by
  unfold handleRequest
  rw [State.reslot_cfg]
  cases decode s.cfg (.req w) with
  | ok i =>
    have he := exec_reslot (s := { s with port := cutOperands s.cfg ops }) p (h.congr rfl rfl) hf i
    exact (congrArg (andThen · _) he).trans (andThen_mapNext (fun t => congrArg _ (received_reslot p who)) _)
  | reject => rfl

theorem wakeTake_reslot (hf : s.mbx.full = false) (n : Nat) (expired : Bool) :
    wakeTake n expired (s.reslot p) = mapNext (State.reslot p) (wakeTake n expired s) := by
  unfold wakeTake
  rw [State.reslot_held]
  cases s.held[n]? with
  | none => rfl
  | some g =>
    dsimp only [State.reslot]
    rw [Mailbox.reslot_wakeCase]
    cases hc : s.mbx.wakeCase g.tmo expired with
    | now => exact absurd hc (wakeCase_ne_now hf g.tmo expired)
    | timeout | hold => rfl

theorem handleTx_reslot (h : MailboxInv s) (hf : s.mbx.full = false) (who : Role) :
    handleTx who (s.reslot p) = mapNext (State.reslot p) (handleTx who s) := by
  unfold handleTx
  rw [getPer_reslot, State.reslot_cfg]
  cases (s.getPer who).tx with
  | nil => rfl
  | cons y ys =>
    have hm : (popSymbol who ys s).mbx = s.mbx := State.setPer_mbx s who _
    have hc : (popSymbol who ys s).cfg = s.cfg := State.setPer_cfg s who _
    dsimp only
    rw [popSymbol_reslot]
    cases decode s.cfg (.sym y) with
    | ok i => exact exec_reslot p (h.congr hm hc) (by rw [hm, hf]) i
    | reject => exact congrArg _ (emit_reslot p y)

theorem handle_reslot (h : MailboxInv s) (hf : s.mbx.full = false) (e : Event) :
    handle e (s.reslot p) = mapNext (State.reslot p) (handle e s) := by
  cases e with
  | request who w ops => exact handleRequest_reslot p h hf who w ops
  | wake n expired => exact wakeTake_reslot p hf n expired
  | startPoll configured now => exact congrArg _ (startPoll_reslot p configured now)
  | startResp configured => exact congrArg _ (startResp_reslot p configured)
  | pollTick now d => exact pollTick_reslot p now d
  | respTick d => exact respTick_reslot p h hf d
  | txTick who => exact handleTx_reslot p h hf who
  | activity who | lineIdle who => cases who <;> rfl

/-- The commuting square: the slot replaced before the step or after it. -/
theorem step_reslot (h : MailboxInv s) (hf : s.mbx.full = false) : step (s.reslot p) = mapNext (State.reslot p) (step s) := by
  cases hi : s.inbox with
  | nil => rw [step_nil s hi, step_nil (s.reslot p) hi]; rfl
  | cons e rest =>
    rw [step_cons s hi, step_cons (s.reslot p) hi]
    exact handle_reslot (s := { s with inbox := rest }) p (h.congr rfl rfl) hf e

end

end Sys2Proof.Machine

namespace Sys2Proof.Safety

open Sys2Proof.Machine

/-- Settles O29: replacing the unread slot commutes with the step; afterwards the slot differs until a publish fills it. -/
theorem slotIsUnreadWhileEmpty : Obligations.SlotIsUnreadWhileEmpty := by
  intro s t p h hf hs
  have hu : step (s.reslot p) = .next (t.reslot p) := by rw [step_reslot p h hf, hs]; rfl
  refine ⟨t.reslot p, ?_, fun he => ?_, fun hfull => ?_⟩
  · rwa [State.reslot, Mailbox.reslot_of_empty p _ hf] at hu
  · rw [State.reslot, Mailbox.reslot_of_empty p _ he]
  · rw [State.reslot, Mailbox.reslot_of_full p _ hfull]

end Sys2Proof.Safety
end

section
/-! PROOFS. The encoding (spec/30_encoding.md R87 to R90, R99, R108, R111) and where a step fetches a code. `ReqRow` says once which
row of R108's table a request word meets and what the row answers; that a code has one meaning and that exactly the listed words are
illegal are case analyses of it. -/

namespace Sys2Proof

/-! ## Request words field by field -/

section
variable (op op' : BitVec 4) (r r' : BitVec 1) (tmo tmo' : BitVec 2) (f f' : BitVec 5) (k k' : BitVec 4) (w : ReqWord)

@[simp] theorem extractLsb'_reqWord : (reqWord op r tmo f k).extractLsb' 11 1 = r := by
  apply BitVec.eq_of_getLsbD_eq
  intro i hi
  obtain rfl : i = 0 := by omega
  rw [BitVec.getLsbD_extractLsb', reqWord_getLsbD]
  rfl

theorem reqWord_and :
    reqWord op r tmo f k &&& reqWord op' r' tmo' f' k' =
      reqWord (op &&& op') (r &&& r') (tmo &&& tmo') (f &&& f') (k &&& k') := by
  apply BitVec.eq_of_getLsbD_eq
  intro i _
  simp only [BitVec.getLsbD_and, reqWord_getLsbD]
  split_ifs <;> rfl

/-- A word is a given one exactly when its fields are. -/
theorem eq_reqWord_iff :
    w = reqWord op r tmo f k ↔ reqOp w = op ∧ w.extractLsb' 11 1 = r ∧ reqTmo w = tmo ∧ reqF w = f ∧ reqC w = k := by
  constructor
  · rintro rfl
    simp
  · rintro ⟨rfl, rfl, rfl, rfl, rfl⟩
    exact (reqWord_fields w).symm

theorem reqR_bits_toNat : (reqR w).bits.toNat = w.toNat / 2048 % 2 := by
  rw [reqR_bits]
  simp [BitVec.extractLsb'_toNat, Nat.shiftRight_eq_div_pow]

/-- The same with the fields as numbers (spec/30_encoding.md R108). -/
theorem eq_reqWord_iff_toNat :
    w = reqWord op r tmo f k ↔ w.toNat / 4096 = op.toNat ∧ w.toNat / 2048 % 2 = r.toNat ∧ w.toNat / 512 % 4 = tmo.toNat ∧
      w.toNat / 16 % 32 = f.toNat ∧ w.toNat % 16 = k.toNat := by
  rw [eq_reqWord_iff, ← reqOp_toNat, ← reqR_bits_toNat, reqR_bits, ← reqTmo_toNat, ← reqF_toNat, ← reqC_toNat]
  simp only [BitVec.toNat_inj]

/-! ## The four masks of R108's table -/

theorem and_mask_iff :
    w &&& reqWord op' r' tmo' f' k' = reqWord op 0 0 0 0 ↔
      reqOp w &&& op' = op ∧ w.extractLsb' 11 1 &&& r' = 0 ∧ reqTmo w &&& tmo' = 0 ∧ reqF w &&& f' = 0 ∧ reqC w &&& k' = 0 := by
  conv_lhs => rw [← reqWord_fields w, reqWord_and]
  simp [eq_reqWord_iff]

theorem and_fixedMask : w &&& 0xFFFF = reqWord op 0 0 0 0 ↔ w = reqWord op 0 0 0 0 := by
  rw [show (0xFFFF : ReqWord) = BitVec.allOnes 16 from rfl, BitVec.and_allOnes]

theorem and_registerMask : w &&& 0xF7FF = reqWord op 0 0 0 0 ↔ w = reqWord op (reqR w).bits 0 0 0 :=
  (and_mask_iff op (.allOnes 4) 0 (.allOnes 2) (.allOnes 5) (.allOnes 4) w).trans (by
    simp only [BitVec.and_allOnes, BitVec.ofNat_eq_ofNat, BitVec.and_zero, eq_reqWord_iff, reqR_bits, true_and])

theorem and_fieldMask : w &&& 0xF60F = reqWord op 0 0 0 0 ↔ w = reqWord op (reqR w).bits 0 (reqF w) 0 :=
  (and_mask_iff op (.allOnes 4) 0 (.allOnes 2) 0 (.allOnes 4) w).trans (by
    simp only [BitVec.and_allOnes, BitVec.ofNat_eq_ofNat, BitVec.and_zero, eq_reqWord_iff, reqR_bits, true_and])

theorem and_takeMask : w &&& 0xF9F0 = reqWord op 0 0 0 0 ↔ w = reqWord op 0 (reqTmo w) 0 (reqC w) :=
  (and_mask_iff op (.allOnes 4) (.allOnes 1) 0 (.allOnes 5) 0 w).trans (by
    simp only [BitVec.and_allOnes, BitVec.ofNat_eq_ofNat, BitVec.and_zero, eq_reqWord_iff, true_and])

end

/-! ## What the decoder of request words accepts -/

theorem tableRow_ok_iff {mask pattern w : ReqWord} {found : Decoded} {i : Instr} :
    tableRow mask pattern w found = .ok i ↔ w &&& mask = pattern ∧ found = .ok i :=
  ⟨tableRow_ok, fun ⟨hm, hf⟩ => (if_pos hm).trans hf⟩

theorem fieldChecked_ok_iff {r : CsId} {f : BitVec 5} {i : Instr} :
    fieldChecked r f = .ok i ↔ f.toNat ≤ 17 ∧ i = .csRdField r f := by
  unfold fieldChecked
  split <;> simp [*, eq_comm]

theorem consumerChecked_ok_iff {n : Nat} {t : Timeout} {k : BitVec 4} {i : Instr} :
    consumerChecked n t k = .ok i ↔ k.toNat < n ∧ i = .mbxTake t k := by
  unfold consumerChecked
  split <;> simp [*, eq_comm]

theorem takeChecked_bits (n : Nat) (t : Timeout) (k : BitVec 4) : takeChecked n t.bits k = consumerChecked n t k := by
  cases t <;> rfl

/-- A timeout field is a class's, whose consumer is then checked, or it is 3 (spec/30_encoding.md R102, R111). -/
theorem takeChecked_cases (n : Nat) (tmo : BitVec 2) (k : BitVec 4) :
    (∃ t : Timeout, tmo = t.bits ∧ tmo.toNat ≠ 3 ∧ takeChecked n tmo k = consumerChecked n t k) ∨
    tmo.toNat = 3 ∧ takeChecked n tmo k = .reject .reservedTimeout := by
  have four : tmo = 0 ∨ tmo = 1 ∨ tmo = 2 ∨ tmo = 3 := by revert tmo; decide
  rcases four with rfl | rfl | rfl | rfl
  · exact .inl ⟨.zero, rfl, by decide, takeChecked_bits n .zero k⟩
  · exact .inl ⟨.bounded, rfl, by decide, takeChecked_bits n .bounded k⟩
  · exact .inl ⟨.forever, rfl, by decide, takeChecked_bits n .forever k⟩
  · exact .inr ⟨rfl, rfl⟩

/-- A reading of the decoder's answer to a request word as one of the kinds of rows of R108's table. -/
inductive ReqRow (c : Config) (w : ReqWord) : Decoded → Prop where
  /-- An operation with no field in the word. -/
  | fixed (op : BitVec 4) (i : Instr) (hw : reqOp w = op) (hop : op.toNat ≤ 4 ∨ op.toNat = 0xA)
      (he : encode c i = .req (reqWord op 0 0 0 0)) (hwf : i.wf c) :
      ReqRow c w (tableRow 0xFFFF (reqWord op 0 0 0 0) w (.ok i))
  /-- An operation on a register. -/
  | register (op : BitVec 4) (i : CsId → Instr) (hw : reqOp w = op)
      (hop : op.toNat = 5 ∨ op.toNat = 6 ∨ op.toNat = 8 ∨ op.toNat = 9)
      (he : ∀ r : CsId, encode c (i r) = .req (reqWord op r.bits 0 0 0)) (hwf : ∀ r, (i r).wf c) :
      ReqRow c w (tableRow 0xF7FF (reqWord op 0 0 0 0) w (.ok (i (reqR w))))
  /-- `CS_RD_FIELD`. -/
  | field (hw : reqOp w = 7) : ReqRow c w (tableRow 0xF60F (reqWord 7 0 0 0 0) w (fieldChecked (reqR w) (reqF w)))
  /-- `MBX_TAKE`. -/
  | take (hw : reqOp w = 0xB) :
      ReqRow c w (tableRow 0xF9F0 (reqWord 0xB 0 0 0 0) w (takeChecked c.ncons (reqTmo w) (reqC w)))
  /-- No operation. -/
  | reserved (hop : 0xC ≤ (reqOp w).toNat) : ReqRow c w (.reject (.reservedOp (reqOp w)))

theorem decodeReq_row (c : Config) (w : ReqWord) : ReqRow c w (decodeReq c w) := by
  have field {n : Nat} (op : BitVec 4) (h : (reqOp w).toNat = n) (hn : op.toNat = n) : reqOp w = op :=
    BitVec.eq_of_toNat_eq (h.trans hn.symm)
  unfold decodeReq
  split
  · exact .fixed 0x0 .encBit (field _ ‹_› rfl) (by decide) rfl trivial
  · exact .fixed 0x1 .encBuf (field _ ‹_› rfl) (by decide) rfl trivial
  · exact .fixed 0x2 .classify (field _ ‹_› rfl) (by decide) rfl trivial
  · exact .fixed 0x3 .decBits (field _ ‹_› rfl) (by decide) rfl trivial
  · exact .fixed 0x4 .parseCmd (field _ ‹_› rfl) (by decide) rfl trivial
  · exact .register 0x5 .parseState (field _ ‹_› rfl) (by decide) (fun _ => rfl) fun _ => trivial
  · exact .register 0x6 .csRdWord (field _ ‹_› rfl) (by decide) (fun _ => rfl) fun _ => trivial
  · exact .field (field _ ‹_› rfl)
  · exact .register 0x8 .csRdBytes (field _ ‹_› rfl) (by decide) (fun _ => rfl) fun _ => trivial
  · exact .register 0x9 .csLdWord (field _ ‹_› rfl) (by decide) (fun _ => rfl) fun _ => trivial
  · exact .fixed 0xA .mbxPublish (field _ ‹_› rfl) (by decide) rfl trivial
  · exact .take (field _ ‹_› rfl)
  · exact .reserved (by simp only [imp_false] at *; omega)

/-- A request word that decodes is the code of its instruction (spec/30_encoding.md R108, R111). -/
theorem encode_of_decodeReq {c : Config} {w : ReqWord} {i : Instr} (h : decodeReq c w = .ok i) :
    encode c i = .req w ∧ i.wf c := by
  generalize hd : decodeReq c w = d at h
  cases hd ▸ decodeReq_row c w with
  | fixed op j hw hop he hwf =>
    obtain ⟨hm, hj⟩ := tableRow_ok h
    cases hj
    exact ⟨he.trans (congrArg Code.req ((and_fixedMask op w).1 hm).symm), hwf⟩
  | register op j hw hop he hwf =>
    obtain ⟨hm, hj⟩ := tableRow_ok h
    cases hj
    exact ⟨(he _).trans (congrArg Code.req ((and_registerMask op w).1 hm).symm), hwf _⟩
  | field hw =>
    obtain ⟨hm, hj⟩ := tableRow_ok h
    obtain ⟨hf, rfl⟩ := fieldChecked_ok_iff.1 hj
    exact ⟨congrArg Code.req ((and_fieldMask 7 w).1 hm).symm, hf⟩
  | take hw =>
    obtain ⟨hm, hj⟩ := tableRow_ok h
    rcases takeChecked_cases c.ncons (reqTmo w) (reqC w) with ⟨t, ht, -, e⟩ | ⟨-, e⟩
    · obtain ⟨hk, rfl⟩ := consumerChecked_ok_iff.1 (e ▸ hj)
      exact ⟨congrArg Code.req (ht ▸ ((and_takeMask 0xB w).1 hm).symm), hk⟩
    · cases e ▸ hj
  | reserved => cases h

/-- A row rejects a word that does not match it, and otherwise where its answer is a rejection. -/
theorem tableRow_rejects_iff {mask pattern w : ReqWord} {found : Decoded} :
    (∀ i, tableRow mask pattern w found ≠ .ok i) ↔ (w &&& mask = pattern → ∀ i, found ≠ .ok i) := by
  simp only [Ne, tableRow_ok_iff]
  tauto

theorem tableRow_ok_rejects_iff {mask pattern w : ReqWord} {j : Instr} :
    (∀ i, tableRow mask pattern w (.ok j) ≠ .ok i) ↔ ¬ w &&& mask = pattern :=
  tableRow_rejects_iff.trans (imp_congr_right fun _ => iff_false_intro fun h => h j rfl)

theorem fieldChecked_rejects_iff {r : CsId} {f : BitVec 5} : (∀ i, fieldChecked r f ≠ .ok i) ↔ 17 < f.toNat := by
  simp [fieldChecked_ok_iff]

theorem takeChecked_rejects_iff {n : Nat} {tmo : BitVec 2} {k : BitVec 4} :
    (∀ i, takeChecked n tmo k ≠ .ok i) ↔ tmo.toNat = 3 ∨ n ≤ k.toNat := by
  rcases takeChecked_cases n tmo k with ⟨t, -, h3, e⟩ | ⟨h3, e⟩
  · simp [e, h3, consumerChecked_ok_iff]
  · simp [e, h3]

section
variable {op : BitVec 4} {w : ReqWord}

theorem and_fixedMask_iff_toNat (hw : reqOp w = op) : w &&& 0xFFFF = reqWord op 0 0 0 0 ↔ w.toNat % 4096 = 0 := by
  rw [and_fixedMask, eq_reqWord_iff_toNat, ← hw, reqOp_toNat]
  simp only [BitVec.ofNat_eq_ofNat, BitVec.toNat_ofNat, true_and]
  omega

theorem and_registerMask_iff_toNat (hw : reqOp w = op) : w &&& 0xF7FF = reqWord op 0 0 0 0 ↔ w.toNat % 2048 = 0 := by
  rw [and_registerMask, eq_reqWord_iff_toNat, ← hw, reqOp_toNat, reqR_bits_toNat]
  simp only [BitVec.ofNat_eq_ofNat, BitVec.toNat_ofNat, true_and]
  omega

theorem and_fieldMask_iff_toNat (hw : reqOp w = op) :
    w &&& 0xF60F = reqWord op 0 0 0 0 ↔ w.toNat / 512 % 4 = 0 ∧ w.toNat % 16 = 0 := by
  rw [and_fieldMask, eq_reqWord_iff_toNat, ← hw, reqOp_toNat, reqR_bits_toNat, reqF_toNat]
  simp only [BitVec.ofNat_eq_ofNat, BitVec.toNat_ofNat, true_and, Nat.zero_mod]

theorem and_takeMask_iff_toNat (hw : reqOp w = op) :
    w &&& 0xF9F0 = reqWord op 0 0 0 0 ↔ w.toNat / 2048 % 2 = 0 ∧ w.toNat / 16 % 32 = 0 := by
  rw [and_takeMask, eq_reqWord_iff_toNat, ← hw, reqOp_toNat, reqTmo_toNat, reqC_toNat]
  simp only [BitVec.ofNat_eq_ofNat, BitVec.toNat_ofNat, true_and, and_true, Nat.zero_mod]

end

/-- The request words that select no operation, by their fields (spec/30_encoding.md R111). -/
theorem decodeReq_rejects_iff (c : Config) (w : ReqWord) :
    (∀ i, decodeReq c w ≠ .ok i) ↔
      (0xC ≤ w.toNat / 4096 ∨
       (w.toNat / 4096 ≤ 4 ∨ w.toNat / 4096 = 0xA) ∧ w.toNat % 4096 ≠ 0 ∨
       (w.toNat / 4096 = 5 ∨ w.toNat / 4096 = 6 ∨ w.toNat / 4096 = 8 ∨ w.toNat / 4096 = 9) ∧ w.toNat % 2048 ≠ 0 ∨
       w.toNat / 4096 = 7 ∧ (w.toNat / 512 % 4 ≠ 0 ∨ w.toNat % 16 ≠ 0 ∨ 17 < w.toNat / 16 % 32) ∨
       w.toNat / 4096 = 0xB ∧
         (w.toNat / 2048 % 2 ≠ 0 ∨ w.toNat / 16 % 32 ≠ 0 ∨ w.toNat / 512 % 4 = 3 ∨ c.ncons ≤ w.toNat % 16)) := by
  generalize hd : decodeReq c w = d
  cases hd ▸ decodeReq_row c w with
  | fixed op j hw hop =>
    rw [← hw, reqOp_toNat] at hop
    rw [tableRow_ok_rejects_iff, and_fixedMask_iff_toNat hw]
    omega
  | register op j hw hop =>
    rw [← hw, reqOp_toNat] at hop
    rw [tableRow_ok_rejects_iff, and_registerMask_iff_toNat hw]
    omega
  | field hw =>
    have hop : w.toNat / 4096 = 7 := by rw [← reqOp_toNat, hw]; rfl
    rw [tableRow_rejects_iff, and_fieldMask_iff_toNat hw, fieldChecked_rejects_iff, reqF_toNat]
    omega
  | take hw =>
    have hop : w.toNat / 4096 = 0xB := by rw [← reqOp_toNat, hw]; rfl
    rw [tableRow_rejects_iff, and_takeMask_iff_toNat hw, takeChecked_rejects_iff, reqTmo_toNat, reqC_toNat]
    omega
  | reserved hres =>
    rw [reqOp_toNat] at hres
    exact iff_of_true (fun _ h => nomatch h) (.inl hres)

/-! ## Symbols -/

theorem stopSymbol_eq_iff {c : Config} (h : c.stopOk) (a b : Nat) :
    stopSymbol c = ⟨a, .low, b, .high⟩ ↔ c.stopSymbol.d0 = a ∧ c.stopSymbol.d1 = b := by
  obtain ⟨-, -, -, hlow, hhigh⟩ := h
  rw [stopSymbol, ← hlow, ← hhigh, Symbol.mk.injEq]
  simp

/-- STOP can be told from a data bit exactly when it is another symbol (spec/30_encoding.md R91). -/
theorem stopDistinct_iff {c : Config} (h : c.stopOk) :
    c.stopDistinct ↔ stopSymbol c ≠ zeroSymbol c ∧ stopSymbol c ≠ oneSymbol c :=
  and_congr (not_congr (stopSymbol_eq_iff h _ _).symm) (not_congr (stopSymbol_eq_iff h _ _).symm)

theorem decodeSym_stop_iff {c : Config} {y : Symbol} (h : c.stopOk) :
    decodeSym c y = .ok .symStop ↔ y = stopSymbol c ∧ c.stopDistinct := by
  rw [stopDistinct_iff h]
  constructor
  · intro hy
    unfold decodeSym at hy
    split_ifs at hy with hz ho hs
    · cases hy
    · cases hy
    · exact ⟨hs, hs ▸ hz, hs ▸ ho⟩
    · cases hy
  · rintro ⟨rfl, hz, ho⟩
    exact (if_neg hz).trans ((if_neg ho).trans (if_pos rfl))

theorem oneSymbol_ne_zeroSymbol {c : Config} (h : c.wf1) : oneSymbol c ≠ zeroSymbol c := by
  intro e
  have : c.tShort = c.tLong := congrArg Symbol.d0 e
  omega

/-- A symbol that decodes is the code of its instruction (spec/30_encoding.md R87 to R90). -/
theorem encode_of_decodeSym {c : Config} {y : Symbol} {i : Instr} (hc : c.stopOk) (h : decodeSym c y = .ok i) :
    encode c i = .sym y ∧ i.wf c := by
  rcases Machine.decodeSym_cases c y with ⟨e, rfl⟩ | ⟨e, rfl⟩ | ⟨e, rfl⟩ | ⟨e, rfl⟩ | e <;> cases e.symm.trans h
  · exact ⟨rfl, trivial⟩
  · exact ⟨rfl, trivial⟩
  · exact ⟨rfl, ((decodeSym_stop_iff hc).1 e).2⟩
  · exact ⟨rfl, trivial⟩

/-! ## Command bytes -/

/-- A command byte that decodes is the code of its instruction (spec/30_encoding.md R99). -/
theorem encode_of_decodeCmd {c : Config} {b : Byte} {i : Instr} (h : decodeCmd b = .ok i) : encode c i = .cmd b ∧ i.wf c := by
  unfold decodeCmd at h
  split_ifs at h with h0 h1
  · cases h
    exact ⟨congrArg Code.cmd h0.symm, trivial⟩
  · cases h
    exact ⟨congrArg Code.cmd h1.symm, trivial⟩

/-! ## Encoded words decode -/

/-- The code of an instruction is accepted by the row it belongs to. -/
theorem tableRow_of_encode {c : Config} {i : Instr} {mask pattern w : ReqWord} (hrow : Laws.TableRow.Req mask pattern i)
    (hw : encode c i = .req w) (found : Decoded) : tableRow mask pattern w found = found := by
  obtain ⟨v, hv, hm⟩ := hrow c
  cases hw.symm.trans hv
  exact if_pos hm

/-- The decoder finds an encoded instruction's row by its `op`, the row accepts the word, and the operands are read back from their
fields (spec/30_encoding.md R108). A code with at most a register in it is one or two words, which evaluate. -/
theorem decode_encode {c : Config} {i : Instr} (hc : c.wf) (hi : i.wf c) : decode c (encode c i) = .ok i := by
  have ⟨hwf1, hstop, _⟩ := hc
  cases i with
  | encBit | encBuf | classify | decBits | parseCmd | mbxPublish => rfl
  | parseState r | csRdWord r | csRdBytes r | csLdWord r => cases r <;> rfl
  | csRdField r f =>
    simp only [decode, encode, decodeReq, reqOp_reqWord, reqR_reqWord, reqF_reqWord]
    exact (tableRow_of_encode (c := c) (Laws.TableRow.csRdField r f) rfl _).trans (if_pos hi)
  | mbxTake tmo k =>
    simp only [decode, encode, decodeReq, reqOp_reqWord, reqTmo_reqWord, reqC_reqWord]
    exact (tableRow_of_encode (c := c) (Laws.TableRow.mbxTake tmo k) rfl _).trans
      ((takeChecked_bits c.ncons tmo k).trans (if_pos hi))
  | status | poll => rfl
  | symZero => exact if_pos rfl
  | symOne => exact (if_neg (oneSymbol_ne_zeroSymbol hwf1)).trans (if_pos rfl)
  | symStop => exact (decodeSym_stop_iff hstop).2 ⟨rfl, hi⟩
  | symEnd => exact (Machine.decodeSym_end_iff c endSymbol hc).2 rfl

end Sys2Proof

namespace Sys2Proof.Machine

/-! ## Where a step fetches a code -/

section
variable {s : State} {rest : List Event} {i : Instr}

/-- A request whose word decodes runs its instruction; only the marks come on top (spec/60_exceptions.md R229). -/
theorem step_request_ok {who : Issuer} {w : ReqWord} {ops : Operands} (hi : s.inbox = .request who w ops :: rest)
    (hd : decode s.cfg (.req w) = .ok i) :
    ∃ t, exec i { s with inbox := rest, port := cutOperands s.cfg ops } = .next t ∧
      step s = .next { t with faulted := (t.received who).faulted } := by
  rw [step_cons s hi]
  rcases handleRequest_cases { s with inbox := rest } who w ops with ⟨j, t, hj, ht, e⟩ | ⟨hno, -⟩
  · cases hj.symm.trans hd
    exact ⟨t, ht, e⟩
  · exact absurd hd (hno i)

theorem step_request_illegal {who : Issuer} {w : ReqWord} {ops : Operands} (hi : s.inbox = .request who w ops :: rest)
    (hno : ∀ i, decode s.cfg (.req w) ≠ .ok i) :
    step s = .next { s with inbox := rest, port := cutOperands s.cfg ops, out := .done .illegalOp .none } := by
  rw [step_cons s hi]
  rcases handleRequest_cases { s with inbox := rest } who w ops with ⟨j, -, hj, -⟩ | ⟨-, e⟩
  · exact absurd hj (hno j)
  · exact e

theorem step_dispatch_ok {d : RecvDraw} {b : Byte} (hi : s.inbox = .respTick d :: rest) (hp : s.phaseR = .running)
    (hpos : s.posR = .dispatch b) (hd : decode s.cfg (.cmd b) = .ok i) : step s = exec i { s with inbox := rest } := by
  rw [step_respTick hi hp, respStep_dispatch (s := { s with inbox := rest }) d hpos, respDispatch, hd]

theorem step_txTick_ok {who : Role} {y : Symbol} {ys : List Symbol} (hi : s.inbox = .txTick who :: rest)
    (ht : (s.getPer who).tx = y :: ys) (hd : decode s.cfg (.sym y) = .ok i) :
    step s = exec i (popSymbol who ys { s with inbox := rest }) := by
  have ht' : (State.getPer { s with inbox := rest } who).tx = y :: ys := by cases who <;> exact ht
  rw [step_cons s hi, handle, handleTx, ht']
  simp only [hd]

end

end Sys2Proof.Machine

namespace Sys2Proof.Safety

open Sys2Proof.Machine

/-- Settles O52: every row accepts the codes it encodes and reads their operands back. -/
theorem decodingAnEncodedInstructionGivesItBack : Obligations.DecodingAnEncodedInstructionGivesItBack :=
  fun _ _ => decode_encode

/-- Settles O53: form by form, what decodes is the code of its instruction. -/
theorem eachCodeHasOneMeaning : Obligations.EachCodeHasOneMeaning := by
  rintro c code i ⟨-, hstop, -⟩ h
  cases code with
  | req w => exact encode_of_decodeReq h
  | cmd b => exact encode_of_decodeCmd h
  | sym y => exact encode_of_decodeSym hstop h

/-- Settles O51: the rows reject exactly the listed words, and a rejected request is answered `ILLEGAL_OP`. -/
theorem illegalWordsAnswerIllegalOp : Obligations.IllegalWordsAnswerIllegalOp :=
  fun s _ w _ _ hi => ⟨decodeReq_rejects_iff s.cfg w, step_request_illegal hi⟩

/-- Settles O55: one lemma for each place a code is fetched from. -/
theorem stepRunsTheDecodedInstruction : Obligations.StepRunsTheDecodedInstruction := by
  intro s rest i
  refine ⟨fun who w ops hi hd => ?_, fun ops => cutOperands_of_fits s.cfg ops, fun b d => step_dispatch_ok,
    fun y ys hi ht => step_txTick_ok hi ht, fun y ys hi ht => step_txTick_ok hi ht⟩
  obtain ⟨t, ht, hs⟩ := step_request_ok hi hd
  exact ⟨t, _, ht, hs, State.received_faulted t who⟩

end Sys2Proof.Safety
end

section
/-! PROOFS. The Pulse Codec (spec/40_codec.md). The data symbols of a buffer are its bits mapped through `symbolOfBit`, so decoding
them comes down to how one symbol of each bit classifies: as the bit itself after the loop-back, as 1 without it. -/

namespace Sys2Proof.Machine

/-! ## The symbols of a buffer, classified -/

theorem take_encodedBuffer (c : Config) (bytes : List Byte) :
    (encodedBuffer c bytes).take (8 * bytes.length) = dataSymbols c bytes := by
  rw [encodedBuffer, ← dataSymbols_length c bytes, List.take_left]

/-- A test made of the data symbols is a test made of the bits they carry. -/
theorem map_dataSymbols (c : Config) (bytes : List Byte) {test : Symbol → Bool} {f : Bool → Bool}
    (h : ∀ v, test (symbolOfBit c v) = f v) : (dataSymbols c bytes).map test = (bytes.flatMap bitsOfByte).map f := by
  rw [dataSymbols_eq_map, List.map_map]
  exact List.map_congr_left fun v _ => h v

/-- Under WF2 the looped-back data symbols classify as the bits they carry (spec/40_codec.md R132). -/
theorem classify_loop_dataSymbols {c : Config} {k : Nat} (h : c.wf2 k) (bytes : List Byte) :
    ((dataSymbols c bytes).map (loopSymbol k)).map (classifyBit c) = bytes.flatMap bitsOfByte := by
  rw [List.map_map, map_dataSymbols c bytes (f := id) (classify_loop_symbol c k h), List.map_id]

/-- With both nominal durations below the threshold every data symbol is a 1 (spec/40_codec.md R133). -/
theorem classify_unscaled_symbol {c : Config} (hs : c.tShort < c.thresh) (hl : c.tLong < c.thresh) (v : Bool) :
    classifyBit c (symbolOfBit c v) = true := by
  cases v with
  | false => exact decide_eq_true hl
  | true => exact decide_eq_true hs

theorem bits_all_ones (bytes : List Byte) :
    (bytes.flatMap bitsOfByte).map (fun _ => true) = (List.replicate bytes.length 0xFF).flatMap bitsOfByte := by
  induction bytes with
  | nil => rfl
  | cons b rest ih =>
    rw [List.flatMap_cons, List.map_append, ih]
    rfl

theorem classify_unscaled_dataSymbols {c : Config} (hs : c.tShort < c.thresh) (hl : c.tLong < c.thresh) (bytes : List Byte) :
    (dataSymbols c bytes).map (classifyBit c) = (List.replicate bytes.length 0xFF).flatMap bitsOfByte := by
  rw [map_dataSymbols c bytes (classify_unscaled_symbol hs hl), bits_all_ones]

/-! ## The operations, case by case -/

section
variable {s t : State}

/-- An `ENC_BUF` that answered symbols had the capacity, and wrote the encoded buffer (spec/40_codec.md R123, R124). -/
theorem execEncBuf_symbols {y : List Symbol} (h : exec .encBuf s = .next t) (ho : t.out = .done .ok (.symbols y)) :
    y = encodedBuffer s.cfg s.port.bytes ∧ t = { s with out := .done .ok (.symbols y) } := by
  by_cases hc : s.port.cap < 8 * s.port.bytes.length + 2
  · cases h.symm.trans (execEncBuf_small s hc)
    cases ho
  · cases h.symm.trans (execEncBuf_fits s (not_lt.1 hc))
    cases ho
    exact ⟨rfl, rfl⟩

theorem execClassify_below (h : s.port.sym.d0 < s.cfg.thresh) : exec .classify s = .next { s with out := .done .ok (.bit true) } := by
  rw [exec, execClassify_eq, classifyBit, decide_eq_true h]

theorem execClassify_from (h : s.cfg.thresh ≤ s.port.sym.d0) : exec .classify s = .next { s with out := .done .ok (.bit false) } := by
  rw [exec, execClassify_eq, classifyBit, decide_eq_false (not_lt.2 h)]

/-- `DEC_BITS` on symbols that classify as the bits of whole bytes answers those bytes (spec/40_codec.md R129). -/
theorem execDecBits_bytes {bytes : List Byte} (h : s.port.syms.map (classifyBit s.cfg) = bytes.flatMap bitsOfByte) :
    exec .decBits s = .next { s with out := .done .ok (.decoded (bytes.flatMap bitsOfByte) bytes) } := by
  rw [exec, execDecBits_eq, h, bytesOfBits_flatMap]

end

/-! ## The pure operations -/

/-- What a codec operation or `PARSE_CMD` answers, from the configuration and the operands alone (spec/40_codec.md R120). -/
def codecAnswer (c : Config) (ops : Operands) : Instr → PortOut
  | .encBit => .done .ok (.symbol (symbolOfBit c ops.bit))
  | .encBuf =>
    if ops.cap < 8 * ops.bytes.length + 2 then .done .capacity .none else .done .ok (.symbols (encodedBuffer c ops.bytes))
  | .classify => .done .ok (.bit (classifyBit c ops.sym))
  | .decBits => .done .ok (.decoded (ops.syms.map (classifyBit c)) (bytesOfBits (ops.syms.map (classifyBit c))))
  | .parseCmd => if ops.syms.length < 8 then .done .malformed .none else .done .ok (.byte (byteAt c ops.syms 0))
  | _ => .idle

theorem exec_codecAnswer {i : Instr} (hi : i ∈ [Instr.encBit, .encBuf, .classify, .decBits, .parseCmd]) (s : State) :
    exec i s = .next { s with out := codecAnswer s.cfg s.port i } := by
  cases i with
  | encBit => exact execEncBit_eq s
  | encBuf =>
    by_cases h : s.port.cap < 8 * s.port.bytes.length + 2
    · rw [codecAnswer, if_pos h]; exact execEncBuf_small s h
    · rw [codecAnswer, if_neg h]; exact execEncBuf_fits s (not_lt.1 h)
  | classify => exact execClassify_eq s
  | decBits => exact execDecBits_eq s
  | parseCmd =>
    by_cases h : s.port.syms.length < 8
    · rw [codecAnswer, if_pos h]; exact execParseCmd_short s h
    · rw [codecAnswer, if_neg h]; exact execParseCmd_long s (not_lt.1 h)
  | _ => simp at hi

end Sys2Proof.Machine

namespace Sys2Proof.Safety

open Sys2Proof.Machine

/-- Settles O1: the symbol of a bit is the one written out from the parameters. -/
theorem encBitAnswersTheSymbolOfTheBit : Obligations.EncBitAnswersTheSymbolOfTheBit := fun s =>
  ⟨rfl, by rw [exec, execEncBit_eq, wireSymbol_eq]⟩

/-- Settles O2: the two cases of `ENC_BUF`, and the frame of what it writes. -/
theorem encBufWritesDataStopEnd : Obligations.EncBufWritesDataStopEnd := fun s =>
  ⟨rfl, fun h => ⟨_, execEncBuf_fits s h, frame_encodedBuffer s.cfg s.port.bytes⟩, execEncBuf_small s⟩

/-- Settles O4: the two extremes put every duration on one side of the threshold. -/
theorem classifyComparesTheFirstDuration : Obligations.ClassifyComparesTheFirstDuration := fun s =>
  ⟨rfl, execClassify_eq s, fun h0 => execClassify_from (h0 ▸ Nat.zero_le _),
    fun hw hf => execClassify_below (hf.1.trans_le hw)⟩

/-- Settles O5: WF2 puts the threshold between the two scaled nominal durations. -/
theorem classifyToleratesTheBandUnderWF2 : Obligations.ClassifyToleratesTheBandUnderWF2 := by
  rintro s k ⟨hs, hl, -⟩
  exact ⟨fun h => execClassify_below (h.trans_lt hs), fun h => execClassify_from (hl.trans h),
    fun h => execClassify_below (by omega), execClassify_from⟩

/-- Settles O6: the bits are the symbols' classes, the bytes the packed groups of eight. -/
theorem decBitsClassifiesAndPacks : Obligations.DecBitsClassifiesAndPacks := fun s =>
  have hlen : (s.port.syms.map (classifyBit s.cfg)).length = s.port.syms.length := List.length_map _
  ⟨rfl, _, _, execDecBits_eq s, hlen, classified_getD s.cfg s.port.syms, by rw [bytesOfBits_length, hlen],
    fun j hj k hk => bytesOfBits_bit _ j k (hlen.symm ▸ hj) hk⟩

/-- Settles O7: what `DEC_BITS` is given are the data symbols, looped back, and they classify as the bits of the bytes. -/
theorem roundTripThroughTheLoopback : Obligations.RoundTripThroughTheLoopback := by
  intro s t k y hk h ho
  obtain ⟨rfl, rfl⟩ := execEncBuf_symbols h ho
  refine ⟨_, _, execDecBits_bytes ?_, rfl⟩
  rw [← List.map_take, take_encodedBuffer]
  exact classify_loop_dataSymbols hk s.port.bytes

/-- Settles O8: unscaled, every data symbol is below the threshold, so all bits are ones. -/
theorem noRoundTripWithoutTheLoopback : Obligations.NoRoundTripWithoutTheLoopback := by
  refine ⟨by decide, fun s t y hs hl h ho => ?_⟩
  obtain ⟨rfl, rfl⟩ := execEncBuf_symbols h ho
  refine ⟨_, _, _, execDecBits_bytes ?_, rfl, rfl, Ne.symm⟩
  rw [take_encodedBuffer]
  exact classify_unscaled_dataSymbols hs hl s.port.bytes

/-- Settles O9: the answer is `codecAnswer` of the configuration and the operands, and nothing else is written. -/
theorem codecAndCommandParseArePure : Obligations.CodecAndCommandParseArePure := by
  intro i hi s u hp hc
  exact ⟨_, exec_codecAnswer hi s, hp ▸ hc ▸ exec_codecAnswer hi u⟩

end Sys2Proof.Safety
end

section
/-! PROOFS. The Packet Framer (spec/41_framer.md). One lemma says what a `PARSE_STATE` that has its 32 symbols comes to, and one what a
`PARSE_POLL` past its gate comes to; the statements read off the parts they speak of. -/

namespace Sys2Proof.Machine

/-! ## The change detector -/

theorem changeStatus_eq (old new : Word) : changeStatus old new = if new ≠ old then .changed else .unchanged :=
  (ite_not _ _ _).symm

theorem changeStatus_self (w : Word) : changeStatus w w = .unchanged :=
  if_pos rfl

theorem changeStatus_eq_changed_iff {old new : Word} : changeStatus old new = .changed ↔ new ≠ old := by
  rw [changeStatus_eq]
  split_ifs with h <;> simp [h]

theorem changeStatus_cases (old new : Word) : changeStatus old new = .changed ∨ changeStatus old new = .unchanged := by
  rw [changeStatus_eq]
  split_ifs
  · exact .inl rfl
  · exact .inr rfl

theorem State.setCs_getCs (s : State) (r : CsId) : s.setCs r (s.getCs r) = s := by
  cases r <;> rfl

/-! ## Parsing -/

section
variable (s : State) (r : CsId)

/-- What a `PARSE_STATE` with enough symbols leaves (spec/41_framer.md R144, R146). -/
theorem execParseState_next (h : 32 ≤ s.port.syms.length) :
    ∃ t, execParseState r s = .next t ∧ t.cfg = s.cfg ∧ t.getCs r = wordAt s.cfg s.port.syms 0 ∧
      t.out = .done (changeStatus (s.getCs r) (wordAt s.cfg s.port.syms 0)) .none :=
  ⟨_, execParseState_long s r h, s.setCs_cfg r _, s.getCs_setCs_same r _, rfl⟩

/-- Parsing the word the register holds writes nothing new (spec/41_framer.md R151). -/
theorem execParseState_held (h : 32 ≤ s.port.syms.length) (hw : s.getCs r = wordAt s.cfg s.port.syms 0) :
    execParseState r s = .next { s with out := .done .unchanged .none } := by
  rw [execParseState_long s r h, ← hw, State.setCs_getCs, changeStatus_self]

/-- What a `PARSE_POLL` past its gate leaves: after the skip, 32 of 41 symbols are still there (spec/41_framer.md R149, R150). -/
theorem parsePoll_next (cap : List Symbol) (hgate : s.cfg.pollMin ≤ cap.length) (h : 41 ≤ cap.length) :
    ∃ t, parsePoll r cap s = .next t ∧ t.getCs r = wordAt s.cfg cap 9 ∧
      t.out = .done (changeStatus (s.getCs r) (wordAt s.cfg cap 9)) .none := by
  have hlen : 32 ≤ (cap.drop 9).length := by rw [List.length_drop]; omega
  have hcs : State.getCs { s with port := { s.port with syms := cap.drop 9 } } r = s.getCs r := by cases r <;> rfl
  obtain ⟨t, ht, -, hr, ho⟩ := execParseState_next { s with port := { s.port with syms := cap.drop 9 } } r hlen
  rw [wordAt_drop] at hr ho
  exact ⟨t, (parsePoll_long s r cap hgate).trans ht, hr, hcs ▸ ho⟩

end

end Sys2Proof.Machine

namespace Sys2Proof.Safety

open Sys2Proof.Machine

theorem done_changeStatus {o : PortOut} {old new : Word} (h : o = .done (changeStatus old new) .none) :
    o = .done .changed .none ∨ o = .done .unchanged .none := by
  rcases changeStatus_cases old new with e | e <;> rw [e] at h
  · exact .inl h
  · exact .inr h

theorem bitAt_getD {c : Config} {syms : List Symbol} {i : Nat} {b : Bool} (h : bitAt c syms i b) (z : Symbol) :
    b = decide ((syms.getD i z).d0 < c.thresh) := by
  obtain ⟨y, hy, rfl⟩ := h
  rw [List.getD_eq_getElem?_getD, hy, Option.getD_some]

/-- The word at the front of a capture, bit by bit. -/
theorem wordAt_zero_bitAt (c : Config) (syms : List Symbol) (h : 32 ≤ syms.length) :
    ∀ i < 32, bitAt c syms i ((wordAt c syms 0).getLsbD (31 - i)) := by
  simpa only [Nat.zero_add] using wordAt_bitAt c syms 0 (by omega)

/-- The word read from a capture is sent again as the classes of its symbols (spec/41_framer.md R148). -/
theorem frame_wordBytes_wordAt (c : Config) (syms : List Symbol) (h : 32 ≤ syms.length) (z : Symbol) :
    Frame c 32 (fun i => decide ((syms.getD i z).d0 < c.thresh)) (encodedBuffer c (wordBytes (wordAt c syms 0))) := by
  refine (frame_encodedBuffer c (wordBytes (wordAt c syms 0))).congr fun i hi => ?_
  calc ((wordBytes (wordAt c syms 0)).getD (i / 8) 0).getLsbD (7 - i % 8)
      _ = (wordAt c syms 0).getLsbD (31 - i) := wordBytes_bit _ i hi
      _ = decide ((syms.getD i z).d0 < c.thresh) := bitAt_getD (wordAt_zero_bitAt c syms h i hi) z

/-- Settles O10: the two sides of the length test, and the bits of the byte read. -/
theorem parseCmdReadsEightSymbols : Obligations.ParseCmdReadsEightSymbols := fun s =>
  ⟨rfl, fun h => ⟨_, execParseCmd_long s h, byteAt_bitAt s.cfg s.port.syms h⟩, execParseCmd_short s⟩

/-- Settles O12: both registers take the same word, and the change detector's verdict is the test for a difference. -/
theorem parseStateWritesTheDecodedWord : Obligations.ParseStateWritesTheDecodedWord := by
  refine fun s => ⟨rfl, rfl, fun h => ⟨wordAt s.cfg s.port.syms 0, wordAt_zero_bitAt _ _ h, ?_, ?_⟩,
    fun h r => execParseState_short s r h⟩
  · rw [← changeStatus_eq]; exact execParseState_long s .cs0 h
  · rw [← changeStatus_eq]; exact execParseState_long s .cs1 h

/-- Settles O13: the first parse leaves the decoded word, and a parse of the word held changes only the answer. -/
theorem parsingTwiceIsUnchanged : Obligations.ParsingTwiceIsUnchanged := by
  intro r s h
  obtain ⟨t, ht, -, hr, ho⟩ := execParseState_next s r h
  refine ⟨t, _, ht, wordAt_zero_bitAt _ _ h, hr, ?_, fun u hc hs hu => execParseState_held u r (hs ▸ h) ?_⟩
  · rw [ho, ← changeStatus_eq_changed_iff]; simp
  · rw [hu, hr, hc, hs]

/-- Settles O14: 41 symbols are too few for the gate alone, and from 42 on the word is read behind the nine skipped. -/
theorem pollPathRejects41Accepts42 : Obligations.PollPathRejects41Accepts42 := by
  refine fun r s cap hmin => ⟨fun h41 => ⟨parsePoll_short s r cap (by omega), ?_⟩, fun h42 => ?_⟩
  · obtain ⟨t, ht, -, -, ho⟩ := execParseState_next { s with port := { s.port with syms := cap.drop 9 } } r
      (by rw [List.length_drop]; omega)
    exact ⟨t, ht, done_changeStatus ho⟩
  · obtain ⟨t, ht, hr, ho⟩ := parsePoll_next s r cap (by omega) (by omega)
    exact ⟨t, _, ht, wordAt_bitAt s.cfg cap 9 (by omega), hr, done_changeStatus ho⟩

/-- Settles O15: a legal configuration has `POLL_MIN >= 41`, so the gate leaves 32 symbols after the skip. -/
theorem pollPathGatesSkipsAndParses : Obligations.PollPathGatesSkipsAndParses := by
  refine fun r s cap => ⟨parsePoll_short s r cap, fun h => ⟨parsePoll_long s r cap h, ?_⟩⟩
  rintro ⟨-, -, h41, -⟩
  obtain ⟨t, ht, -, ho⟩ := parsePoll_next s r cap h (h41.trans h)
  exact ⟨t, ht, done_changeStatus ho⟩

/-- Settles O16: the register's four bytes fit 34 symbols, and their bits are the classes of the captured symbols. -/
theorem parsedStateIsReplayedBitForBit : Obligations.ParsedStateIsReplayedBitForBit := by
  intro r s t h he
  obtain ⟨t', ht, hc, hr, -⟩ := execParseState_next s r h
  cases he.symm.trans ht
  refine ⟨_, wordBytes (t.getCs r), _, encodedBuffer t.cfg (wordBytes (t.getCs r)), rfl, rfl, execEncBuf_fits _ le_rfl, rfl, ?_⟩
  rw [hc, hr]
  exact frame_wordBytes_wordAt s.cfg s.port.syms h _

end Sys2Proof.Safety
end

section
/-! PROOFS. The Controller-State Register (spec/42_state_register.md). One lemma says what `CS_RD_FIELD` answers, through the model's
`wordField`; what a field holds, and that the 18 fields together are the word, are facts about `wordField` alone. -/

namespace Sys2Proof

theorem reqWord_or (op op' : BitVec 4) (r r' : BitVec 1) (tmo tmo' : BitVec 2) (f f' : BitVec 5) (k k' : BitVec 4) :
    reqWord op r tmo f k ||| reqWord op' r' tmo' f' k' =
      reqWord (op ||| op') (r ||| r') (tmo ||| tmo') (f ||| f') (k ||| k') := by
  apply BitVec.eq_of_getLsbD_eq
  intro i _
  simp only [BitVec.getLsbD_or, reqWord_getLsbD]
  split_ifs <;> rfl

theorem reqWord_registerOnly (r : CsId) : reqWord 0 r.bits 0 0 0 = ((if r = .cs1 then 0x0800 else 0 : Nat) : ReqWord) := by
  cases r <;> rfl

theorem reqWord_fieldOnly (f : BitVec 5) : reqWord 0 0 0 f 0 = f.zeroExtend 16 <<< 4 := by
  have hf := f.isLt
  have hn : (f.zeroExtend 16 <<< 4).toNat = 16 * f.toNat := by
    rw [BitVec.toNat_shiftLeft, Nat.shiftLeft_eq, BitVec.zeroExtend, BitVec.toNat_setWidth]
    omega
  refine ((eq_reqWord_iff_toNat ..).2 ?_).symm
  rw [hn]
  simp only [BitVec.ofNat_eq_ofNat, BitVec.toNat_ofNat, Nat.zero_mod]
  omega

/-- The request word of a field read is the union of its parts (spec/30_encoding.md R108). -/
theorem reqWord_csRdField (r : CsId) (f : BitVec 5) :
    reqWord 0x7 r.bits 0 f 0 = 0x7000 ||| (if r = .cs1 then 0x0800 else 0) ||| f.zeroExtend 16 <<< 4 := by
  have hop : ((0x7000 : Nat) : ReqWord) = reqWord 0x7 0 0 0 0 := rfl
  rw [hop, ← reqWord_registerOnly, ← reqWord_fieldOnly, reqWord_or, reqWord_or]
  simp

end Sys2Proof

namespace Sys2Proof.Machine

/-! ## The fields of a word -/

section
variable (w : Word) {f : BitVec 5}

theorem wordField_flag (h : f.toNat ≤ 15) : wordField w f = some (.flag (wordFlag w f.toNat)) :=
  if_pos h

theorem wordField_axisX (h : f.toNat = 16) : wordField w f = some (.axis (wordAxisX w)) := by
  simp [wordField, h]

theorem wordField_axisY (h : f.toNat = 17) : wordField w f = some (.axis (wordAxisY w)) := by
  simp [wordField, h]

theorem wordField_above (h : 17 < f.toNat) : wordField w f = none := by
  rw [wordField, if_neg (by omega), if_neg (by omega), if_neg (by omega)]

/-- A byte of a word as a signed integer (spec/00_scope.md R24). -/
theorem toInt_byte (k : Nat) :
    (w.extractLsb' k 8).toInt =
      if w.toNat / 2 ^ k % 256 < 128 then (w.toNat / 2 ^ k % 256 : Int) else (w.toNat / 2 ^ k % 256 : Int) - 256 := by
  have hn : (w.extractLsb' k 8).toNat = w.toNat / 2 ^ k % 256 := by
    rw [BitVec.extractLsb'_toNat, Nat.shiftRight_eq_div_pow]
  rw [BitVec.toInt_eq_toNat_cond, hn]
  push_cast
  split_ifs <;> omega

end

/-- Words with an equal byte at `k` have equal bits there. -/
theorem getLsbD_of_byte {w v : Word} {k i : Nat} (h : w.extractLsb' k 8 = v.extractLsb' k 8) (hk : k ≤ i) (hi : i < k + 8) :
    w.getLsbD i = v.getLsbD i := by
  have bit (x : Word) : (x.extractLsb' k 8).getLsbD (i - k) = x.getLsbD i := by
    simp [show i - k < 8 by omega, show k + (i - k) = i by omega]
  rw [← bit w, ← bit v, h]

/-- The 18 fields are the whole word: 16 flags are its upper half, the axes its two lower bytes (spec/10_state.md R33, R34). -/
theorem eq_iff_wordField (w v : Word) : w = v ↔ ∀ f : BitVec 5, f.toNat ≤ 17 → wordField w f = wordField v f := by
  refine ⟨fun h _ _ => h ▸ rfl, fun h => BitVec.eq_of_getLsbD_eq fun i hi => ?_⟩
  rcases (by omega : 16 ≤ i ∨ 8 ≤ i ∧ i < 16 ∨ i < 8) with hflag | ⟨hlo, hhi⟩ | hlow
  · have hf : (BitVec.ofNat 5 (31 - i)).toNat = 31 - i := by
      rw [BitVec.toNat_ofNat, Nat.mod_eq_of_lt (by omega)]
    have he := h _ (by omega : (BitVec.ofNat 5 (31 - i)).toNat ≤ 17)
    rw [wordField_flag w (by omega), wordField_flag v (by omega), hf] at he
    simpa [wordFlag, show 31 - (31 - i) = i by omega] using he
  · have he := h 16 (by decide)
    rw [wordField_axisX w rfl, wordField_axisX v rfl] at he
    have hx : wordAxisX w = wordAxisX v := by simpa using he
    exact getLsbD_of_byte (BitVec.eq_of_toInt_eq hx) hlo hhi
  · have he := h 17 (by decide)
    rw [wordField_axisY w rfl, wordField_axisY v rfl] at he
    have hy : wordAxisY w = wordAxisY v := by simpa using he
    exact getLsbD_of_byte (BitVec.eq_of_toInt_eq hy) (Nat.zero_le i) hlow

/-! ## The register operations in closed form -/

/-- The answer to a field read: the field, or `ILLEGAL_OP` where there is none (spec/42_state_register.md R158). -/
def fieldAnswer : Option Value → PortOut
  | some v => .done .ok v
  | none => .done .illegalOp .none

theorem fieldAnswer_inj {x y : Option Value} : fieldAnswer x = fieldAnswer y ↔ x = y := by
  cases x <;> cases y <;> simp [fieldAnswer]

section
variable (r : CsId) (s : State)

theorem exec_csRdWord : exec (.csRdWord r) s = .next { s with out := .done .ok (.word (s.getCs r)) } := rfl

theorem exec_csRdBytes : exec (.csRdBytes r) s = .next { s with out := .done .ok (.bytes (wordBytes (s.getCs r))) } := rfl

theorem exec_csLdWord : exec (.csLdWord r) s = .next { s.setCs r s.port.word with out := .done .ok .none } := rfl

theorem exec_csRdField (f : BitVec 5) :
    exec (.csRdField r f) s = .next { s with out := fieldAnswer (wordField (s.getCs r) f) } := by
  change execCsRdField r f s = _
  rw [execCsRdField]
  cases wordField (s.getCs r) f <;> rfl

end

/-- Two field reads answer the same exactly when the field is the same in both words. -/
theorem exec_csRdField_same_out (r q : CsId) (s t : State) (f : BitVec 5) :
    (∃ u v, exec (.csRdField r f) s = .next u ∧ exec (.csRdField q f) t = .next v ∧ u.out = v.out) ↔
      wordField (s.getCs r) f = wordField (t.getCs q) f := by
  simp only [exec_csRdField, Host.Outcome.next.injEq, ↓existsAndEq, true_and, fieldAnswer_inj]

end Sys2Proof.Machine

namespace Sys2Proof.Safety

open Sys2Proof.Machine

/-- Settles O18: the four ranges of the field number are the four cases of `wordField`. -/
theorem fieldReadsSliceTheRegister : Obligations.FieldReadsSliceTheRegister := by
  intro r f s
  simp only [exec_csRdField]
  refine ⟨congrArg Code.req (reqWord_csRdField r f), fun h => ?_, fun h => ?_, fun h => ?_, fun h => ?_⟩
  · rw [wordField_flag _ h]; rfl
  · rw [wordField_axisX _ h, wordAxisX, toInt_byte]; rfl
  · rw [wordField_axisY _ h, wordAxisY, toInt_byte]; simp [fieldAnswer]
  · rw [wordField_above _ h]; rfl

/-- Settles O20: equal answers are equal fields, and the fields make up the word. -/
theorem equalWordsAreEqualFields : Obligations.EqualWordsAreEqualFields := by
  intro r q s t
  simp only [exec_csRdField_same_out]
  exact eq_iff_wordField _ _

/-- Settles O17: a register read answers from the named register. -/
theorem wordAndByteReadsReturnTheRegister : Obligations.WordAndByteReadsReturnTheRegister := fun s =>
  ⟨rfl, rfl, rfl, rfl, exec_csRdWord .cs0 s, exec_csRdWord .cs1 s, exec_csRdBytes .cs0 s, exec_csRdBytes .cs1 s⟩

/-- Settles O19: the load is the one write of the named register. -/
theorem loadWordReplacesTheRegister : Obligations.LoadWordReplacesTheRegister := fun s =>
  ⟨rfl, rfl, exec_csLdWord .cs0 s, exec_csLdWord .cs1 s⟩

end Sys2Proof.Safety
end

section
/-! PROOFS. The Mailbox (spec/43_mailbox.md). One lemma per case of `takeCase` and `wakeCase` says what the take comes to, and
`exec_mbxTake_cases` what it can write; what a take answers depends on its consumer's flag, the slot and `full` alone. -/

namespace Sys2Proof.Machine

/-! ## Which case a take meets -/

section
variable {m : Mailbox} {tmo : Timeout} {k : BitVec 4}

theorem takeCase_fresh (hf : m.full = true) (hk : m.freshOf k = true) (tmo : Timeout) : m.takeCase tmo k = .now := by
  cases tmo with
  | zero => exact if_pos hk
  | bounded | forever => exact if_pos hf

/-- A full mailbox holds nobody: a take completes, or it is a peek that finds nothing new (spec/43_mailbox.md R174 to R176). -/
theorem takeCase_full (hf : m.full = true) (tmo : Timeout) (k : BitVec 4) :
    m.takeCase tmo k = .now ∨ m.takeCase tmo k = .timeout := by
  cases hk : m.freshOf k with
  | true => exact .inl (takeCase_fresh hf hk tmo)
  | false =>
    cases tmo with
    | zero => exact .inr (by rw [takeCase_zero, hk]; rfl)
    | bounded | forever => exact .inl (if_pos hf)

theorem takeCase_waiting_full (ht : tmo ≠ .zero) (hf : m.full = true) : m.takeCase tmo k = .now := by
  rw [takeCase_waiting m tmo k ht, if_pos hf]

theorem takeCase_waiting_empty (ht : tmo ≠ .zero) (hf : m.full = false) : m.takeCase tmo k = .hold := by
  rw [takeCase_waiting m tmo k ht, hf]; rfl

end

/-! ## The mailbox operations in closed form -/

section
variable {s : State} {tmo : Timeout} {k : BitVec 4}

theorem exec_mbxPublish (s : State) :
    exec .mbxPublish s =
      .next { s with mbx := s.mbx.published s.cfg.ncons s.port.packet, out := .done .ok .none } := rfl

/-- A publish leaves its packet as news for every consumer (spec/43_mailbox.md R171). -/
theorem exec_mbxPublish_next (s : State) :
    ∃ t, exec .mbxPublish s = .next t ∧ t.cfg = s.cfg ∧ t.mbx.slot = s.port.packet ∧ t.mbx.full = true ∧
      ∀ k : BitVec 4, k.toNat < t.cfg.ncons → t.mbx.freshOf k = true :=
  ⟨_, exec_mbxPublish s, rfl, rfl, rfl, published_freshOf s.mbx s.cfg.ncons s.port.packet⟩

theorem exec_mbxTake_now (hk : k.toNat < s.cfg.ncons) (hc : s.mbx.takeCase tmo k = .now) :
    exec (.mbxTake tmo k) s = .next (completeTake k s) := by
  simp [exec, execMbxTake, hk, hc]

theorem exec_mbxTake_timeout (hk : k.toNat < s.cfg.ncons) (hc : s.mbx.takeCase tmo k = .timeout) :
    exec (.mbxTake tmo k) s = .next { s with out := .done .timeout .none } := by
  simp [exec, execMbxTake, hk, hc, respond_eq]

theorem exec_mbxTake_hold (hk : k.toNat < s.cfg.ncons) (hc : s.mbx.takeCase tmo k = .hold) :
    exec (.mbxTake tmo k) s = .next { s with held := s.held ++ [{ consumer := k, tmo := tmo }], out := .held } := by
  simp [exec, execMbxTake, hk, hc]

theorem exec_mbxTake_noConsumer (hk : ¬ k.toNat < s.cfg.ncons) :
    exec (.mbxTake tmo k) s = .next { s with out := .done .illegalOp .none } :=
  if_neg hk

theorem exec_peek_fresh (hk : k.toNat < s.cfg.ncons) (hf : s.mbx.freshOf k = true) :
    exec (.mbxTake .zero k) s = .next (completeTake k s) :=
  exec_mbxTake_now hk (if_pos hf)

theorem exec_peek_stale (hk : k.toNat < s.cfg.ncons) (hf : s.mbx.freshOf k = false) :
    exec (.mbxTake .zero k) s = .next { s with out := .done .timeout .none } :=
  exec_mbxTake_timeout hk (by rw [takeCase_zero, hf]; rfl)

/-- A take that meets its flag set returns the slot, and a peek right after it finds nothing new (spec/43_mailbox.md R173, R174). -/
theorem take_then_peek (hk : k.toNat < s.cfg.ncons) (hf : s.mbx.full = true) (hfresh : s.mbx.freshOf k = true) (tmo : Timeout) :
    ∃ t, exec (.mbxTake tmo k) s = .next t ∧ t.out = .done .ok (.packet s.mbx.slot) ∧
      exec (.mbxTake .zero k) t = .next { t with out := .done .timeout .none } ∧
      t.mbx.slot = s.mbx.slot ∧ t.mbx.full = true :=
  ⟨completeTake k s, exec_mbxTake_now hk (takeCase_fresh hf hfresh tmo), rfl,
    exec_peek_stale hk (taken_freshOf_same s.mbx k), rfl, hf⟩

/-- A take of a full mailbox answers the slot or `TIMEOUT` and leaves the packet there. -/
theorem exec_mbxTake_full (hk : k.toNat < s.cfg.ncons) (hf : s.mbx.full = true) (tmo : Timeout) :
    ∃ t, exec (.mbxTake tmo k) s = .next t ∧ t.mbx.slot = s.mbx.slot ∧ t.mbx.full = true ∧
      (t.out = .done .ok (.packet s.mbx.slot) ∨ t.out = .done .timeout .none) := by
  rcases takeCase_full hf tmo k with hc | hc
  · exact ⟨_, exec_mbxTake_now hk hc, rfl, hf, .inl rfl⟩
  · exact ⟨_, exec_mbxTake_timeout hk hc, rfl, hf, .inr rfl⟩

/-- What a take can write: the answer alone, its own flag with the answer, or its entry among the held takes. -/
theorem exec_mbxTake_cases {t : State} (he : exec (.mbxTake tmo k) s = .next t) :
    (∃ v, t = { s with out := v }) ∨ t = completeTake k s ∨
      t = { s with held := s.held ++ [{ consumer := k, tmo := tmo }], out := .held } := by
  cases exec_next_cases he with
  | answer v => exact .inl ⟨v, rfl⟩
  | take _ _ h => cases h; exact .inr (.inl rfl)
  | hold _ _ h => cases h; exact .inr (.inr rfl)
  | register _ _ _ h => rcases h with ⟨h, -⟩ | h <;> cases h
  | publish h | read h | reply h => cases h
  | line h => simp at h

end

/-! ## What a take answers -/

/-- The answer to an `MBX_TAKE` (spec/43_mailbox.md R173 to R176, spec/30_encoding.md R111). -/
def takeAnswer (ncons : Nat) (m : Mailbox) (tmo : Timeout) (k : BitVec 4) : PortOut :=
  if k.toNat < ncons then
    match m.takeCase tmo k with
    | .now => .done .ok (.packet m.slot)
    | .timeout => .done .timeout .none
    | .hold => .held
  else .done .illegalOp .none

theorem exec_mbxTake_out (tmo : Timeout) (k : BitVec 4) (s : State) :
    ∃ t, exec (.mbxTake tmo k) s = .next t ∧ t.out = takeAnswer s.cfg.ncons s.mbx tmo k := by
  by_cases hk : k.toNat < s.cfg.ncons
  · rw [takeAnswer, if_pos hk]
    cases hc : s.mbx.takeCase tmo k with
    | now => exact ⟨_, exec_mbxTake_now hk hc, rfl⟩
    | timeout => exact ⟨_, exec_mbxTake_timeout hk hc, rfl⟩
    | hold => exact ⟨_, exec_mbxTake_hold hk hc, rfl⟩
  · rw [takeAnswer, if_neg hk]
    exact ⟨_, exec_mbxTake_noConsumer hk, rfl⟩

/-- Another consumer's take answers the same after the flag of `k` is cleared (spec/43_mailbox.md R180). -/
theorem takeAnswer_taken_other (ncons : Nat) (m : Mailbox) (tmo : Timeout) {k d : BitVec 4} (h : k ≠ d) :
    takeAnswer ncons (m.taken k) tmo d = takeAnswer ncons m tmo d := by
  rw [takeAnswer, takeAnswer, takeCase_congr m _ tmo d (taken_full m k) (taken_freshOf_other m k d h), taken_slot]

/-! ## A held take looked at again -/

section
variable {s : State} {n : Nat} {expired : Bool} {h : HeldTake}

theorem wakeTake_now (hn : s.held[n]? = some h) (hf : s.mbx.full = true) :
    wakeTake n expired s = .next (completeTake h.consumer { s with held := s.held.eraseIdx n }) := by
  simp [wakeTake, hn, wakeCase_eq, hf]

theorem wakeTake_timeout (hn : s.held[n]? = some h) (hf : s.mbx.full = false) (ht : h.tmo ≠ .forever) :
    wakeTake n true s = .next { s with held := s.held.eraseIdx n, out := .done .timeout .none } := by
  simp [wakeTake, hn, wakeCase_eq, hf, ht, respond_eq]

theorem wakeTake_hold (hn : s.held[n]? = some h) (hf : s.mbx.full = false) (ht : h.tmo = .forever ∨ expired = false) :
    wakeTake n expired s = .next s := by
  have hc : ¬ (expired = true ∧ h.tmo ≠ .forever) := by
    rintro ⟨he, hne⟩
    exact ht.elim hne (by simp [he])
  simp [wakeTake, hn, wakeCase_eq, hf, hc]

end

end Sys2Proof.Machine

namespace Sys2Proof.Safety

open Sys2Proof.Machine

/-- Settles O23: a peek's case is its consumer's flag. -/
theorem peekAsksForFreshness : Obligations.PeekAsksForFreshness :=
  fun _ _ hk => ⟨exec_peek_fresh hk, exec_peek_stale hk⟩

/-- Settles O24: `full` decides the case of a waiting take, at issue and when it is looked at again. -/
theorem waitingTakesNeedOnePublish : Obligations.WaitingTakesNeedOnePublish := by
  refine ⟨fun tmo k s ht hk => ⟨fun hf => ?_, fun hf => ?_⟩, fun n expired h rest s hi hn _ => ?_⟩
  · exact exec_mbxTake_now hk (takeCase_waiting_full ht hf)
  · exact exec_mbxTake_hold hk (takeCase_waiting_empty ht hf)
  · rw [step_cons s hi]
    have hn' : ({ s with inbox := rest } : State).held[n]? = some h := hn
    refine ⟨fun hf => wakeTake_now hn' hf, fun hf hb he => ?_, fun hf ht => wakeTake_hold hn' hf ht⟩
    subst he
    exact wakeTake_timeout hn' hf (by simp [hb])

/-- Settles O25: a publish sets the flag its take then clears, and with `full = 1` a take answers the slot or `TIMEOUT`. -/
theorem secondPublishOverwritesTheFirst : Obligations.SecondPublishOverwritesTheFirst := by
  intro s p q k hk
  obtain ⟨a, ha, hca, -⟩ := exec_mbxPublish_next { s with port := { s.port with packet := p } }
  obtain ⟨b, hb, hcb, hslot, hfull, hfresh⟩ := exec_mbxPublish_next { a with port := { a.port with packet := q } }
  have hkb : k.toNat < b.cfg.ncons := by rw [hcb, hca]; exact hk
  refine ⟨a, b, ha, hb, fun tmo => ?_⟩
  obtain ⟨u, hu, hout, hpeek, hus, huf⟩ := take_then_peek hkb hfull (hfresh k hkb) tmo
  rw [hslot] at hout hus
  exact ⟨u, hu, hout, hpeek, hus, huf, fun tmo2 d x hx hf hd => hx ▸ exec_mbxTake_full hd hf tmo2⟩

/-- Settles O26: a take writes the mailbox only at its own flag, which no other consumer's answer depends on. -/
theorem consumersAreIndependent : Obligations.ConsumersAreIndependent := by
  intro tmo k d s t hkd he
  have hsame : t.cfg = s.cfg ∧ (t.mbx = s.mbx ∨ t.mbx = s.mbx.taken k) ∧
      t = { s with mbx := { s.mbx with fresh := t.mbx.fresh }, out := t.out, held := t.held } ∧
      (t.held = s.held ∨ t.held = s.held ++ [{ consumer := k, tmo := tmo }]) := by
    rcases exec_mbxTake_cases he with ⟨v, rfl⟩ | rfl | rfl
    · exact ⟨rfl, .inl rfl, rfl, .inl rfl⟩
    · exact ⟨rfl, .inr rfl, rfl, .inl rfl⟩
    · exact ⟨rfl, .inl rfl, rfl, .inr rfl⟩
  obtain ⟨hcfg, hmbx, hframe, hheld⟩ := hsame
  refine ⟨hframe, hheld, ?_, fun tmo2 => ?_⟩
  · rcases hmbx with hm | hm <;> rw [hm]
    exact taken_freshOf_other s.mbx k d hkd
  · obtain ⟨u, hu, hou⟩ := exec_mbxTake_out tmo2 d s
    obtain ⟨v, hv, hov⟩ := exec_mbxTake_out tmo2 d t
    refine ⟨u, v, hu, hv, ?_⟩
    rw [hou, hov, hcfg]
    rcases hmbx with hm | hm <;> rw [hm]
    exact (takeAnswer_taken_other _ s.mbx tmo2 hkd).symm

/-- Settles O22: the flags a publish leaves are `NCONS` ones. -/
theorem publishReplacesTheSlot : Obligations.PublishReplacesTheSlot := fun s =>
  ⟨rfl, List.replicate s.cfg.ncons true, exec_mbxPublish s, List.length_replicate, fun _ hk =>
    List.getElem?_replicate_of_lt hk⟩

end Sys2Proof.Safety
end

section
/-! PROOFS. The invariant of the whole machine under every step (spec/44_sequencers.md R195, R217, R221; spec/60_exceptions.md
R229). It falls into the mailbox's part, one part for each agent, which speaks of that agent's phase, place and peripheral alone,
and the held takes. Each part is kept by every move; that a step goes on at all rests on the buffers' part. -/

namespace Sys2Proof.Safety

open Sys2Proof.Machine

/-! ## The two agents' parts -/

/-- The Poll Scheduler's part of the invariant: of its phase, its place and its peripheral. -/
structure SchedulerInv (c : Config) (phase : Phase) (pos : PollPos) (p : Peripheral) : Prop where
  lent : p.lent = pollHolds pos
  start : phase ≠ .running → pos = .encode
  sends : ∀ t, pollSends pos = some t → [c.stopSymbol, endSymbol] <:+ t
  capture : phase = .running → p.rxen = true

/-- The Command Responder's part of the invariant: of its phase, its place and its peripheral. -/
structure ResponderInv (c : Config) (phase : Phase) (pos : RespPos) (p : Peripheral) : Prop where
  lent : p.lent = respHolds pos
  start : phase ≠ .running → pos = .receive
  sends : ∀ t, respSends pos = some t → [c.stopSymbol, endSymbol] <:+ t
  reply : ∀ b, respEncodes pos = some b → b.length = 4
  capture : phase = .running → p.rxen = !inWindow pos
  sending : p.tx ≠ [] → pos = .awaitSent

theorem inv_iff {s : State} :
    Inv s ↔ s.cfg.wf ∧ MailboxInv s ∧ SchedulerInv s.cfg s.phaseP s.posP s.perH ∧
      ResponderInv s.cfg s.phaseR s.posR s.perD ∧ HeldInv s := by
  constructor
  · intro h
    exact ⟨h.config, h.mailbox, ⟨h.lending.host, h.phases.poll, h.buffers.poll, h.hostCapture⟩,
      ⟨h.lending.device, h.phases.resp, h.buffers.resp, h.buffers.reply, h.echo.capture, h.echo.sending⟩, h.heldTakes⟩
  · rintro ⟨hc, hm, hp, hr, hh⟩
    exact ⟨hc, hm, ⟨hp.lent, hr.lent⟩, ⟨hp.start, hr.start⟩, ⟨hp.sends, hr.sends, hr.reply⟩, ⟨hr.capture, hr.sending⟩,
      hp.capture, hh⟩

theorem endsInStopEnd_iff {c : Config} {t : List Symbol} : endsInStopEnd c t = true ↔ [c.stopSymbol, endSymbol] <:+ t :=
  decide_eq_true_iff

theorem stopEnd_suffix_encodedBuffer (c : Config) (l : List Byte) : [c.stopSymbol, endSymbol] <:+ encodedBuffer c l :=
  endsInStopEnd_iff.1 (endsInStopEnd_encodedBuffer c l)

/-! ## An agent goes on to its next place -/

section
variable {c : Config} {phase : Phase} {p p' : Peripheral}

/-- A running scheduler goes on to a place at which it sends nothing, its capture running on. -/
theorem SchedulerInv.goesTo {pos : PollPos} (h : SchedulerInv c phase pos p) (hp : phase = .running) {q : PollPos}
    (hl : p'.lent = pollHolds q) (hs : pollSends q = none) (hr : p'.rxen = p.rxen) : SchedulerInv c phase q p' where
  lent := hl
  start := fun hn => absurd hp hn
  sends := fun t ht => by rw [hs] at ht; cases ht
  capture := fun _ => hr.trans (h.capture hp)

/-- A running scheduler goes on to a place at which it holds what it held. -/
theorem SchedulerInv.goesOn {pos : PollPos} (h : SchedulerInv c phase pos p) (hp : phase = .running) {pos' q : PollPos}
    (hpos : pos = pos') (hl : pollHolds pos' = pollHolds q) (hs : pollSends q = none) (hr : p'.rxen = p.rxen)
    (hlent : p'.lent = p.lent) : SchedulerInv c phase q p' :=
  h.goesTo hp (by rw [hlent, h.lent, hpos, hl]) hs hr

/-- Nothing the responder sends is on its way at any place but one. -/
theorem ResponderInv.tx_nil {pos : RespPos} (h : ResponderInv c phase pos p) (hne : pos ≠ .awaitSent) : p.tx = [] :=
  Decidable.byContradiction fun ht => hne (h.sending ht)

/-- A running responder goes on to a place at which it has no buffer to send or to encode. -/
theorem ResponderInv.goesTo (hp : phase = .running) {q : RespPos} (hl : p.lent = respHolds q) (hs : respSends q = none)
    (he : respEncodes q = none) (hr : p.rxen = !inWindow q) (ht : p.tx ≠ [] → q = .awaitSent) :
    ResponderInv c phase q p where
  lent := hl
  start := fun hn => absurd hp hn
  sends := fun t h => by rw [hs] at h; cases h
  reply := fun b h => by rw [he] at h; cases h
  capture := fun _ => hr
  sending := ht

/-- A running responder goes on outside the window, its peripheral untouched, to a place that holds, sends and encodes nothing. -/
theorem ResponderInv.goesOn {pos : RespPos} (h : ResponderInv c phase pos p) (hp : phase = .running) {q : RespPos}
    {pos' : RespPos} (hpos : pos = pos') (hl : respHolds pos' = respHolds q) (hs : respSends q = none) (he : respEncodes q = none)
    (hw : inWindow pos' = inWindow q) (hne : pos' ≠ .awaitSent) : ResponderInv c phase q p :=
  .goesTo hp (by rw [h.lent, hpos, hl]) hs he (by rw [h.capture hp, hpos, hw]) fun ht => absurd (h.tx_nil (hpos ▸ hne)) ht

/-- A running responder has built a reply and goes on to send it. -/
theorem ResponderInv.buildsReply {pos : RespPos} (h : ResponderInv c phase pos p) (hp : phase = .running) (bytes : List Byte)
    (hl : respHolds pos = []) (hw : inWindow pos = false) (hne : pos ≠ .awaitSent) :
    ResponderInv c phase (.stopCapture (encodedBuffer c bytes)) p where
  lent := h.lent.trans hl
  start := fun hn => absurd hp hn
  sends := by rintro t ⟨⟩; exact stopEnd_suffix_encodedBuffer c bytes
  reply := by rintro b ⟨⟩
  capture := fun _ => by rw [h.capture hp, hw]; rfl
  sending := fun ht => absurd (h.tx_nil hne) ht

end

/-! ## What a move leaves of the agents -/

section
variable {s t : State}

/-- A request runs an operation, and no operation touches a place or a peripheral. -/
theorem request_keeps_agents {w : ReqWord} {i : Instr} {ops : Operands} (hd : decode s.cfg (.req w) = .ok i)
    (he : exec i { s with port := ops } = .next t) :
    t.posR = s.posR ∧ t.perH = s.perH ∧ t.perD = s.perD := by
  obtain ⟨hw, -⟩ := encode_of_decodeReq hd
  cases exec_next_cases he with
  | answer | publish | take | hold => exact ⟨rfl, rfl, rfl⟩
  | register r => cases r <;> exact ⟨rfl, rfl, rfl⟩
  | read h | reply h => subst h; simp [encode] at hw
  | line h =>
    simp only [List.mem_cons, List.not_mem_nil, or_false] at h
    rcases h with rfl | rfl | rfl | rfl <;> simp [encode] at hw

theorem move_keeps_schedulerInv {e : Event} (hm : Move e s t) (h : SchedulerInv s.cfg s.phaseP s.posP s.perH) :
    SchedulerInv t.cfg t.phaseP t.posP t.perH := by
  cases hm with
  | request who w ops i s u f hd he =>
    obtain ⟨-, hper, -⟩ := request_keeps_agents hd he
    show SchedulerInv u.cfg u.phaseP u.posP u.perH
    rw [exec_keeps_cfg he, exec_keeps_phaseP he, exec_keeps_posP he, hper]
    exact h
  | startPollOk now s hi =>
    have hpos : s.posP = .encode := h.start (by simp [hi])
    exact ⟨by rw [h.lent, hpos], fun _ => rfl, by rintro t ⟨⟩, fun _ => rfl⟩
  | startPollFails now s hi =>
    exact ⟨h.lent, fun _ => h.start (by simp [hi]), h.sends, by rintro ⟨⟩⟩
  | pollEncode now d s hp hpos =>
    exact ⟨h.lent.trans (by rw [hpos]; rfl), fun hn => absurd hp hn,
      by rintro t ⟨⟩; exact stopEnd_suffix_encodedBuffer s.cfg _, h.capture⟩
  | pollReceive now k cap s hp hpos => exact h.goesTo hp (by rw [h.lent, hpos]; rfl) rfl rfl
  | pollRelease now d cap s hp hpos => exact h.goesTo hp (by rw [h.lent, hpos]; exact List.erase_cons_head cap []) rfl rfl
  | pollParse now d cap s hp hpos syms out w pos hsyms hnext =>
    rcases hnext with rfl | rfl <;> exact h.goesOn hp hpos rfl rfl rfl rfl
  | pollPeriodCheck now d pos s hp hpos hnext =>
    rcases hnext with rfl | rfl <;> exact h.goesOn hp hpos rfl rfl rfl rfl
  | pollTransmit | pollGivesUp | pollGateShort | pollGatePasses | pollReadWord | pollPublish | pollReleaseNone | pollResync
  | pollPeriodWait =>
    exact h.goesOn (by assumption) (by assumption) (by rfl) rfl rfl rfl
  | sent who | activity who | lineIdle who => cases who <;> exact { h with }
  | _ => exact h

theorem move_keeps_responderInv {e : Event} (hm : Move e s t) (h : ResponderInv s.cfg s.phaseR s.posR s.perD) :
    ResponderInv t.cfg t.phaseR t.posR t.perD := by
  cases hm with
  | request who w ops i s u f hd he =>
    obtain ⟨hpos, -, hper⟩ := request_keeps_agents hd he
    show ResponderInv u.cfg u.phaseR u.posR u.perD
    rw [exec_keeps_cfg he, exec_keeps_phaseR he, hpos, hper]
    exact h
  | startRespOk s hi =>
    have hpos : s.posR = .receive := h.start (by simp [hi])
    rw [hpos] at h
    exact .goesTo rfl h.lent rfl rfl rfl h.sending
  | startRespFails s hi =>
    exact { h with start := fun _ => h.start (by simp [hi]), capture := by rintro ⟨⟩ }
  | respReceive k cap s hp hpos =>
    rw [hpos] at h
    exact .goesTo hp (by rw [h.lent]; rfl) rfl rfl (h.capture hp) fun ht => absurd (h.tx_nil (by simp)) ht
  | respRelease d cap cmd pos s hp hpos hnext =>
    rw [hpos] at h
    have hl : s.perD.lent.erase cap = [] := by rw [h.lent]; exact List.erase_cons_head cap []
    have ht : s.perD.tx = [] := h.tx_nil (by simp)
    rcases hnext with rfl | ⟨b, rfl⟩ <;> exact .goesTo hp hl rfl rfl (h.capture hp) (absurd ht)
  | respReply d cmd s hp hpos => rw [hpos] at h; exact h.buildsReply hp _ rfl rfl (by simp)
  | respRead d cmd s hp hpos =>
    rw [hpos] at h
    exact ⟨h.lent, fun hn => absurd hp hn, by rintro t ⟨⟩, by rintro b ⟨⟩; rfl, h.capture,
      fun ht => absurd (h.tx_nil (by simp)) ht⟩
  | respEncode d b s hp hpos => rw [hpos] at h; exact h.buildsReply hp _ rfl rfl (by simp)
  | respParse | respPeekFresh | respPeekStale | respLoad | respNoReply =>
    exact h.goesOn (by assumption) (by assumption) (by rfl) rfl rfl (by rfl) (by simp)
  | respStopCapture d y s hp hpos =>
    rw [hpos] at h
    exact ⟨h.lent, fun hn => absurd hp hn, h.sends, h.reply, fun _ => rfl, fun ht => absurd (h.tx_nil (by simp)) ht⟩
  | respTransmit d y s hp hpos =>
    rw [hpos] at h
    exact .goesTo hp h.lent rfl rfl (h.capture hp) fun _ => rfl
  | respSent d s hp hpos ht => rw [hpos] at h; exact .goesTo hp h.lent rfl rfl (h.capture hp) (absurd ht)
  | respStartCapture d s hp hpos =>
    rw [hpos] at h
    exact .goesTo hp h.lent rfl rfl rfl fun ht => absurd (h.tx_nil (by simp)) ht
  | sent who y ys l f s ht =>
    cases who with
    | host => exact h
    | device => exact { h with sending := fun _ => h.sending (by rw [State.getPer_device] at ht; simp [ht]) }
  | activity who | lineIdle who => cases who <;> exact { h with }
  | _ => exact h

/-- A take is held for a consumer that is there, and waits. -/
theorem exec_keeps_heldInv {i : Instr} (he : exec i s = .next t) (h : HeldInv s) : HeldInv t := by
  cases exec_next_cases he with
  | answer | publish | take | read | reply => exact h
  | register r => cases r <;> exact h
  | hold tmo k hi ht hk =>
    intro g hg
    rcases List.mem_append.1 hg with hg | hg
    · exact h g hg
    · rw [List.mem_singleton.1 hg]; exact ⟨hk, ht⟩
  | line => cases hsel : s.txSel <;> exact h

theorem move_keeps_heldInv {e : Event} (hm : Move e s t) (h : HeldInv s) : HeldInv t := by
  cases hm with
  | request who w ops i s u f hd he =>
    have hu : HeldInv u := exec_keeps_heldInv he h
    exact hu
  | woken n b g | expired n b => exact fun g hg => h g (List.mem_of_mem_eraseIdx hg)
  | sent who | activity who | lineIdle who => cases who <;> exact h
  | _ => exact h

/-- Every move keeps the invariant, part by part. -/
theorem move_keeps_inv {e : Event} (hm : Move e s t) (h : Inv s) : Inv t := by
  obtain ⟨hc, hmbx, hp, hr, hh⟩ := inv_iff.1 h
  have hcfg : t.cfg = s.cfg := move_keeps_cfg hm
  exact inv_iff.2 ⟨hcfg ▸ hc, hmbx.write (move_mailbox hm) hcfg, move_keeps_schedulerInv hm hp, move_keeps_responderInv hm hr,
    move_keeps_heldInv hm hh⟩

theorem Inv.withInbox (h : Inv s) (l : List Event) : Inv { s with inbox := l } := by
  obtain ⟨hc, hmbx, hp, hr, hh⟩ := inv_iff.1 h
  exact inv_iff.2 ⟨hc, hmbx.congr rfl rfl, hp, hr, hh⟩

/-! ## Every event goes on -/

/-- The Poll Scheduler stops only at the transmit of a buffer without STOP, END. -/
theorem pollTick_goes (now : Nat) (d : RecvDraw) (h : ∀ y, pollSends s.posP = some y → [s.cfg.stopSymbol, endSymbol] <:+ y) :
    ∃ t, pollTick now d s = .next t := by
  unfold pollTick
  split
  · cases hpos : s.posP with
    | encode => rw [pollStep_encode now d hpos]; exact ⟨_, pollEncode_eq s⟩
    | transmit y =>
      rw [pollStep_transmit now d hpos]
      exact ⟨_, pollTransmit_eq s y (endsInStopEnd_iff.2 (h y (by rw [hpos]; rfl)))⟩
    | parse cap =>
      obtain ⟨_, _, _, _, e, -⟩ := pollParse_cases s cap
      rw [pollStep_parse now d hpos]
      exact ⟨_, e⟩
    | receive => exact ⟨_, pollStep_receive now d hpos⟩
    | gate => exact ⟨_, pollStep_gate now d hpos⟩
    | readWord => exact ⟨_, pollStep_readWord now d hpos⟩
    | publish => exact ⟨_, pollStep_publish now d hpos⟩
    | release => exact ⟨_, pollStep_release now d hpos⟩
    | periodCheck => exact ⟨_, pollStep_periodCheck now d hpos⟩
    | resync => exact ⟨_, pollStep_resync now d hpos⟩
    | periodWait => exact ⟨_, pollStep_periodWait now d hpos⟩
  · exact ⟨s, rfl⟩

/-- An operation an agent issues goes on, since every instruction does. -/
theorem andThen_exec_goes (i : Instr) (u : State) {k : PortOut → State → Result} (hk : ∀ o v, ∃ t, k o v = .next t) :
    ∃ t, andThen (exec i u) k = .next t := by
  obtain ⟨v, hv, -⟩ := exec_effect i u
  rw [hv]
  exact hk v.out v

/-- The Command Responder stops only at the transmit of a buffer without STOP, END and at the encoding of too many bytes. -/
theorem respTick_goes (d : RecvDraw) (h : ResponderInv s.cfg s.phaseR s.posR s.perD) : ∃ t, respTick d s = .next t := by
  unfold respTick
  split
  · cases hpos : s.posR with
    | parse cap =>
      rw [respStep_parse d hpos]
      exact andThen_exec_goes _ _ fun o v => by split <;> exact ⟨_, rfl⟩
    | peek cmd =>
      rw [respStep_peek d hpos]
      exact andThen_exec_goes _ _ fun o v => by split <;> exact ⟨_, rfl⟩
    | dispatch cmd =>
      rw [respStep_dispatch d hpos]
      rcases respDispatch_cases s cmd with e | e | e <;> exact ⟨_, e⟩
    | encode b =>
      rw [respStep_encode d hpos]
      exact ⟨_, encodePollReply_eq s b (h.reply b (by rw [hpos]; rfl)).le⟩
    | transmit y =>
      rw [respStep_transmit d hpos]
      exact ⟨_, respTransmit_eq s y (endsInStopEnd_iff.2 (h.sends y (by rw [hpos]; rfl)))⟩
    | receive => exact ⟨_, respStep_receive d hpos⟩
    | release => exact ⟨_, respStep_release d hpos⟩
    | load => exact ⟨_, respStep_load d hpos⟩
    | stopCapture => exact ⟨_, respStep_stopCapture d hpos⟩
    | awaitSent => exact ⟨_, respStep_awaitSent d hpos⟩
    | startCapture => exact ⟨_, respStep_startCapture d hpos⟩
  · exact ⟨s, rfl⟩

theorem handle_goes (e : Event) (h : Inv s) : ∃ t, handle e s = .next t := by
  obtain ⟨-, -, hp, hr, -⟩ := inv_iff.1 h
  cases e with
  | request who w ops =>
    rcases handleRequest_cases s who w ops with ⟨i, t, -, -, e⟩ | ⟨-, e⟩ <;> exact ⟨_, e⟩
  | wake n expired =>
    rcases wakeTake_cases s n expired with e | ⟨g, -, -, e⟩ | ⟨-, e⟩ <;> exact ⟨_, e⟩
  | txTick who =>
    rcases handleTx_cases s who with ⟨-, e⟩ | ⟨_, _, _, _, -, e⟩ <;> exact ⟨_, e⟩
  | pollTick now d => exact pollTick_goes now d hp.sends
  | respTick d => exact respTick_goes d hr
  | startPoll | startResp | activity | lineIdle => exact ⟨_, rfl⟩

theorem Inv.goes (h : Inv s) : Goes s := by
  cases hi : s.inbox with
  | nil => exact ⟨s, step_nil s hi⟩
  | cons e rest => unfold Goes; rw [step_cons s hi]; exact handle_goes e (h.withInbox rest)

end

/-- Settles O58: the next state is a move's, and every move keeps the invariant. -/
theorem everyStepGoesOnAndKeepsTheInvariant : Obligations.EveryStepGoesOnAndKeepsTheInvariant := by
  intro s h
  obtain ⟨t, ht⟩ := h.goes
  exact ⟨t, ht, step_keeps (fun _ l h => h.withInbox l) (fun _ _ _ => move_keeps_inv) ht h⟩

end Sys2Proof.Safety
end

section
/-! PROOFS. The turns of the two agents (spec/44_sequencers.md sections 2 and 3): what a turn at each place of a cycle comes to, and
the statements about one or a few turns, each put together from them. -/

namespace Sys2Proof.Machine

/-! ## Runs put together -/

theorem run_add {k n : Nat} {s t : State} (h : Host.Core.run Sys2Proof.core k s = .next t) :
    Host.Core.run Sys2Proof.core (k + n) s = Host.Core.run Sys2Proof.core n t := by
  induction k generalizing s with
  | zero => cases h; rw [Nat.zero_add]
  | succ k ih =>
    rw [Nat.succ_add]
    cases hs : step s with
    | next u => rw [run_succ k hs] at h; rw [run_succ _ hs, ih h]
    | fault r | refused r =>
      have hs' : Sys2Proof.core.step s = _ := hs
      simp [Host.Core.run, hs'] at h

section
variable {s : State} {rest : List Event} {now : Nat} {d : RecvDraw} {cap y : List Symbol} {got : Option (List Symbol)}
  {w : Word} {b cmd : Byte} {l : List Byte}

/-! ## The Poll Scheduler's turns -/

section
variable (hi : s.inbox = .pollTick now d :: rest) (hp : s.phaseP = .running)
include hi hp

theorem step_pollEncode (hpos : s.posP = .encode) :
    step s = .next { s with inbox := rest, port := { s.port with bytes := [cmdPoll], cap := 10 },
                            out := .done .ok (.symbols (encodedBuffer s.cfg [cmdPoll])),
                            posP := .transmit (encodedBuffer s.cfg [cmdPoll]) } :=
  (step_pollTick hi hp).trans <| .trans (pollStep_encode now d hpos) (pollEncode_eq _)

theorem step_pollTransmit (hpos : s.posP = .transmit y) (hy : endsInStopEnd s.cfg y = true) :
    step s = .next { s with inbox := rest, perH := { s.perH with tx := s.perH.tx ++ y }, posP := .receive } :=
  (step_pollTick hi hp).trans <| .trans (pollStep_transmit now d hpos) (pollTransmit_eq _ y hy)

theorem step_pollReceive (hpos : s.posP = .receive) : step s = .next (pollReceive d { s with inbox := rest }) :=
  (step_pollTick hi hp).trans (pollStep_receive now d hpos)

theorem step_pollGate_short (hpos : s.posP = .gate got) (hc : ∀ c, got = some c → c.length < s.cfg.pollMin) :
    step s = .next { s with inbox := rest, conn := false, posP := .release got } := by
  refine (step_pollTick hi hp).trans <| .trans (pollStep_gate now d hpos) (congrArg _ ?_)
  cases got with
  | none => rfl
  | some c => exact if_pos (hc c rfl)

theorem step_pollGate_passes (hpos : s.posP = .gate (some cap)) (hc : s.cfg.pollMin ≤ cap.length) :
    step s = .next { s with inbox := rest, conn := true, posP := .parse cap } :=
  (step_pollTick hi hp).trans <| .trans (pollStep_gate now d hpos) (congrArg _ (if_neg (Nat.not_lt.2 hc)))

/-- The parse of a long enough capture: `CS[0]` takes the word behind the nine skipped symbols, and a publish follows where it
differs (spec/44_sequencers.md R204). -/
theorem step_pollParse (hpos : s.posP = .parse cap) (hg : s.cfg.pollMin ≤ cap.length) (h41 : 41 ≤ cap.length) :
    step s = .next { s with inbox := rest, port := { s.port with syms := cap.drop 9 }, cs0 := wordAt s.cfg cap 9,
                            out := .done (changeStatus s.cs0 (wordAt s.cfg cap 9)) .none,
                            posP := if wordAt s.cfg cap 9 = s.cs0 then .release (some cap) else .readWord cap } := by
  have h32 : 32 ≤ (cap.drop 9).length := by rw [List.length_drop]; omega
  rw [step_pollTick hi hp, pollStep_parse (s := { s with inbox := rest }) now d hpos, pollParse,
    parsePoll_long { s with inbox := rest } .cs0 cap hg, execParseState_long _ _ h32, andThen_next]
  simp only [wordAt_drop, changeStatus, State.getCs_cs0]
  by_cases hw : wordAt s.cfg cap 9 = s.cs0 <;> simp [hw]

theorem step_pollReadWord (hpos : s.posP = .readWord cap) :
    step s = .next { s with inbox := rest, out := .done .ok (.word s.cs0), posP := .publish cap s.cs0 } :=
  (step_pollTick hi hp).trans <| .trans (pollStep_readWord now d hpos) (pollReadWord_eq _ cap)

theorem step_pollPublish (hpos : s.posP = .publish cap w) :
    step s = .next { s with inbox := rest, port := { s.port with packet := { state := w, ts := now % 2 ^ s.cfg.tsW } },
                            mbx := { slot := { state := w, ts := now % 2 ^ s.cfg.tsW }, full := true,
                                     fresh := List.replicate s.cfg.ncons true },
                            out := .done .ok .none, posP := .release (some cap) } :=
  (step_pollTick hi hp).trans <| .trans (pollStep_publish now d hpos) (pollPublish_eq _ now cap w)

theorem step_pollPeriodCheck (hpos : s.posP = .periodCheck) :
    step s = .next { s with inbox := rest, posP := if s.cfg.period < elapsed (timestamp s.cfg now) s.anchor then .resync
                                                   else .periodWait } := by
  rw [step_pollTick hi hp, pollStep_periodCheck (s := { s with inbox := rest }) now d hpos, pollPeriodCheck]
  split <;> rfl

theorem step_pollResync (hpos : s.posP = .resync) :
    step s = .next { s with inbox := rest, anchor := timestamp s.cfg now, posP := .periodWait } :=
  (step_pollTick hi hp).trans (pollStep_resync now d hpos)

theorem step_pollPeriodWait_over (hpos : s.posP = .periodWait) (hn : deadline s.cfg s.anchor ≤ timestamp s.cfg now) :
    step s = .next { s with inbox := rest, anchor := deadline s.cfg s.anchor, posP := .encode } :=
  (step_pollTick hi hp).trans <| .trans (pollStep_periodWait now d hpos) (congrArg _ (if_pos hn))

theorem step_pollPeriodWait_holds (hpos : s.posP = .periodWait) (hn : timestamp s.cfg now < deadline s.cfg s.anchor) :
    step s = .next { s with inbox := rest } :=
  (step_pollTick hi hp).trans <| .trans (pollStep_periodWait now d hpos) (congrArg _ (if_neg (Nat.not_le.2 hn)))

end

/-! ## The Command Responder's turns -/

section
variable (hi : s.inbox = .respTick d :: rest) (hp : s.phaseR = .running)
include hi hp

theorem step_respReceive (hpos : s.posR = .receive) : step s = .next (respReceive d { s with inbox := rest }) :=
  (step_respTick hi hp).trans (respStep_receive d hpos)

theorem step_respParse_short (hpos : s.posR = .parse cap) (hc : cap.length < 8) :
    step s = .next { s with inbox := rest, port := { s.port with syms := cap }, out := .done .malformed .none,
                            posR := .release cap none } :=
  (step_respTick hi hp).trans <| .trans (respStep_parse d hpos) (respParse_short _ cap hc)

theorem step_respParse_long (hpos : s.posR = .parse cap) (hc : 8 ≤ cap.length) :
    step s = .next { s with inbox := rest, port := { s.port with syms := cap },
                            out := .done .ok (.byte (byteAt s.cfg cap 0)), posR := .release cap (some (byteAt s.cfg cap 0)) } :=
  (step_respTick hi hp).trans <| .trans (respStep_parse d hpos) (respParse_long _ cap hc)

theorem step_respRelease_none (hpos : s.posR = .release cap none) :
    step s = .next { s with inbox := rest, perD := { s.perD with lent := s.perD.lent.erase cap }, posR := .receive } :=
  (step_respTick hi hp).trans <| .trans (respStep_release d hpos) rfl

theorem step_respRelease_some (hpos : s.posR = .release cap (some b)) :
    step s = .next { s with inbox := rest, perD := { s.perD with lent := s.perD.lent.erase cap }, posR := .peek b } :=
  (step_respTick hi hp).trans <| .trans (respStep_release d hpos) rfl

theorem step_respPeek_fresh (hpos : s.posR = .peek cmd) (hn : 0 < s.cfg.ncons) (hf : s.mbx.freshOf 0 = true) :
    step s = .next { s with inbox := rest, mbx := s.mbx.taken 0, out := .done .ok (.packet s.mbx.slot),
                            posR := .load cmd s.mbx.slot.state } :=
  (step_respTick hi hp).trans <| .trans (respStep_peek d hpos) (respPeek_fresh _ cmd hn hf)

theorem step_respPeek_stale (hpos : s.posR = .peek cmd) (hn : 0 < s.cfg.ncons) (hf : s.mbx.freshOf 0 = false) :
    step s = .next { s with inbox := rest, out := .done .timeout .none, posR := .dispatch cmd } :=
  (step_respTick hi hp).trans <| .trans (respStep_peek d hpos) (respPeek_stale _ cmd hn hf)

theorem step_respLoad (hpos : s.posR = .load cmd w) :
    step s = .next { s with inbox := rest, port := { s.port with word := w }, cs1 := w, out := .done .ok .none,
                            posR := .dispatch cmd } :=
  (step_respTick hi hp).trans <| .trans (respStep_load d hpos) (respLoad_eq _ cmd w)

theorem step_respDispatch_poll (hpos : s.posR = .dispatch 0x01) :
    step s = .next { s with inbox := rest, out := .done .ok (.bytes (wordBytes s.cs1)), posR := .encode (wordBytes s.cs1) } :=
  (step_respTick hi hp).trans <| .trans (respStep_dispatch d hpos) (execPoll_eq _)

theorem step_respDispatch_other (hpos : s.posR = .dispatch cmd) (h0 : cmd ≠ 0x00) (h1 : cmd ≠ 0x01) :
    step s = .next { s with inbox := rest, posR := .receive } :=
  (step_respTick hi hp).trans <| .trans (respStep_dispatch d hpos) (respDispatch_other _ cmd h0 h1)

theorem step_respEncode (hpos : s.posR = .encode l) (hb : l.length ≤ 4) :
    step s = .next { s with inbox := rest, port := { s.port with bytes := l, cap := 34 },
                            out := .done .ok (.symbols (encodedBuffer s.cfg l)), posR := .stopCapture (encodedBuffer s.cfg l) } :=
  (step_respTick hi hp).trans <| .trans (respStep_encode d hpos) (encodePollReply_eq _ l hb)

theorem step_respStopCapture (hpos : s.posR = .stopCapture y) :
    step s = .next { s with inbox := rest, perD := { s.perD with rxen := false }, posR := .transmit y } :=
  (step_respTick hi hp).trans (respStep_stopCapture d hpos)

theorem step_respTransmit (hpos : s.posR = .transmit y) (hy : endsInStopEnd s.cfg y = true) :
    step s = .next { s with inbox := rest, perD := { s.perD with tx := s.perD.tx ++ y }, posR := .awaitSent } :=
  (step_respTick hi hp).trans <| .trans (respStep_transmit d hpos) (respTransmit_eq _ y hy)

theorem step_respAwaitSent (hpos : s.posR = .awaitSent) (ht : s.perD.tx = []) :
    step s = .next { s with inbox := rest, posR := .startCapture } :=
  (step_respTick hi hp).trans <| .trans (respStep_awaitSent d hpos) (congrArg _ (if_pos ht))

theorem step_respStartCapture (hpos : s.posR = .startCapture) :
    step s = .next { s with inbox := rest, perD := { s.perD with rxen := true }, posR := .receive } :=
  (step_respTick hi hp).trans (respStep_startCapture d hpos)

end

/-! ## Two turns of the responder -/

/-- The refresh of `CS[1]` from a fresh packet (spec/44_sequencers.md R212). -/
theorem run_refresh {e : RecvDraw} (hi : s.inbox = .respTick d :: .respTick e :: rest) (hp : s.phaseR = .running)
    (hpos : s.posR = .peek cmd) (hn : 0 < s.cfg.ncons) (hf : s.mbx.freshOf 0 = true) :
    Host.Core.run Sys2Proof.core 2 s =
      .next { s with inbox := rest, mbx := s.mbx.taken 0, port := { s.port with word := s.mbx.slot.state },
                     cs1 := s.mbx.slot.state, out := .done .ok .none, posR := .dispatch cmd } :=
  (run_succ 1 (step_respPeek_fresh hi hp hpos hn hf)).trans (run_one (step_respLoad rfl hp rfl))

/-- The reading and the encoding of a `POLL` reply (spec/44_sequencers.md R215). -/
theorem run_pollReply {e : RecvDraw} (hi : s.inbox = .respTick d :: .respTick e :: rest) (hp : s.phaseR = .running)
    (hpos : s.posR = .dispatch 0x01) :
    Host.Core.run Sys2Proof.core 2 s =
      .next { s with inbox := rest, port := { s.port with bytes := wordBytes s.cs1, cap := 34 },
                     out := .done .ok (.symbols (encodedBuffer s.cfg (wordBytes s.cs1))),
                     posR := .stopCapture (encodedBuffer s.cfg (wordBytes s.cs1)) } :=
  (run_succ 1 (step_respDispatch_poll hi hp hpos)).trans (run_one (step_respEncode rfl hp rfl le_rfl))

end

/-! ## A receive's draws (spec/44_sequencers.md R194) -/

theorem receive_pending {p : Peripheral} {k : Nat} {cap : List Symbol} (tmo : Timeout) (h : p.pending[k]? = some cap) :
    p.receive tmo (.capture k) = .got cap { p with pending := p.pending.eraseIdx k, lent := p.lent ++ [cap] } := by
  simp [Peripheral.receive, h]

theorem receive_not_pending {p : Peripheral} {k : Nat} (tmo : Timeout) (h : p.pending[k]? = none) :
    p.receive tmo (.capture k) = noCapture tmo false := by
  simp [Peripheral.receive, h]

theorem receive_forever_hold {p : Peripheral} {d : RecvDraw} (h : ∀ k cap, d = .capture k → p.pending[k]? ≠ some cap) :
    p.receive .forever d = .hold := by
  rcases receive_cases p .forever d with ⟨k, cap, hd, hk, -⟩ | ⟨-, hne⟩ | e
  · exact absurd hk (h k cap hd)
  · exact absurd rfl hne
  · exact e

end Sys2Proof.Machine

namespace Sys2Proof.Safety

open Sys2Proof.Machine

/-- The four bytes of a word are sent as its bits, bit 31 first (spec/30_encoding.md R96). -/
theorem frame_wordBytes (c : Config) (w : Word) : Frame c 32 (fun i => w.getLsbD (31 - i)) (encodedBuffer c (wordBytes w)) :=
  (frame_encodedBuffer c (wordBytes w)).congr (wordBytes_bit w)

theorem frame_cmdPoll (c : Config) : Frame c 8 (fun i => decide (i = 7)) (encodedBuffer c [cmdPoll]) :=
  (frame_encodedBuffer c [cmdPoll]).congr (by decide)

/-- Settles O30: 26 symbols suffice for the three bytes. -/
theorem statusBuildsTheIdentificationReply : Obligations.StatusBuildsTheIdentificationReply := fun s =>
  ⟨rfl, _, execStatus_eq s, frame_encodedBuffer s.cfg (idBytes s.cfg)⟩

/-- Settles O31: the bytes read are four, so 34 symbols suffice, and they are the word's bits. -/
theorem pollBuildsTheStateReply : Obligations.PollBuildsTheStateReply := fun s =>
  ⟨rfl, wordBytes s.cs1, rfl, execPoll_eq s, fun u _ _ hp hpos hi =>
    ⟨_, step_respEncode hi hp hpos le_rfl, frame_wordBytes u.cfg s.cs1⟩⟩

/-- Settles O36: the encoded command ends in STOP, END, so the second turn queues it. -/
theorem pollCommandIsTransmitted : Obligations.PollCommandIsTransmitted := by
  intro s n m d e rest hp hpos hi
  refine ⟨_, encodedBuffer s.cfg [cmdPoll], (run_succ 1 (step_pollEncode hi hp hpos)).trans
    (run_one (step_pollTransmit rfl hp rfl (endsInStopEnd_encodedBuffer _ _))), rfl, rfl, frame_cmdPoll s.cfg, ?_⟩
  exact ⟨rfl, rfl, rfl, rfl, rfl, rfl⟩

/-- Settles O37: the gate's two ways. -/
theorem gateSetsTheIndicator : Obligations.GateSetsTheIndicator := by
  intro s cap now draw rest hp hpos hi
  refine ⟨step_pollGate_short hi hp hpos, fun c hc => ?_⟩
  subst hc
  exact step_pollGate_passes hi hp hpos

/-- Settles O38: the capture's word is `w`, and the parse leads to the publish exactly where it differs from `CS[0]`. -/
theorem pollCyclePublishesExactlyOnChange : Obligations.PollCyclePublishesExactlyOnChange := by
  rintro s cap w ⟨-, -, h41, -⟩ hp hpos hg hw
  have h41' : 41 ≤ cap.length := h41.trans hg
  have hword : w = wordAt s.cfg cap 9 := eq_wordAt s.cfg cap 9 w h41' hw
  subst hword
  refine ⟨fun n1 n2 d1 d2 rest heq hi => ?_, fun n1 n2 n3 n4 d1 d2 d3 d4 rest hne hi => ?_⟩
  · exact ⟨_, (run_succ 1 (step_pollGate_passes hi hp hpos hg)).trans (run_one (step_pollParse rfl hp rfl hg h41')),
      rfl, rfl, rfl, rfl, if_pos heq, rfl⟩
  · refine ⟨_, .trans (run_succ 3 (step_pollGate_passes hi hp hpos hg)) <|
      .trans (run_succ 2 (step_pollParse rfl hp rfl hg h41')) <|
      .trans (run_succ 1 (step_pollReadWord rfl hp (if_neg hne))) (run_one (step_pollPublish rfl hp rfl)), ?_⟩
    exact ⟨rfl, rfl, rfl, rfl, rfl, rfl⟩

/-- Settles O39: the value the wait compares with is `deadline`. -/
theorem periodWaitKeepsTheAnchor : Obligations.PeriodWaitKeepsTheAnchor := by
  refine fun r hp => ⟨deadline r.cfg r.anchor, deadline_lt _ _, deadline_of_fits _, ?_⟩
  rintro now n draw rest s rfl rfl
  refine ⟨fun hpos hle => ?_, fun hpos _ => ?_, step_pollResync rfl hp, step_pollPeriodWait_over rfl hp,
    step_pollPeriodWait_holds rfl hp⟩
  · have h := step_pollPeriodCheck (s := { r with inbox := .pollTick now draw :: rest }) rfl hp hpos
    rwa [timestamp, elapsed_of_le hle] at h
  · have h := step_pollPeriodCheck (s := { r with inbox := .pollTick now draw :: rest }) rfl hp hpos
    split at h
    · exact .inl h
    · exact .inr h

/-- Settles O40: draw by draw for the scheduler; for the responder every draw of no pending capture holds. -/
theorem receiveLendsGivesUpOrHolds : Obligations.ReceiveLendsGivesUpOrHolds := by
  refine ⟨fun s now rest hp hpos => ⟨fun k cap hi hk => ?_, fun hi => step_pollReceive hi hp hpos,
    fun hi => step_pollReceive hi hp hpos, fun k hi hk => ?_⟩, fun s rest hp hpos => ⟨fun k cap hi hk => ?_, fun d hd hi => ?_⟩⟩
  · rw [step_pollReceive hi hp hpos, pollReceive, receive_pending .bounded hk]
  · rw [step_pollReceive hi hp hpos, pollReceive, receive_not_pending .bounded hk]; rfl
  · rw [step_respReceive hi hp hpos, respReceive, receive_pending .forever hk]
  · rw [step_respReceive hi hp hpos, respReceive, receive_forever_hold hd]

/-- Settles O41: the two sides of the parse's length test. -/
theorem responderParsesAndReleases : Obligations.ResponderParsesAndReleases := by
  intro s cap d e rest hp hpos hi
  by_cases hc : cap.length < 8
  · exact ⟨_, (run_succ 1 (step_respParse_short hi hp hpos hc)).trans (run_one (step_respRelease_none rfl hp rfl)),
      rfl, rfl, rfl, rfl, rfl, fun _ => rfl, fun h => absurd hc (Nat.not_lt.2 h)⟩
  · have h8 : 8 ≤ cap.length := Nat.not_lt.1 hc
    exact ⟨_, (run_succ 1 (step_respParse_long hi hp hpos h8)).trans (run_one (step_respRelease_some rfl hp rfl)),
      rfl, rfl, rfl, rfl, rfl, fun h => absurd h hc, fun _ => ⟨_, rfl, byteAt_bitAt s.cfg cap h8⟩⟩

/-- Settles O42: the peek's two ways, the first with the load. -/
theorem refreshLoadsTheFreshPacket : Obligations.RefreshLoadsTheFreshPacket := fun _ _ _ _ _ hn hp hpos =>
  ⟨fun hf hi => ⟨_, run_refresh hi hp hpos hn hf, rfl, rfl, rfl, rfl, rfl, rfl⟩, fun hf hi => step_respPeek_stale hi hp hpos hn hf⟩

/-- Settles O43: with or without the refresh before it, the reply carries what `CS[1]` holds at the dispatch. -/
theorem pollIsAnsweredWithThePublishedState : Obligations.PollIsAnsweredWithThePublishedState := by
  refine fun s rest hn hp hpos => ⟨fun d1 d2 d3 d4 hf hi => ?_, fun d1 d2 d3 hf hi => ?_⟩
  · exact ⟨_, _, (run_add (n := 2) (run_refresh hi hp hpos hn hf)).trans (run_pollReply rfl hp rfl), rfl, rfl,
      frame_wordBytes s.cfg s.mbx.slot.state⟩
  · exact ⟨_, _, (run_succ 2 (step_respPeek_stale hi hp hpos hn hf)).trans (run_pollReply rfl hp rfl), rfl, rfl,
      frame_wordBytes s.cfg s.cs1⟩

/-- Settles O46: of an agent's moves only the scheduler's publish and the responder's peek touch anything shared. -/
theorem agentsKeepToTheirOwnState : Obligations.AgentsKeepToTheirOwnState := by
  refine fun s t hs => ⟨fun now draw rest hi => ?_, fun draw rest hi => ?_⟩ <;>
    obtain ⟨h0, -⟩ | ⟨e, rest', hi', hm⟩ := step_next_move hs
  · exact absurd (hi.symm.trans h0) (List.cons_ne_nil _ _)
  · cases hi.symm.trans hi'
    cases hm with
    | pollPublish now d cap w s' hp hpos => exact ⟨rfl, rfl, rfl, rfl, rfl, .inr ⟨cap, w, hpos⟩⟩
    | _ => exact ⟨rfl, rfl, rfl, rfl, rfl, .inl rfl⟩
  · exact absurd (hi.symm.trans h0) (List.cons_ne_nil _ _)
  · cases hi.symm.trans hi'
    cases hm <;> exact ⟨rfl, rfl, rfl, rfl, rfl, rfl, rfl, rfl, rfl⟩

/-- Settles O32: the dispatch of any other byte. -/
theorem unrecognizedCommandGetsNoReply : Obligations.UnrecognizedCommandGetsNoReply :=
  fun _ _ _ _ hp hpos hi h0 h1 => step_respDispatch_other hi hp hpos h0 h1

/-- Settles O35: `INIT` is left by a start alone, and a turn acts in `RUNNING` alone. -/
theorem startingAnAgent : Obligations.StartingAnAgent := by
  intro s now rest
  refine ⟨fun hi h => ?_, fun hi h => ?_, fun hi h => ?_, fun hi h => ?_, fun draw => ⟨fun hi h => ?_, fun hi h => ?_⟩⟩ <;>
    rw [step_cons s hi]
  · exact congrArg _ (if_pos h)
  · exact congrArg _ (if_pos h)
  · exact congrArg _ (if_pos h)
  · exact congrArg _ (if_pos h)
  · exact if_neg (by rw [h]; simp)
  · exact if_neg (by rw [h]; simp)

end Sys2Proof.Safety
end

section
/-! PROOFS. The line of a peripheral (spec/44_sequencers.md R191 to R194): a transmitter that sends up to END, activity and its
end, and the self-echo suppression window (R217), in which the echo of a reply makes no difference. -/

namespace Sys2Proof.Machine

section
variable {s : State} {rest : List Event} {who : Role}

/-! ## Activity and its end -/

theorem State.setPer_getPer (s : State) (who : Role) : s.setPer who (s.getPer who) = s := by
  cases who <;> rfl

theorem step_activity {y : List Symbol} (hi : s.inbox = .activity who y :: rest) :
    step s = .next { s.setPer who ((s.getPer who).activity (y.map (cutSymbol s.cfg))) with inbox := rest } := by
  rw [step_cons s hi]
  cases who <;> rfl

theorem step_lineIdle (hi : s.inbox = .lineIdle who :: rest) :
    step s = .next { s.setPer who (s.getPer who).lineIdle with inbox := rest } := by
  rw [step_cons s hi]
  cases who <;> rfl

/-! ## Sending up to END -/

/-- The state once a transmitter has sent `front` and END, with `back` still to be sent. -/
def State.sentFrame (s : State) (who : Role) (front back : List Symbol) (rest : List Event) : State :=
  { s.setPer who { s.getPer who with
      tx := back, line := [], sent := (s.getPer who).sent ++ [(s.getPer who).line ++ front] } with
    txSel := who, inbox := rest }

/-- One turn per symbol of `front` and one for END (spec/44_sequencers.md R191; spec/30_encoding.md R90). -/
theorem run_sends_frame {front back : List Symbol} (hwf : s.cfg.wf) (hne : ∀ y ∈ front, y ≠ endSymbol)
    (ht : (s.getPer who).tx = front ++ endSymbol :: back)
    (hi : s.inbox = List.replicate (front.length + 1) (.txTick who) ++ rest) :
    Host.Core.run Sys2Proof.core (front.length + 1) s = .next (s.sentFrame who front back rest) := by
  induction front generalizing s with
  | nil =>
    rw [State.sentFrame, List.append_nil]
    exact run_one (step_txTick_end hi ht hwf)
  | cons y front ih =>
    obtain ⟨hy, hfront⟩ := List.forall_mem_cons.1 hne
    refine (run_succ _ (step_txTick_symbol hi ht hy hwf)).trans ((ih ?_ hfront ?_ rfl).trans ?_)
    · cases who <;> exact hwf
    · cases who <;> rfl
    · cases who <;> simp [State.sentFrame]

/-! ## The echo of what is sent -/

/-- A transmitter's turn writes its peripheral, whose `RXEN` stays, and notes it: the same whatever happens afterwards. -/
theorem step_txTick_form (s : State) (who : Role) :
    ∃ p sel, p.rxen = (s.getPer who).rxen ∧ ∀ l, step { s with inbox := .txTick who :: l } =
      .next { s.setPer who p with txSel := sel, inbox := l } := by
  have hstep : ∀ l, step { s with inbox := .txTick who :: l } = handleTx who { s with inbox := l } := fun _ => rfl
  have hper : ∀ l, State.getPer { s with inbox := l } who = s.getPer who := fun _ => by cases who <;> rfl
  cases ht : (s.getPer who).tx with
  | nil =>
    refine ⟨s.getPer who, s.txSel, rfl, fun l => ?_⟩
    rw [hstep, handleTx_idle _ who ((congrArg _ (hper l)).trans ht), State.setPer_getPer]
  | cons y ys =>
    by_cases hend : decodeSym s.cfg y = .ok .symEnd
    · refine ⟨{ s.getPer who with tx := ys, line := [], sent := (s.getPer who).sent ++ [(s.getPer who).line] }, who, rfl,
        fun l => ?_⟩
      rw [hstep, handleTx_symbol _ who ((congrArg _ (hper l)).trans ht), if_pos hend, emitEnd_popSymbol, hper]
      cases who <;> rfl
    · refine ⟨{ s.getPer who with tx := ys, line := (s.getPer who).line ++ [y] }, who, rfl, fun l => ?_⟩
      rw [hstep, handleTx_symbol _ who ((congrArg _ (hper l)).trans ht), if_neg hend, emit_popSymbol, hper]
      cases who <;> rfl

end

/-- The turns of a transmitter that sends some symbols, the echo of each appearing on its line. -/
def echoed (who : Role) (echo : Symbol → List Symbol) (syms : List Symbol) : List Event :=
  syms.flatMap fun y => [.txTick who, .activity who (echo y)]

/-- While `RXEN = 0` the echoes make no difference (spec/44_sequencers.md R193). -/
theorem run_echoed (who : Role) (echo : Symbol → List Symbol) (syms : List Symbol) (rest : List Event) (s : State)
    (hr : (s.getPer who).rxen = false) :
    Host.Core.run Sys2Proof.core (2 * syms.length) { s with inbox := echoed who echo syms ++ rest } =
      Host.Core.run Sys2Proof.core syms.length { s with inbox := List.replicate syms.length (.txTick who) ++ rest } := by
  induction syms generalizing s with
  | nil => rfl
  | cons y syms ih =>
    obtain ⟨p, sel, hp, hstep⟩ := step_txTick_form s who
    have hrp : (State.getPer { s.setPer who p with txSel := sel } who).rxen = false := by
      rw [← hr, ← hp]
      cases who <;> rfl
    have hact : ∀ l, step { s.setPer who p with txSel := sel, inbox := .activity who (echo y) :: l } =
        .next { s.setPer who p with txSel := sel, inbox := l } := fun l =>
      step_activity_off rfl (by cases who <;> exact hrp)
    calc Host.Core.run Sys2Proof.core (2 * (syms.length + 1)) { s with inbox := echoed who echo (y :: syms) ++ rest }
        _ = Host.Core.run Sys2Proof.core (2 * syms.length)
              { s.setPer who p with txSel := sel, inbox := echoed who echo syms ++ rest } :=
          (run_succ _ (hstep _)).trans (run_succ _ (hact _))
        _ = Host.Core.run Sys2Proof.core syms.length
              { s.setPer who p with txSel := sel, inbox := List.replicate syms.length (.txTick who) ++ rest } :=
          ih { s.setPer who p with txSel := sel } hrp
        _ = Host.Core.run Sys2Proof.core (syms.length + 1)
              { s with inbox := List.replicate (syms.length + 1) (.txTick who) ++ rest } :=
          (run_succ _ (hstep _)).symm

/-- A frame is sent the same with its echo on the line while `RXEN = 0`. -/
theorem run_sends_echoed_frame {s : State} {who : Role} {front back : List Symbol} {echo : Symbol → List Symbol} {rest : List Event}
    (hwf : s.cfg.wf) (hr : (s.getPer who).rxen = false) (hne : ∀ y ∈ front, y ≠ endSymbol)
    (ht : (s.getPer who).tx = front ++ endSymbol :: back) (hi : s.inbox = echoed who echo (front ++ [endSymbol]) ++ rest) :
    Host.Core.run Sys2Proof.core (2 * (front.length + 1)) s = .next (s.sentFrame who front back rest) := by
  have hecho := run_echoed who echo (front ++ [endSymbol]) rest s hr
  rw [← hi, List.length_append, List.length_singleton] at hecho
  rw [hecho, run_sends_frame (s := { s with inbox := _ }) (by exact hwf) hne (by cases who <;> exact ht) rfl]
  cases who <;> rfl

end Sys2Proof.Machine

namespace Sys2Proof.Safety

open Sys2Proof.Machine

/-- Settles O34: by induction on the symbols before END. -/
theorem transmitterSendsUpToEndInOrder : Obligations.TransmitterSendsUpToEndInOrder :=
  fun _ _ _ _ _ hwf hne ht hi => run_sends_frame hwf hne ht hi

/-- Settles O44: `RXEN` decides what activity and its end leave. -/
theorem captureFollowsTheReceiveEnable : Obligations.CaptureFollowsTheReceiveEnable := by
  refine fun s who rest => ⟨fun y hi => ⟨fun hr => ?_, step_activity_off hi⟩,
    fun hi => ⟨fun cap hc => ⟨fun hr => ?_, fun hr => ?_⟩, fun hn => ?_⟩⟩
  · rw [step_activity hi, activity_on _ _ hr]; rfl
  · rw [step_lineIdle hi, lineIdle_on _ cap hc hr]
  · rw [step_lineIdle hi, lineIdle_off _ cap hc hr]
  · rw [step_lineIdle hi, lineIdle_none _ hn, State.setPer_getPer]

/-- Settles O45: two turns into the window, the frame sent with its echo while `RXEN = 0`, and two turns out of it. -/
theorem replyIsSentAndItsEchoNotCaptured : Obligations.ReplyIsSentAndItsEchoNotCaptured := by
  intro s front d1 d2 d3 d4 echo rest hwf hp hpos hne htx hline hi
  have hstop : s.cfg.stopSymbol ≠ endSymbol := fun e => by
    obtain ⟨-, ⟨hd, -⟩, -⟩ := hwf
    rw [e] at hd
    exact absurd hd (by decide)
  have hfront : ∀ y ∈ front ++ [s.cfg.stopSymbol], y ≠ endSymbol :=
    List.forall_mem_append.2 ⟨hne, List.forall_mem_singleton.2 hstop⟩
  have hreply : front ++ [s.cfg.stopSymbol, endSymbol] = front ++ [s.cfg.stopSymbol] ++ [endSymbol] := by simp
  have hinbox : s.inbox = .respTick d1 :: .respTick d2 ::
      (echoed .device echo (front ++ [s.cfg.stopSymbol] ++ [endSymbol]) ++ .respTick d3 :: .respTick d4 :: rest) := by
    rw [hi, ← hreply]; rfl
  have hlen : 2 * front.length + 8 = 2 * ((front ++ [s.cfg.stopSymbol]).length + 1) + 2 + 1 + 1 := by simp; omega
  rw [hlen]
  refine .trans (run_succ _ (step_respStopCapture hinbox hp hpos)) <|
    .trans (run_succ _ (step_respTransmit rfl hp rfl (endsInStopEnd_iff.2 (List.suffix_append _ _)))) <|
    .trans (run_add (run_sends_echoed_frame (who := .device) (back := []) hwf rfl hfront ?_ rfl)) <|
    .trans (run_succ 1 (step_respAwaitSent rfl hp rfl rfl)) <|
    .trans (run_one (step_respStartCapture rfl hp rfl)) ?_
  · show s.perD.tx ++ _ = _
    rw [htx]; exact hreply
  · simp [State.sentFrame, htx, hline]

end Sys2Proof.Safety
end

section
/-! PROOFS. Error results (spec/60_exceptions.md R226, R229, R241). One lemma says of the twelve operations which of them raises which
status, and when: an error result is one of the six of `Raises` and writes the port's answer alone, and every other answer is no
error. The mark of a faulted agent is written by one move. -/

namespace Sys2Proof.Machine

/-! ## What an operation raises -/

/-- The error results of the twelve operations: the operation, its status, and when it is raised. -/
inductive Raises (s : State) : Instr → Status → Prop where
  /-- `ENC_BUF` below `8n + 2` (spec/40_codec.md R124). -/
  | capacity (h : s.port.cap < 8 * s.port.bytes.length + 2) : Raises s .encBuf .capacity
  /-- `PARSE_CMD` below 8 symbols (spec/41_framer.md R142). -/
  | shortCmd (h : s.port.syms.length < 8) : Raises s .parseCmd .malformed
  /-- `PARSE_STATE` below 32 symbols (spec/41_framer.md R145). -/
  | shortState (r : CsId) (h : s.port.syms.length < 32) : Raises s (.parseState r) .malformed
  /-- `CS_RD_FIELD` of a number that names no field (spec/30_encoding.md R111). -/
  | noField (r : CsId) (f : BitVec 5) (h : wordField (s.getCs r) f = none) : Raises s (.csRdField r f) .illegalOp
  /-- `MBX_TAKE` of a consumer not below `NCONS` (spec/30_encoding.md R111). -/
  | noConsumer (tmo : Timeout) (k : BitVec 4) (h : ¬ k.toNat < s.cfg.ncons) : Raises s (.mbxTake tmo k) .illegalOp
  /-- `MBX_TAKE` that finds no news and does not wait (spec/43_mailbox.md R174). -/
  | timeout (tmo : Timeout) (k : BitVec 4) (hk : k.toNat < s.cfg.ncons) (hc : s.mbx.takeCase tmo k = .timeout) :
      Raises s (.mbxTake tmo k) .timeout

/-- The port's answer is no error result: a take is held, or the status is `OK` or a change result (spec/30_encoding.md R110). -/
def PortOut.NoError (o : PortOut) : Prop :=
  ∀ st v, o = .done st v → st = .ok ∨ st = .changed ∨ st = .unchanged

theorem noError_ok (v : Value) : PortOut.NoError (.done .ok v) := by
  rintro _ _ ⟨⟩
  exact .inl rfl

theorem noError_changeStatus (old new : Word) (v : Value) : PortOut.NoError (.done (changeStatus old new) v) := by
  rintro _ _ ⟨⟩
  exact .inr (changeStatus_cases old new)

theorem noError_held : PortOut.NoError .held :=
  nofun

/-- The inversion lemma for errors: an operation raises a status, and writes nothing but the answer, or its answer is no error. -/
theorem exec_raises_or {i : Instr} {w : ReqWord} {s t : State} (hw : encode s.cfg i = .req w) (he : exec i s = .next t) :
    (∃ st, Raises s i st ∧ t = { s with out := .done st .none }) ∨ t.out.NoError := by
  cases i with
  | encBit | classify | decBits | csRdWord | csRdBytes | mbxPublish => cases he; exact .inr (noError_ok _)
  | csLdWord r => cases (exec_csLdWord r s).symm.trans he; exact .inr (noError_ok _)
  | encBuf =>
    rcases Nat.lt_or_ge s.port.cap (8 * s.port.bytes.length + 2) with h | h
    · cases (execEncBuf_small s h).symm.trans he; exact .inl ⟨_, .capacity h, rfl⟩
    · cases (execEncBuf_fits s h).symm.trans he; exact .inr (noError_ok _)
  | parseCmd =>
    rcases Nat.lt_or_ge s.port.syms.length 8 with h | h
    · cases (execParseCmd_short s h).symm.trans he; exact .inl ⟨_, .shortCmd h, rfl⟩
    · cases (execParseCmd_long s h).symm.trans he; exact .inr (noError_ok _)
  | parseState r =>
    rcases Nat.lt_or_ge s.port.syms.length 32 with h | h
    · cases (execParseState_short s r h).symm.trans he; exact .inl ⟨_, .shortState r h, rfl⟩
    · cases (execParseState_long s r h).symm.trans he; exact .inr (noError_changeStatus _ _ _)
  | csRdField r f =>
    cases (exec_csRdField r s f).symm.trans he
    cases h : wordField (s.getCs r) f with
    | none => exact .inl ⟨_, .noField r f h, rfl⟩
    | some v => exact .inr (noError_ok v)
  | mbxTake tmo k =>
    by_cases hk : k.toNat < s.cfg.ncons
    · cases hc : s.mbx.takeCase tmo k with
      | now => cases (exec_mbxTake_now hk hc).symm.trans he; exact .inr (noError_ok _)
      | timeout => cases (exec_mbxTake_timeout hk hc).symm.trans he; exact .inl ⟨_, .timeout tmo k hk hc, rfl⟩
      | hold => cases (exec_mbxTake_hold hk hc).symm.trans he; exact .inr noError_held
    · cases (exec_mbxTake_noConsumer hk).symm.trans he; exact .inl ⟨_, .noConsumer tmo k hk, rfl⟩
  | status | poll | symZero | symOne | symStop | symEnd => cases hw

/-- An error status the port answers is one the operation raises, and nothing but the answer is written (spec/60_exceptions.md
R241). -/
theorem exec_error {i : Instr} {w : ReqWord} {s t : State} {st : Status} {v : Value} (hw : encode s.cfg i = .req w)
    (he : exec i s = .next t) (ho : t.out = .done st v) (hst : st ∈ [Status.malformed, .capacity, .timeout, .illegalOp]) :
    Raises s i st ∧ v = .none ∧ t = { s with out := .done st .none } := by
  rcases exec_raises_or hw he with ⟨st', hr, rfl⟩ | hno
  · cases ho
    exact ⟨hr, rfl, rfl⟩
  · rcases hno st v ho with rfl | rfl | rfl <;> simp at hst

/-- `MALFORMED` is raised by a parse with too few symbols (spec/60_exceptions.md R226). -/
theorem Raises.malformed {s : State} {i : Instr} (h : Raises s i .malformed) :
    i = .parseCmd ∧ s.port.syms.length < 8 ∨ ∃ r, i = .parseState r ∧ s.port.syms.length < 32 := by
  cases h with
  | shortCmd h => exact .inl ⟨rfl, h⟩
  | shortState r h => exact .inr ⟨r, rfl, h⟩

/-! ## The mark of a faulted agent -/

/-- An issuer that receives `CAPACITY` is marked, once (spec/60_exceptions.md R229). -/
theorem State.received_capacity {s : State} (who : Issuer) (h : s.out = .done .capacity .none) :
    (s.received who).faulted = if who ∈ s.faulted then s.faulted else s.faulted ++ [who] := by
  rw [State.received, if_pos h, State.markFaulted_eq]

/-- Where an answer adds a mark, it is `CAPACITY`, and the mark is its issuer's. -/
theorem State.received_faulted_ne {s : State} {who : Issuer} (h : (s.received who).faulted ≠ s.faulted) :
    s.out = .done .capacity .none ∧ who ∉ s.faulted ∧ (s.received who).faulted = s.faulted ++ [who] := by
  rw [State.received_faulted] at h ⊢
  split_ifs at h ⊢ with hc
  · exact ⟨hc.1, hc.2, rfl⟩
  · exact absurd rfl h

theorem step_encBuf_small {s : State} {who : Issuer} {ops : Operands} {rest : List Event}
    (hi : s.inbox = .request who 0x1000 ops :: rest) (hc : ops.cap < 8 * ops.bytes.length + 2) :
    step s = .next { s with inbox := rest, port := cutOperands s.cfg ops, out := .done .capacity .none,
                            faulted := if who ∈ s.faulted then s.faulted else s.faulted ++ [who] } := by
  obtain ⟨t, ht, hs⟩ := step_request_ok (i := .encBuf) hi rfl
  cases (execEncBuf_small { s with inbox := rest, port := cutOperands s.cfg ops } hc).symm.trans ht
  rw [hs, State.received_capacity who rfl]

/-- Of all moves only a request of `ENC_BUF` with too small a capacity writes the marks. -/
theorem move_faulted {e : Event} {s t : State} (hm : Move e s t) (hne : t.faulted ≠ s.faulted) :
    ∃ who ops, e = .request who 0x1000 ops ∧ ops.cap < 8 * ops.bytes.length + 2 ∧ who ∉ s.faulted ∧
      t.faulted = s.faulted ++ [who] := by
  cases hm with
  | request who w ops i s u f hd he hf =>
    have hkeep : u.faulted = s.faulted := (exec_keeps_faulted he :)
    obtain ⟨ho, hnew, hadd⟩ := State.received_faulted_ne (s := u) (who := who) (by rw [← hf, hkeep]; exact hne)
    obtain ⟨hw, -⟩ := encode_of_decodeReq hd
    obtain ⟨rfl, hc⟩ := exec_capacity (s := { s with port := cutOperands s.cfg ops }) hw he ho
    cases hw
    exact ⟨who, ops, rfl, hc, hkeep ▸ hnew, by rw [← hkeep, ← hadd]; exact hf⟩
  | sent who | activity who | lineIdle who => exact absurd (State.setPer_faulted s who _) hne
  | _ => exact absurd rfl hne

end Sys2Proof.Machine

namespace Sys2Proof.Safety

open Sys2Proof.Machine

/-- Settles O50: what an operation raises it answers without a value, and writes nothing else. -/
theorem errorResultsChangeNothing : Obligations.ErrorResultsChangeNothing := by
  intro i w s t st v hw he ho hst
  obtain ⟨-, -, ht⟩ := exec_error hw he ho hst
  exact ht

/-- Settles O11: the three length tests; and of what an operation can raise only a short parse's status is `MALFORMED`. -/
theorem malformedIsForTooFewSymbolsOnly : Obligations.MalformedIsForTooFewSymbolsOnly := by
  refine ⟨execParseCmd_short, fun r s => execParseState_short s r, fun r s => parsePoll_short s r, ?_⟩
  intro i w s t v hw he ho
  obtain ⟨hr, hv, -⟩ := exec_error hw he ho (by decide)
  exact ⟨hv, hr.malformed⟩

/-- Settles O3: the refusal, its request with the mark, and that no other move writes the marks. -/
theorem encBufRefusesSmallCapacity : Obligations.EncBufRefusesSmallCapacity := by
  refine ⟨execEncBuf_small, fun s who ops rest => step_encBuf_small, fun s t hs hne => ?_⟩
  rcases step_next_move hs with ⟨-, rfl⟩ | ⟨e, rest, hi, hm⟩
  · exact absurd rfl hne
  · obtain ⟨who, ops, rfl, hc, hnew, hadd⟩ := move_faulted hm hne
    exact ⟨who, ops, rest, hi, hc, hnew, hadd⟩

end Sys2Proof.Safety
end

section
/-! PROOFS. What reset leaves (spec/70_reset_and_hazards.md R256 to R259): the reset values read off, the first reads and takes, the
invariant of the whole machine, and the configuration that no step changes. -/

namespace Sys2Proof.Machine

/-! ## The fields of the zero word -/

@[simp] theorem wordFlag_zero (f : Nat) : wordFlag 0 f = false := by
  simp [wordFlag]

@[simp] theorem wordAxisX_zero : wordAxisX 0 = 0 := rfl

@[simp] theorem wordAxisY_zero : wordAxisY 0 = 0 := rfl

/-! ## Reads and takes right after reset -/

section
variable (c : Config)

@[simp] theorem getCs_ofConfig (r : CsId) : (State.ofConfig c).getCs r = 0 := by
  cases r <;> rfl

theorem freshOf_ofConfig (k : BitVec 4) : (State.ofConfig c).mbx.freshOf k = false :=
  (Safety.mailboxInv_ofConfig c).freshOf_eq_false rfl k

/-- A field read right after reset answers that field of the zero word. -/
theorem exec_csRdField_ofConfig (r : CsId) {f : BitVec 5} {v : Value} (h : wordField 0 f = some v) :
    exec (.csRdField r f) (State.ofConfig c) = .next { State.ofConfig c with out := .done .ok v } := by
  rw [exec_csRdField, getCs_ofConfig, h]
  rfl

end

end Sys2Proof.Machine

namespace Sys2Proof.Safety

open Sys2Proof.Machine

/-! ## The invariant at reset -/

theorem schedulerInv_reset (c : Config) : SchedulerInv c .init .encode Peripheral.reset where
  lent := rfl
  start := fun _ => rfl
  sends := nofun
  capture := nofun

theorem responderInv_reset (c : Config) : ResponderInv c .init .receive Peripheral.reset where
  lent := rfl
  start := fun _ => rfl
  sends := nofun
  reply := nofun
  capture := nofun
  sending := fun h => absurd rfl h

theorem inv_ofConfig {c : Config} (h : c.wf) : Inv (State.ofConfig c) :=
  inv_iff.2 ⟨h, mailboxInv_ofConfig c, schedulerInv_reset c, responderInv_reset c, List.forall_mem_nil _⟩

theorem default_wf : Config.default.wf := by
  decide

/-- Settles O49: a step is a move, and no move writes the configuration. -/
theorem configurationIsConstant : Obligations.ConfigurationIsConstant := fun s _ hs =>
  step_keeps (P := fun u => u.cfg = s.cfg) (fun _ _ h => h) (fun _ _ _ hm h => (move_keeps_cfg hm).trans h) hs rfl

/-- Settles O56: the reset values are read off; every field is one of the zero word, and no flag or packet is there to take. -/
theorem resetLeavesTheSpecifiedState : Obligations.ResetLeavesTheSpecifiedState := by
  refine ⟨rfl, fun c => ⟨rfl, rfl, rfl, rfl, List.length_replicate, fun _ => List.eq_of_mem_replicate, rfl, rfl, rfl, rfl, rfl,
    rfl, rfl, rfl, rfl, rfl, fun r f => ⟨fun hf => ?_, fun hf => ?_⟩, fun k hk => ⟨?_, ?_⟩⟩⟩
  · exact exec_csRdField_ofConfig c r (by rw [wordField_flag 0 hf, wordFlag_zero])
  · refine exec_csRdField_ofConfig c r ?_
    rcases hf with hx | hy
    · rw [wordField_axisX 0 hx, wordAxisX_zero]
    · rw [wordField_axisY 0 hy, wordAxisY_zero]
  · exact exec_peek_stale hk (freshOf_ofConfig c k)
  · exact exec_mbxTake_hold hk rfl

/-- Settles O57: part by part the reset values meet the invariant, and the default configuration is legal. -/
theorem resetMeetsTheInvariant : Obligations.ResetMeetsTheInvariant :=
  ⟨inv_ofConfig default_wf, fun _ => inv_ofConfig, fun _ => rfl⟩

end Sys2Proof.Safety
end

section
/-! PROOFS. Ownership (spec/70_reset_and_hazards.md R276, spec/10_state.md R32): the premise speaks of the entries still to come, which
a move only takes from; and the moves that write a register are its owner's turn or a request that names the register. -/

namespace Sys2Proof.Safety

open Sys2Proof.Machine

section
variable {s t : State}

theorem move_keeps_inbox {e : Event} (hm : Move e s t) : t.inbox = s.inbox := by
  cases hm with
  | request who w ops i s u f hd he => exact (exec_keeps_inbox he :)
  | sent who | activity who | lineIdle who => exact State.setPer_inbox s who _
  | _ => rfl

/-- An instruction that writes a register names it (spec/10_state.md R36). -/
theorem exec_writes_registerNamed {r : CsId} {i : Instr} (he : exec i s = .next t) (hne : t.getCs r ≠ s.getCs r) :
    registerNamed i = some r := by
  rcases onlyParseAndLoadWriteARegister r i s t he hne with ⟨rfl, -⟩ | rfl <;> rfl

/-- What may write `CS[r]` under the premise: the owner's turn at the place that writes it, or a request of the owner. -/
inductive Writes (s t : State) : CsId → Event → Prop where
  | parse (now : Nat) (d : RecvDraw) (cap : List Symbol) (hp : s.phaseP = .running) (h : s.posP = .parse cap) :
      Writes s t .cs0 (.pollTick now d)
  | load (d : RecvDraw) (cmd : Byte) (hp : s.phaseR = .running) (h : s.posR = .load cmd t.cs1) : Writes s t .cs1 (.respTick d)
  | request (r : CsId) (w : ReqWord) (ops : Operands) : Writes s t r (.request (owner r) w ops)

/-- Of all moves only the scheduler's parse, the responder's load and a request of the owner write a register. -/
theorem move_writes {e : Event} (hm : Move e s t) (ho : eventOwned s.cfg e) (r : CsId) (hne : t.getCs r ≠ s.getCs r) :
    Writes s t r e := by
  cases hm with
  | request who w ops i s u f hd he =>
    have hn : registerNamed i = some r := by
      refine exec_writes_registerNamed he ?_
      cases r <;> exact hne
    rw [ho i r hd hn]
    exact .request r w ops
  | pollParse now d cap s hp hpos =>
    cases r with
    | cs0 => exact .parse now d cap hp hpos
    | cs1 => exact absurd rfl hne
  | respLoad d cmd w s hp hpos =>
    cases r with
    | cs0 => exact absurd rfl hne
    | cs1 => exact .load d cmd hp hpos
  | sent who | activity who | lineIdle who =>
    exact absurd (getCs_congr (State.setPer_cs0 s who _) (State.setPer_cs1 s who _) r) hne
  | _ => exact absurd (getCs_congr rfl rfl r) hne

end

/-- Settles O60: a move leaves the entries that follow as they are, and writes a register as `Writes` lists. -/
theorem ownershipLeavesEachRegisterItsWriter : Obligations.OwnershipLeavesEachRegisterItsWriter := by
  intro s t ho hs
  rcases step_next_move hs with ⟨-, rfl⟩ | ⟨e, rest, hi, hm⟩
  · exact ⟨ho, fun hne => absurd rfl hne, fun hne => absurd rfl hne⟩
  · have he : eventOwned s.cfg e := ho e (hi ▸ List.mem_cons_self)
    refine ⟨?_, fun hne => ?_, fun hne => ?_⟩
    · unfold Owned
      rw [move_keeps_inbox hm, move_keeps_cfg hm]
      exact fun e' he' => ho e' (hi ▸ List.mem_cons_of_mem e he')
    · cases move_writes hm he .cs0 hne with
      | parse now d cap hp hpos => exact .inl ⟨now, d, rest, cap, hi, hp, hpos⟩
      | request _ w ops => exact .inr ⟨w, ops, rest, hi⟩
    · cases move_writes hm he .cs1 hne with
      | load d cmd hp hpos => exact .inl ⟨d, rest, cmd, hi, hp, hpos⟩
      | request _ w ops => exact .inr ⟨w, ops, rest, hi⟩

end Sys2Proof.Safety
end

section
/-! PROOFS. The anchor (spec/70_reset_and_hazards.md R286, spec/10_state.md R48): `reanchor` puts another number there. Every event does
the same before and after it, but for the two that set the anchor from `now` and the two places of the period wait that read it. -/

namespace Sys2Proof.Machine

/-- The state with another anchor. -/
def State.reanchor (a : Nat) (s : State) : State :=
  { s with anchor := a }

section
variable (a : Nat) {s : State}

theorem State.reanchor_posP : (s.reanchor a).posP = s.posP := rfl

theorem State.reanchor_posR : (s.reanchor a).posR = s.posR := rfl

theorem getPer_reanchor (who : Role) : (s.reanchor a).getPer who = s.getPer who := by
  cases who <;> rfl

theorem setPer_reanchor (who : Role) (p : Peripheral) : (s.reanchor a).setPer who p = (s.setPer who p).reanchor a := by
  cases who <;> rfl

theorem getCs_reanchor (r : CsId) : (s.reanchor a).getCs r = s.getCs r := by
  cases r <;> rfl

theorem setCs_reanchor (r : CsId) (w : Word) : (s.reanchor a).setCs r w = (s.setCs r w).reanchor a := by
  cases r <;> rfl

theorem popSymbol_reanchor (who : Role) (ys : List Symbol) : popSymbol who ys (s.reanchor a) = (popSymbol who ys s).reanchor a := by
  cases who <;> rfl

theorem emit_reanchor (y : Symbol) : emit y (s.reanchor a) = (emit y s).reanchor a := by
  unfold emit
  rw [getPer_reanchor, setPer_reanchor]
  rfl

theorem emitEnd_reanchor : emitEnd (s.reanchor a) = (emitEnd s).reanchor a := by
  unfold emitEnd
  rw [getPer_reanchor, setPer_reanchor]
  rfl

theorem received_reanchor (who : Issuer) : (s.reanchor a).received who = (s.received who).reanchor a := by
  unfold State.received
  rw [State.markFaulted_eq, State.markFaulted_eq, apply_ite (State.reanchor a)]
  rfl

/-! ## Operations -/

/-- No instruction reads or writes the anchor. -/
theorem exec_reanchor (i : Instr) : exec i (s.reanchor a) = mapNext (State.reanchor a) (exec i s) := by
  cases i with
  | encBit | classify | decBits | csRdBytes | mbxPublish | status | poll => rfl
  | encBuf => dsimp only [exec, execEncBuf, State.reanchor]; split <;> rfl
  | parseCmd => dsimp only [exec, execParseCmd, State.reanchor]; split <;> rfl
  | parseState r =>
    dsimp only [exec, execParseState]
    rw [getCs_reanchor, setCs_reanchor, apply_ite (mapNext (State.reanchor a))]
    rfl
  | csRdWord r => cases r <;> rfl
  | csRdField r f => rw [exec_csRdField, exec_csRdField, getCs_reanchor]; rfl
  | csLdWord r => cases r <;> rfl
  | mbxTake tmo k =>
    dsimp only [exec, execMbxTake, State.reanchor]
    split
    · cases s.mbx.takeCase tmo k <;> rfl
    · rfl
  | symZero | symOne | symStop => exact congrArg _ (emit_reanchor a _)
  | symEnd => exact congrArg _ (emitEnd_reanchor a)

theorem exec_port_reanchor (i : Instr) (ops : Operands) :
    exec i { s.reanchor a with port := ops } = mapNext (State.reanchor a) (exec i { s with port := ops }) :=
  exec_reanchor a (s := { s with port := ops }) i

theorem transmit_reanchor (who : Role) (y : List Symbol) :
    transmit who y (s.reanchor a) = mapNext (State.reanchor a) (transmit who y s) := by
  dsimp only [transmit]
  rw [getPer_reanchor, setPer_reanchor, apply_ite (mapNext (State.reanchor a))]
  rfl

theorem parsePoll_reanchor (r : CsId) (cap : List Symbol) :
    parsePoll r cap (s.reanchor a) = mapNext (State.reanchor a) (parsePoll r cap s) := by
  unfold parsePoll
  rw [apply_ite (mapNext (State.reanchor a))]
  exact congrArg (ite _ _) (exec_port_reanchor a (.parseState r) _)

/-- An agent that issues an operation goes on with the answer, which is the same. -/
theorem andThen_reanchor {r r' : Result} {k : PortOut → State → Result} (hr : r' = mapNext (State.reanchor a) r)
    (hk : ∀ o t, k o (t.reanchor a) = mapNext (State.reanchor a) (k o t)) :
    andThen r' k = mapNext (State.reanchor a) (andThen r k) :=
  hr ▸ andThen_mapNext (fun t => hk t.out t) r

theorem buildReply_reanchor (bytes : List Byte) (cap : Nat) :
    buildReply bytes cap (s.reanchor a) = mapNext (State.reanchor a) (buildReply bytes cap s) :=
  andThen_reanchor a (exec_port_reanchor a .encBuf _) fun o t => by split <;> rfl

/-! ## The agents' turns -/

/-- Away from the period wait the Poll Scheduler's turn neither reads nor writes the anchor (spec/44_sequencers.md R206). -/
theorem pollStep_reanchor (now : Nat) (d : RecvDraw) (h : s.posP ∉ [PollPos.periodCheck, .resync, .periodWait]) :
    pollStep now d (s.reanchor a) = mapNext (State.reanchor a) (pollStep now d s) := by
  unfold pollStep
  rw [State.reanchor_posP]
  cases hpos : s.posP with
  | encode => exact andThen_reanchor a (exec_port_reanchor a .encBuf _) fun o t => by split <;> rfl
  | transmit y => exact andThen_reanchor a (transmit_reanchor a .host y) fun o t => rfl
  | receive => dsimp only [pollReceive, State.reanchor]; cases s.perH.receive .bounded d <;> rfl
  | gate cap =>
    cases cap with
    | none => rfl
    | some c => dsimp only [pollGate, State.reanchor]; split <;> rfl
  | parse cap => exact andThen_reanchor a (parsePoll_reanchor a .cs0 cap) fun o t => by split <;> rfl
  | readWord | publish => rfl
  | release cap => cases cap <;> rfl
  | periodCheck | resync | periodWait => simp [hpos] at h

/-- No place of the Command Responder's cycle reads or writes the anchor (spec/44_sequencers.md R210). -/
theorem respStep_reanchor (d : RecvDraw) : respStep d (s.reanchor a) = mapNext (State.reanchor a) (respStep d s) := by
  unfold respStep
  rw [State.reanchor_posR]
  cases s.posR with
  | receive => dsimp only [respReceive, State.reanchor]; cases s.perD.receive .forever d <;> rfl
  | parse cap => exact andThen_reanchor a (exec_port_reanchor a .parseCmd _) fun o t => by split <;> rfl
  | release cap cmd => cases cmd <;> rfl
  | peek cmd => exact andThen_reanchor a (exec_reanchor a (.mbxTake .zero 0)) fun o t => by split <;> rfl
  | dispatch cmd =>
    dsimp only [respDispatch, State.reanchor]
    cases decode s.cfg (.cmd cmd) with
    | ok i => exact exec_reanchor a i
    | reject => rfl
  | encode b => exact buildReply_reanchor a b 34
  | transmit y => exact andThen_reanchor a (transmit_reanchor a .device y) fun o t => rfl
  | awaitSent => dsimp only [respAwaitSent, State.reanchor]; split <;> rfl
  | load | stopCapture | startCapture => rfl

/-! ## Events -/

theorem handleRequest_reanchor (who : Issuer) (w : ReqWord) (ops : Operands) :
    handleRequest who w ops (s.reanchor a) = mapNext (State.reanchor a) (handleRequest who w ops s) := by
  dsimp only [handleRequest, State.reanchor]
  cases decode s.cfg (.req w) with
  | ok i => exact andThen_reanchor a (exec_port_reanchor a i _) fun o t => congrArg _ (received_reanchor a who)
  | reject => rfl

theorem wakeTake_reanchor (n : Nat) (expired : Bool) :
    wakeTake n expired (s.reanchor a) = mapNext (State.reanchor a) (wakeTake n expired s) := by
  dsimp only [wakeTake, State.reanchor]
  cases s.held[n]? with
  | none => rfl
  | some g => dsimp only; cases s.mbx.wakeCase g.tmo expired <;> rfl

theorem handleTx_reanchor (who : Role) : handleTx who (s.reanchor a) = mapNext (State.reanchor a) (handleTx who s) := by
  unfold handleTx
  rw [getPer_reanchor]
  cases (s.getPer who).tx with
  | nil => rfl
  | cons y ys =>
    dsimp only [State.reanchor]
    rw [← State.reanchor, popSymbol_reanchor]
    cases decode s.cfg (.sym y) with
    | ok i => exact exec_reanchor a i
    | reject => exact congrArg _ (emit_reanchor a y)

theorem startResp_reanchor (configured : Bool) : startResp configured (s.reanchor a) = (startResp configured s).reanchor a := by
  dsimp only [startResp, State.reanchor]
  split
  · cases configured <;> rfl
  · rfl

theorem respTick_reanchor (d : RecvDraw) : respTick d (s.reanchor a) = mapNext (State.reanchor a) (respTick d s) := by
  unfold respTick
  rw [respStep_reanchor, apply_ite (mapNext (State.reanchor a))]
  rfl

end

end Sys2Proof.Machine

namespace Sys2Proof.Safety

open Sys2Proof.Machine

/-- The places a turn that reads the anchor can leave the scheduler at: the period wait's own and the start of the next cycle. -/
def paced : List PollPos :=
  [.resync, .periodWait, .encode]

/-- `u` is `t` but for the anchor and the scheduler's place, and for its place only after a turn that read the anchor, at `pos`. -/
def AgreesButPace (pos : PollPos) (t u : State) : Prop :=
  { u with anchor := t.anchor, posP := t.posP } = t ∧
    (u.posP = t.posP ∨ (pos = .periodCheck ∨ pos = .periodWait) ∧ u.posP ∈ paced ∧ t.posP ∈ paced)

section
variable {s t : State} (a : Nat)

theorem agreesButPace_reanchor (pos : PollPos) (t : State) : AgreesButPace pos t (t.reanchor a) :=
  ⟨rfl, .inl rfl⟩

theorem agreesButPace_refl (pos : PollPos) (t : State) : AgreesButPace pos t t :=
  ⟨rfl, .inl rfl⟩

/-- What neither reads nor writes the anchor leaves the place as well. -/
theorem agrees_of_commutes {r r' : Result} (pos : PollPos) (hr : r' = mapNext (State.reanchor a) r) (h : r = .next t) :
    ∃ u, r' = .next u ∧ AgreesButPace pos t u :=
  ⟨t.reanchor a, by rw [hr, h]; rfl, agreesButPace_reanchor a pos t⟩

/-- `poll_init` sets the anchor, whatever it was (spec/44_sequencers.md R199). -/
theorem startPoll_agrees (configured : Bool) (now : Nat) (pos : PollPos) :
    AgreesButPace pos (startPoll configured now s) (startPoll configured now (s.reanchor a)) := by
  dsimp only [startPoll, State.reanchor]
  split
  · cases configured with
    | true => exact agreesButPace_refl pos _
    | false => exact agreesButPace_reanchor a pos _
  · exact agreesButPace_reanchor a pos s

/-- The overrun test decides between the resynchronisation and the wait (spec/44_sequencers.md R206). -/
theorem pollPeriodCheck_writes (now : Nat) (s : State) :
    ∃ pos ∈ paced, pollPeriodCheck now s = { s with posP := pos } := by
  unfold pollPeriodCheck
  split
  · exact ⟨.resync, by decide, rfl⟩
  · exact ⟨.periodWait, by decide, rfl⟩

/-- The wait goes on, or the anchor advances and the next cycle starts (spec/44_sequencers.md R206). -/
theorem pollPeriodWait_writes (now : Nat) (h : s.posP = .periodWait) :
    ∃ b, ∃ pos ∈ paced, pollPeriodWait now s = { s with anchor := b, posP := pos } := by
  unfold pollPeriodWait
  split
  · exact ⟨_, .encode, by decide, rfl⟩
  · exact ⟨s.anchor, .periodWait, by decide, by rw [← h]⟩

theorem pollPeriodCheck_agrees (now : Nat) (h : s.posP = .periodCheck) :
    AgreesButPace s.posP (pollPeriodCheck now s) (pollPeriodCheck now (s.reanchor a)) := by
  obtain ⟨p, hp, et⟩ := pollPeriodCheck_writes now s
  obtain ⟨q, hq, eu⟩ := pollPeriodCheck_writes now (s.reanchor a)
  rw [et, eu]
  exact ⟨rfl, .inr ⟨.inl h, hq, hp⟩⟩

theorem pollPeriodWait_agrees (now : Nat) (h : s.posP = .periodWait) :
    AgreesButPace s.posP (pollPeriodWait now s) (pollPeriodWait now (s.reanchor a)) := by
  obtain ⟨b, p, hp, et⟩ := pollPeriodWait_writes now h
  obtain ⟨c, q, hq, eu⟩ := pollPeriodWait_writes now (s := s.reanchor a) h
  rw [et, eu]
  exact ⟨rfl, .inr ⟨.inr h, hq, hp⟩⟩

/-- The Poll Scheduler's turn: away from the period wait the anchor is not read, and in it the place alone depends on it. -/
theorem pollStep_agrees (now : Nat) (d : RecvDraw) (h : pollStep now d s = .next t) :
    ∃ u, pollStep now d (s.reanchor a) = .next u ∧ AgreesButPace s.posP t u := by
  by_cases hmem : s.posP ∈ [PollPos.periodCheck, .resync, .periodWait]
  · simp only [List.mem_cons, List.not_mem_nil, or_false] at hmem
    rcases hmem with hpos | hpos | hpos
    · cases (pollStep_periodCheck now d hpos).symm.trans h
      exact ⟨_, pollStep_periodCheck now d (s := s.reanchor a) hpos, pollPeriodCheck_agrees a now hpos⟩
    · cases (pollStep_resync now d hpos).symm.trans h
      exact ⟨_, pollStep_resync now d (s := s.reanchor a) hpos, agreesButPace_refl _ _⟩
    · cases (pollStep_periodWait now d hpos).symm.trans h
      exact ⟨_, pollStep_periodWait now d (s := s.reanchor a) hpos, pollPeriodWait_agrees a now hpos⟩
  · exact agrees_of_commutes a _ (pollStep_reanchor a now d hmem) h

theorem pollTick_agrees (now : Nat) (d : RecvDraw) (h : pollTick now d s = .next t) :
    ∃ u, pollTick now d (s.reanchor a) = .next u ∧ AgreesButPace s.posP t u := by
  by_cases hp : s.phaseP = .running
  · obtain ⟨u, hu, hau⟩ := pollStep_agrees a now d ((if_pos hp).symm.trans h)
    exact ⟨u, (if_pos hp).trans hu, hau⟩
  · cases (if_neg hp).symm.trans h
    exact ⟨_, if_neg hp, agreesButPace_reanchor a _ s⟩

/-- Whatever happens, the two machines agree afterwards but for the anchor and the pace. -/
theorem handle_agrees {e : Event} (h : handle e s = .next t) :
    ∃ u, handle e (s.reanchor a) = .next u ∧ AgreesButPace s.posP t u := by
  cases e with
  | request who w ops => exact agrees_of_commutes a _ (handleRequest_reanchor a who w ops) h
  | wake n expired => exact agrees_of_commutes a _ (wakeTake_reanchor a n expired) h
  | startPoll configured now =>
    cases h
    exact ⟨_, rfl, startPoll_agrees a configured now s.posP⟩
  | startResp configured => exact agrees_of_commutes a _ (congrArg _ (startResp_reanchor a configured)) h
  | pollTick now d => exact pollTick_agrees a now d h
  | respTick d => exact agrees_of_commutes a _ (respTick_reanchor a d) h
  | txTick who => exact agrees_of_commutes a _ (handleTx_reanchor a who) h
  | activity who | lineIdle who => exact agrees_of_commutes a _ (by cases who <;> rfl) h

end

/-- Settles O48: with nothing to happen both machines stay, and otherwise the same event happens to both. -/
theorem anchorOnlyPacesTheCycle : Obligations.AnchorOnlyPacesTheCycle := by
  intro s t a hs
  rcases step_next_cases hs with ⟨hi, rfl⟩ | ⟨e, rest, hi, he⟩
  · exact ⟨t.reanchor a, step_nil (t.reanchor a) hi, agreesButPace_reanchor a _ t⟩
  · obtain ⟨u, hu, hau⟩ := handle_agrees a he
    exact ⟨u, (step_cons (s.reanchor a) hi).trans hu, hau⟩

end Sys2Proof.Safety
end

section
/-! PROOFS. The canonical symbols at the transmitter (spec/30_encoding.md R87 to R90): the row of a symbol acts on the peripheral of the
transmitter that sends, whichever it is. -/

namespace Sys2Proof.Machine

section
variable {s : State} {who : Role}

theorem emit_of_txSel (h : s.txSel = who) (y : Symbol) :
    emit y s = s.setPer who { s.getPer who with line := (s.getPer who).line ++ [y] } := by
  subst h; rfl

theorem emitEnd_of_txSel (h : s.txSel = who) :
    emitEnd s = s.setPer who { s.getPer who with line := [], sent := (s.getPer who).sent ++ [(s.getPer who).line] } := by
  subst h; rfl

theorem exec_symZero (h : s.txSel = who) :
    exec .symZero s = .next (s.setPer who { s.getPer who with line := (s.getPer who).line ++ [zeroSymbol s.cfg] }) :=
  congrArg _ (emit_of_txSel h _)

theorem exec_symOne (h : s.txSel = who) :
    exec .symOne s = .next (s.setPer who { s.getPer who with line := (s.getPer who).line ++ [oneSymbol s.cfg] }) :=
  congrArg _ (emit_of_txSel h _)

theorem exec_symStop (h : s.txSel = who) :
    exec .symStop s = .next (s.setPer who { s.getPer who with line := (s.getPer who).line ++ [stopSymbol s.cfg] }) :=
  congrArg _ (emit_of_txSel h _)

theorem exec_symEnd (h : s.txSel = who) :
    exec .symEnd s =
      .next (s.setPer who { s.getPer who with line := [], sent := (s.getPer who).sent ++ [(s.getPer who).line] }) :=
  congrArg _ (emitEnd_of_txSel h)

end

end Sys2Proof.Machine

namespace Sys2Proof.Safety

open Sys2Proof.Machine

/-- Settles O33: each symbol's row, at the host's transmitter and at the device's. -/
theorem symbolsGoOnTheLine : Obligations.SymbolsGoOnTheLine := fun _ =>
  ⟨fun h => ⟨exec_symZero h, exec_symOne h, exec_symStop h, exec_symEnd h⟩,
   fun h => ⟨exec_symZero h, exec_symOne h, exec_symStop h, exec_symEnd h⟩⟩

end Sys2Proof.Safety
end

section
/-! PROOFS. The opcode table's own numbering (spec/30_encoding.md R86, R99, R108, R111): a table word is read as the instruction whose
code it numbers, and as none where the decoder rejects the code. -/

namespace Sys2Proof

theorem decodeCmd_rejects {b : Byte} (h0 : b ≠ cmdStatus) (h1 : b ≠ cmdPoll) (i : Instr) : decodeCmd b ≠ .ok i := by
  rw [decodeCmd, if_neg h0, if_neg h1]
  nofun

section
variable {nbits w : Nat}

/-- The word of a well-formed instruction's code decodes to it, since the code does. -/
theorem decodeTableWord_of_encode {i : Instr} (hi : i.wf Config.default)
    (hw : codeOfTableWord nbits w = some (encode Config.default i)) : decodeTableWord nbits w = some i := by
  simp only [decodeTableWord, hw, decode_encode Safety.default_wf hi]

theorem decodeTableWord_of_rejects {code : Code} (hw : codeOfTableWord nbits w = some code)
    (hno : ∀ i, decode Config.default code ≠ .ok i) : decodeTableWord nbits w = none := by
  cases hd : decode Config.default code with
  | ok i => exact absurd hd (hno i)
  | reject e => simp only [decodeTableWord, hw, hd]

end

end Sys2Proof

namespace Sys2Proof.Safety

/-- Settles O54: nine words number the code of a well-formed instruction, the other three a command byte that names no command, a
request of timeout class 3 and a read of field 18. -/
theorem tableWordsDecode : Obligations.TableWordsDecode := by
  refine ⟨decodeTableWord_of_encode trivial rfl, decodeTableWord_of_encode trivial rfl, decodeTableWord_of_encode (by decide) rfl,
    decodeTableWord_of_encode (by decide) rfl, decodeTableWord_of_encode trivial rfl, decodeTableWord_of_encode (by decide) rfl,
    decodeTableWord_of_encode trivial rfl, ?command, decodeTableWord_of_encode trivial rfl,
    decodeTableWord_of_encode (by decide) rfl, ?timeout, ?field⟩
  case command => exact decodeTableWord_of_rejects (code := .cmd 0x7F) rfl (decodeCmd_rejects (by decide) (by decide))
  case timeout => exact decodeTableWord_of_rejects (code := .req 0xB600) rfl ((decodeReq_rejects_iff .default 0xB600).2 (by decide))
  case field => exact decodeTableWord_of_rejects (code := .req 0x7120) rfl ((decodeReq_rejects_iff .default 0x7120).2 (by decide))

end Sys2Proof.Safety
end
